-- ==== Sys2Proof/Word.lean ====
section
/-! DEFINITION. The word types of the machine: the 36-bit word (R8 `WORD_BITS`), its 18-bit halves and relative
addresses, and the numbers that name registers. -/

namespace Sys2Proof

/-- A word, a register or a storage location: 36 bits (R8, R80). Bit 0 is the least significant (R10). -/
abbrev Word := BitVec 36

/-- An 18-bit relative address within a bank, and the width of a register half (R25, R81). -/
abbrev RelAddr := BitVec 18

/-- An 18-bit bank name (R316). -/
abbrev BankName := BitVec 18

/-- A GRS index, 0 to 127; its addition is modulo 128, as R23 takes register successors. -/
abbrev GrsIndex := BitVec 7

/-- A base register number, 0 to 31 (R35). -/
abbrev BaseIndex := BitVec 5

/-- A processor's UPI index. SEND names its target by the 18-bit number U (R45, R352). -/
abbrev UpiIndex := BitVec 18

/-- `zext_36` of an 18-bit value (R12). -/
def zext36 (v : RelAddr) : Word := v.setWidth 36

/-- Bits 35:18 of a word: an index register's increment, a bank name, or H1 (R25, R28). -/
def Word.high (w : Word) : RelAddr := w.extractLsb' 18 18

/-- Bits 17:0 of a word: an index register's modifier, an offset, or H2 (R25, R28). -/
def Word.low (w : Word) : RelAddr := w.extractLsb' 0 18

/-- `hi : lo`, two halves joined into a word (R10). -/
def Word.ofHalves (hi lo : RelAddr) : Word := (hi ++ lo : BitVec (18 + 18))

end Sys2Proof
end

