-- ==== Sys2Proof/Syntax.lean ====
section
/-! DEFINITION. The instructions: one constructor for each row of the opcode map (R147), carrying every bit of the
word that the row does not fix. Fields that a rule ignores (R148) are kept too, because an interrupt reports the whole
instruction word in ISW0 (R403). -/

namespace Sys2Proof

/-- The two addressing modes, selected by DB16 (R31, R143). -/
inductive Mode where
  | basic
  | extended
deriving DecidableEq, Repr

/-- Bits 21:0 of an instruction word, its operand specification (R141, R142). The low 16 bits are the displacement `u`
in Basic mode and `b : d` in Extended mode. -/
structure Operand where
  /-- index register number, 0 = no indexing -/
  x : BitVec 4
  /-- index auto-increment -/
  h : Bool
  /-- indirect (Basic mode) -/
  i : Bool
  /-- bits 15:0 -/
  u : BitVec 16
deriving DecidableEq, Repr

/-- The Extended-mode base register selector, bits 15:12 (R142). -/
def Operand.b (o : Operand) : BitVec 4 := o.u.extractLsb' 12 4

/-- The Extended-mode displacement, bits 11:0 (R142). -/
def Operand.d (o : Operand) : BitVec 12 := o.u.extractLsb' 0 12

/-- The instructions, in the order of spec/opcode_table.json. `j` is the partial-word designator (R146), `a` a register
number or an ignored field (R144), `o` the operand specification. -/
inductive Instr where
  /-- SA, store A: R220. -/
  | sa (j a : BitVec 4) (o : Operand)
  /-- SNA, store negative A: R221. -/
  | sna (j a : BitVec 4) (o : Operand)
  /-- SMA, store magnitude A: R222. -/
  | sma (j a : BitVec 4) (o : Operand)
  /-- SR, store R register: R223. -/
  | sr (j a : BitVec 4) (o : Operand)
  /-- SZ, store zero: R225. -/
  | sz (j : BitVec 4) (o : Operand)
  /-- SNZ, store negative zero: R226. -/
  | snz (j : BitVec 4) (o : Operand)
  /-- SP1, store plus one: R227. -/
  | sp1 (j : BitVec 4) (o : Operand)
  /-- SN1, store minus one: R228. -/
  | sn1 (j : BitVec 4) (o : Operand)
  /-- SFS, store Fieldata spaces: R229. -/
  | sfs (j : BitVec 4) (o : Operand)
  /-- SFZ, store Fieldata zeros: R230. -/
  | sfz (j : BitVec 4) (o : Operand)
  /-- SAS, store ASCII spaces: R231. -/
  | sas (j : BitVec 4) (o : Operand)
  /-- SAZ, store ASCII zeros: R232. -/
  | saz (j : BitVec 4) (o : Operand)
  /-- SX, store X register: R224. -/
  | sx (j a : BitVec 4) (o : Operand)
  /-- LAQW, load A quarter word (Extended mode only): R213. -/
  | laqw (a : BitVec 4) (o : Operand)
  /-- SAQW, store A quarter word (Extended mode only): R234. -/
  | saqw (a : BitVec 4) (o : Operand)
  /-- LOCL, local call (Extended mode only): R318. -/
  | locl (o : Operand)
  /-- CALL, call to a named bank (Extended mode only): R317. -/
  | call (o : Operand)
  /-- GOTO, go to a named bank (Extended mode only): R319. -/
  | goto (o : Operand)
  /-- LA, load A: R204. -/
  | la (j a : BitVec 4) (o : Operand)
  /-- LNA, load negative A: R205. -/
  | lna (j a : BitVec 4) (o : Operand)
  /-- LMA, load magnitude A: R206. -/
  | lma (j a : BitVec 4) (o : Operand)
  /-- LNMA, load negative magnitude A: R207. -/
  | lnma (j a : BitVec 4) (o : Operand)
  /-- LR, load R register: R208. -/
  | lr (j a : BitVec 4) (o : Operand)
  /-- LXM, load X modifier: R210. -/
  | lxm (j a : BitVec 4) (o : Operand)
  /-- LX, load X register: R209. -/
  | lx (j a : BitVec 4) (o : Operand)
  /-- OR, logical OR into A(a)+1: R261. -/
  | orA (j a : BitVec 4) (o : Operand)
  /-- XOR, logical exclusive OR into A(a)+1: R262. -/
  | xorA (j a : BitVec 4) (o : Operand)
  /-- AND, logical AND into A(a)+1: R263. -/
  | andA (j a : BitVec 4) (o : Operand)
  /-- MLU, masked logical union into A(a)+1: R264. -/
  | mlu (j a : BitVec 4) (o : Operand)
  /-- LXI, load X increment: R211. -/
  | lxi (j a : BitVec 4) (o : Operand)
  /-- DS, double store A: R233. -/
  | ds (a : BitVec 4) (o : Operand)
  /-- DL, double load A: R212. -/
  | dl (a : BitVec 4) (o : Operand)
  /-- ER, executive request; a is ignored but kept: R341. -/
  | er (a : BitVec 4) (o : Operand)
  /-- SRS, store register set: R235. -/
  | srs (a : BitVec 4) (o : Operand)
  /-- LRS, load register set: R214. -/
  | lrs (a : BitVec 4) (o : Operand)
  /-- SSC, single shift circular (right): R281. -/
  | ssc (a : BitVec 4) (o : Operand)
  /-- DSC, double shift circular (right): R282. -/
  | dsc (a : BitVec 4) (o : Operand)
  /-- SSL, single shift logical (right): R283. -/
  | ssl (a : BitVec 4) (o : Operand)
  /-- DSL, double shift logical (right): R284. -/
  | dsl (a : BitVec 4) (o : Operand)
  /-- SSA, single shift algebraic (right): R285. -/
  | ssa (a : BitVec 4) (o : Operand)
  /-- DSA, double shift algebraic (right): R286. -/
  | dsa (a : BitVec 4) (o : Operand)
  /-- LSC, load shift and count: R291. -/
  | lsc (a : BitVec 4) (o : Operand)
  /-- DLSC, double load shift and count: R292. -/
  | dlsc (a : BitVec 4) (o : Operand)
  /-- LSSC, left single shift circular: R287. -/
  | lssc (a : BitVec 4) (o : Operand)
  /-- LDSC, left double shift circular: R288. -/
  | ldsc (a : BitVec 4) (o : Operand)
  /-- LSSL, left single shift logical: R289. -/
  | lssl (a : BitVec 4) (o : Operand)
  /-- LDSL, left double shift logical: R290. -/
  | ldsl (a : BitVec 4) (o : Operand)
  /-- NOP, no operation (Extended mode only): R350. -/
  | nopE (o : Operand)
  /-- SEND, send an inter-processor signal: R352. -/
  | send (o : Operand)
  /-- SGNL, signal: R342. -/
  | sgnl (o : Operand)
  /-- RTN, return; the address fields are ignored but kept (Extended mode only): R323. -/
  | rtn (o : Operand)
  /-- HALT, halt with a stop detail: R356. -/
  | halt (o : Operand)
  /-- NOP, no operation; a is ignored but kept (Basic mode only): R350. -/
  | nopB (a : BitVec 4) (o : Operand)
  /-- AAIJ, allow interrupts and jump; a is ignored but kept (Basic mode only): R324. -/
  | aaijB (a : BitVec 4) (o : Operand)
  /-- AAIJ, allow interrupts and jump (Extended mode only): R324. -/
  | aaijE (o : Operand)
  /-- PAIJ, prevent interrupts and jump: R325. -/
  | paij (o : Operand)
deriving DecidableEq, Repr

end Sys2Proof
end

