-- ==== Sys2Proof/WellFormed.lean ====
section
/-! DEFINITION. The checks on an instruction as syntax: the modes its row is defined in (R147, R148), its operand form
(R150) and whether it is privileged (R403). The field widths are in the types of `Instr`. -/

namespace Sys2Proof

/-- Whether the instruction's row lists the mode (R143, R147): an instruction outside its modes has no encoding. -/
def Instr.definedIn (m : Mode) : Instr → Bool
  | .sa _ _ _ => true
  | .sna _ _ _ => true
  | .sma _ _ _ => true
  | .sr _ _ _ => true
  | .sz _ _ => true
  | .snz _ _ => true
  | .sp1 _ _ => true
  | .sn1 _ _ => true
  | .sfs _ _ => true
  | .sfz _ _ => true
  | .sas _ _ => true
  | .saz _ _ => true
  | .sx _ _ _ => true
  | .laqw _ _ => m == .extended
  | .saqw _ _ => m == .extended
  | .locl _ => m == .extended
  | .call _ => m == .extended
  | .goto _ => m == .extended
  | .la _ _ _ => true
  | .lna _ _ _ => true
  | .lma _ _ _ => true
  | .lnma _ _ _ => true
  | .lr _ _ _ => true
  | .lxm _ _ _ => true
  | .lx _ _ _ => true
  | .orA _ _ _ => true
  | .xorA _ _ _ => true
  | .andA _ _ _ => true
  | .mlu _ _ _ => true
  | .lxi _ _ _ => true
  | .ds _ _ => true
  | .dl _ _ => true
  | .er _ _ => true
  | .srs _ _ => true
  | .lrs _ _ => true
  | .ssc _ _ => true
  | .dsc _ _ => true
  | .ssl _ _ => true
  | .dsl _ _ => true
  | .ssa _ _ => true
  | .dsa _ _ => true
  | .lsc _ _ => true
  | .dlsc _ _ => true
  | .lssc _ _ => true
  | .ldsc _ _ => true
  | .lssl _ _ => true
  | .ldsl _ _ => true
  | .nopE _ => m == .extended
  | .send _ => true
  | .sgnl _ => true
  | .rtn _ => m == .extended
  | .halt _ => true
  | .nopB _ _ => m == .basic
  | .aaijB _ _ => m == .basic
  | .aaijE _ => m == .extended
  | .paij _ => true

/-- A partial-word designator that names a storage field: every j but 016 (U) and 017 (XU) (R102, R203). -/
def namesStorageField (j : BitVec 4) : Bool := j != 0o16 && j != 0o17

/-- The operand-form checks of R150: a store of R220 to R232 names a storage field (R203), and LAQW and SAQW name an
index register (R213, R234). An instruction that fails its check decodes, and raises class 14 with SSF 2. -/
def Instr.operandFormOk : Instr → Bool
  | .sa j _ _ => namesStorageField j
  | .sna j _ _ => namesStorageField j
  | .sma j _ _ => namesStorageField j
  | .sr j _ _ => namesStorageField j
  | .sz j _ => namesStorageField j
  | .snz j _ => namesStorageField j
  | .sp1 j _ => namesStorageField j
  | .sn1 j _ => namesStorageField j
  | .sfs j _ => namesStorageField j
  | .sfz j _ => namesStorageField j
  | .sas j _ => namesStorageField j
  | .saz j _ => namesStorageField j
  | .sx j _ _ => namesStorageField j
  | .laqw _ o => o.x != 0
  | .saqw _ o => o.x != 0
  | .locl _ => true
  | .call _ => true
  | .goto _ => true
  | .la _ _ _ => true
  | .lna _ _ _ => true
  | .lma _ _ _ => true
  | .lnma _ _ _ => true
  | .lr _ _ _ => true
  | .lxm _ _ _ => true
  | .lx _ _ _ => true
  | .orA _ _ _ => true
  | .xorA _ _ _ => true
  | .andA _ _ _ => true
  | .mlu _ _ _ => true
  | .lxi _ _ _ => true
  | .ds _ _ => true
  | .dl _ _ => true
  | .er _ _ => true
  | .srs _ _ => true
  | .lrs _ _ => true
  | .ssc _ _ => true
  | .dsc _ _ => true
  | .ssl _ _ => true
  | .dsl _ _ => true
  | .ssa _ _ => true
  | .dsa _ _ => true
  | .lsc _ _ => true
  | .dlsc _ _ => true
  | .lssc _ _ => true
  | .ldsc _ _ => true
  | .lssl _ _ => true
  | .ldsl _ _ => true
  | .nopE _ => true
  | .send _ => true
  | .sgnl _ => true
  | .rtn _ => true
  | .halt _ => true
  | .nopB _ _ => true
  | .aaijB _ _ => true
  | .aaijE _ => true
  | .paij _ => true

/-- The instructions that need PP = 0 (R403, R416): AAIJ, PAIJ and HALT. -/
def Instr.privileged : Instr → Bool
  | .sa _ _ _ => false
  | .sna _ _ _ => false
  | .sma _ _ _ => false
  | .sr _ _ _ => false
  | .sz _ _ => false
  | .snz _ _ => false
  | .sp1 _ _ => false
  | .sn1 _ _ => false
  | .sfs _ _ => false
  | .sfz _ _ => false
  | .sas _ _ => false
  | .saz _ _ => false
  | .sx _ _ _ => false
  | .laqw _ _ => false
  | .saqw _ _ => false
  | .locl _ => false
  | .call _ => false
  | .goto _ => false
  | .la _ _ _ => false
  | .lna _ _ _ => false
  | .lma _ _ _ => false
  | .lnma _ _ _ => false
  | .lr _ _ _ => false
  | .lxm _ _ _ => false
  | .lx _ _ _ => false
  | .orA _ _ _ => false
  | .xorA _ _ _ => false
  | .andA _ _ _ => false
  | .mlu _ _ _ => false
  | .lxi _ _ _ => false
  | .ds _ _ => false
  | .dl _ _ => false
  | .er _ _ => false
  | .srs _ _ => false
  | .lrs _ _ => false
  | .ssc _ _ => false
  | .dsc _ _ => false
  | .ssl _ _ => false
  | .dsl _ _ => false
  | .ssa _ _ => false
  | .dsa _ _ => false
  | .lsc _ _ => false
  | .dlsc _ _ => false
  | .lssc _ _ => false
  | .ldsc _ _ => false
  | .lssl _ _ => false
  | .ldsl _ _ => false
  | .nopE _ => false
  | .send _ => false
  | .sgnl _ => false
  | .rtn _ => false
  | .halt _ => true
  | .nopB _ _ => false
  | .aaijB _ _ => true
  | .aaijE _ => true
  | .paij _ => true

/-- A well-formed instruction of a mode: its row is defined there and its operand form is allowed. -/
def Instr.wellFormed (m : Mode) (i : Instr) : Bool := i.definedIn m && i.operandFormOk

end Sys2Proof
end

