-- ==== Sys2Proof/Decode.lean ====
section
/-! DEFINITION. Decoding a word in a mode (R143, R148), the encoder that gives it back, and the opcode map as the spec's
own table of masks and matches (R147). `OPCODE_MAP` is fixed at its default, spec/opcode_table.json (log 17). -/

namespace Sys2Proof

/-- Bits 35:30, the major function code (R141). -/
def fieldF (w : Word) : BitVec 6 := w.extractLsb' 30 6

/-- Bits 29:26, the partial-word designator or a minor function code (R141). -/
def fieldJ (w : Word) : BitVec 4 := w.extractLsb' 26 4

/-- Bits 25:22, a register number or a minor function code (R141). -/
def fieldA (w : Word) : BitVec 4 := w.extractLsb' 22 4

/-- Bits 21:0 as an operand specification. An indirect word's fields stand at the same positions (R98). -/
def operandOf (w : Word) : Operand :=
  { x := w.extractLsb' 18 4, h := w.getLsbD 17, i := w.getLsbD 16, u := w.extractLsb' 0 16 }

/-- The instruction whose function code, fields and mode these are, or none (R147, R149). -/
def decodeFields (m : Mode) (f : BitVec 6) (j a : BitVec 4) (o : Operand) : Option Instr :=
  match f.toNat with
  | 0o01 => some (.sa j a o)
  | 0o02 => some (.sna j a o)
  | 0o03 => some (.sma j a o)
  | 0o04 => some (.sr j a o)
  | 0o05 =>
    match a.toNat with
    | 0o00 => some (.sz j o)
    | 0o01 => some (.snz j o)
    | 0o02 => some (.sp1 j o)
    | 0o03 => some (.sn1 j o)
    | 0o04 => some (.sfs j o)
    | 0o05 => some (.sfz j o)
    | 0o06 => some (.sas j o)
    | 0o07 => some (.saz j o)
    | _ => none
  | 0o06 => some (.sx j a o)
  | 0o07 =>
    match j.toNat with
    | 0o04 => if m = .extended then some (.laqw a o) else none
    | 0o05 => if m = .extended then some (.saqw a o) else none
    | 0o16 =>
      match a.toNat with
      | 0o11 => if m = .extended then some (.locl o) else none
      | 0o13 => if m = .extended then some (.call o) else none
      | _ => none
    | 0o17 =>
      match a.toNat with
      | 0o00 => if m = .extended then some (.goto o) else none
      | _ => none
    | _ => none
  | 0o10 => some (.la j a o)
  | 0o11 => some (.lna j a o)
  | 0o12 => some (.lma j a o)
  | 0o13 => some (.lnma j a o)
  | 0o23 => some (.lr j a o)
  | 0o26 => some (.lxm j a o)
  | 0o27 => some (.lx j a o)
  | 0o40 => some (.orA j a o)
  | 0o41 => some (.xorA j a o)
  | 0o42 => some (.andA j a o)
  | 0o43 => some (.mlu j a o)
  | 0o46 => some (.lxi j a o)
  | 0o71 =>
    match j.toNat with
    | 0o12 => some (.ds a o)
    | 0o13 => some (.dl a o)
    | _ => none
  | 0o72 =>
    match j.toNat with
    | 0o11 => some (.er a o)
    | 0o16 => some (.srs a o)
    | 0o17 => some (.lrs a o)
    | _ => none
  | 0o73 =>
    match j.toNat with
    | 0o00 => some (.ssc a o)
    | 0o01 => some (.dsc a o)
    | 0o02 => some (.ssl a o)
    | 0o03 => some (.dsl a o)
    | 0o04 => some (.ssa a o)
    | 0o05 => some (.dsa a o)
    | 0o06 => some (.lsc a o)
    | 0o07 => some (.dlsc a o)
    | 0o10 => some (.lssc a o)
    | 0o11 => some (.ldsc a o)
    | 0o12 => some (.lssl a o)
    | 0o13 => some (.ldsl a o)
    | 0o14 =>
      match a.toNat with
      | 0o00 => if m = .extended then some (.nopE o) else none
      | _ => none
    | 0o15 =>
      match a.toNat with
      | 0o04 => some (.send o)
      | 0o17 => some (.sgnl o)
      | _ => none
    | 0o17 =>
      match a.toNat with
      | 0o03 => if m = .extended then some (.rtn o) else none
      | 0o06 => some (.halt o)
      | _ => none
    | _ => none
  | 0o74 =>
    match j.toNat with
    | 0o06 => if m = .basic then some (.nopB a o) else none
    | 0o07 => if m = .basic then some (.aaijB a o) else none
    | 0o14 =>
      match a.toNat with
      | 0o06 => if m = .extended then some (.aaijE o) else none
      | 0o07 => some (.paij o)
      | _ => none
    | _ => none
  | _ => none

/-- The instruction a word is in a mode, or none where the word is undefined there (R148, R149). -/
def decode (m : Mode) (w : Word) : Option Instr := decodeFields m (fieldF w) (fieldJ w) (fieldA w) (operandOf w)

/-- `f : j : a : x : h : i : u` (R141; R142 with `u = b : d`). -/
def pack (f : BitVec 6) (j a : BitVec 4) (o : Operand) : Word :=
  (f ++ j ++ a ++ o.x ++ BitVec.ofBool o.h ++ BitVec.ofBool o.i ++ o.u : BitVec (6 + 4 + 4 + 4 + 1 + 1 + 16))

/-- The word of an instruction (R147). -/
def encode : Instr → Word
  | .sa j a o => pack 0o01 j a o
  | .sna j a o => pack 0o02 j a o
  | .sma j a o => pack 0o03 j a o
  | .sr j a o => pack 0o04 j a o
  | .sz j o => pack 0o05 j 0o00 o
  | .snz j o => pack 0o05 j 0o01 o
  | .sp1 j o => pack 0o05 j 0o02 o
  | .sn1 j o => pack 0o05 j 0o03 o
  | .sfs j o => pack 0o05 j 0o04 o
  | .sfz j o => pack 0o05 j 0o05 o
  | .sas j o => pack 0o05 j 0o06 o
  | .saz j o => pack 0o05 j 0o07 o
  | .sx j a o => pack 0o06 j a o
  | .laqw a o => pack 0o07 0o04 a o
  | .saqw a o => pack 0o07 0o05 a o
  | .locl o => pack 0o07 0o16 0o11 o
  | .call o => pack 0o07 0o16 0o13 o
  | .goto o => pack 0o07 0o17 0o00 o
  | .la j a o => pack 0o10 j a o
  | .lna j a o => pack 0o11 j a o
  | .lma j a o => pack 0o12 j a o
  | .lnma j a o => pack 0o13 j a o
  | .lr j a o => pack 0o23 j a o
  | .lxm j a o => pack 0o26 j a o
  | .lx j a o => pack 0o27 j a o
  | .orA j a o => pack 0o40 j a o
  | .xorA j a o => pack 0o41 j a o
  | .andA j a o => pack 0o42 j a o
  | .mlu j a o => pack 0o43 j a o
  | .lxi j a o => pack 0o46 j a o
  | .ds a o => pack 0o71 0o12 a o
  | .dl a o => pack 0o71 0o13 a o
  | .er a o => pack 0o72 0o11 a o
  | .srs a o => pack 0o72 0o16 a o
  | .lrs a o => pack 0o72 0o17 a o
  | .ssc a o => pack 0o73 0o00 a o
  | .dsc a o => pack 0o73 0o01 a o
  | .ssl a o => pack 0o73 0o02 a o
  | .dsl a o => pack 0o73 0o03 a o
  | .ssa a o => pack 0o73 0o04 a o
  | .dsa a o => pack 0o73 0o05 a o
  | .lsc a o => pack 0o73 0o06 a o
  | .dlsc a o => pack 0o73 0o07 a o
  | .lssc a o => pack 0o73 0o10 a o
  | .ldsc a o => pack 0o73 0o11 a o
  | .lssl a o => pack 0o73 0o12 a o
  | .ldsl a o => pack 0o73 0o13 a o
  | .nopE o => pack 0o73 0o14 0o00 o
  | .send o => pack 0o73 0o15 0o04 o
  | .sgnl o => pack 0o73 0o15 0o17 o
  | .rtn o => pack 0o73 0o17 0o03 o
  | .halt o => pack 0o73 0o17 0o06 o
  | .nopB a o => pack 0o74 0o06 a o
  | .aaijB a o => pack 0o74 0o07 a o
  | .aaijE o => pack 0o74 0o14 0o06 o
  | .paij o => pack 0o74 0o14 0o07 o

/-- One row of spec/opcode_table.json: the modes it is defined in, its match and its mask. -/
structure OpcodeRow where
  mnemonic : String
  basic : Bool
  extended : Bool
  pattern : Word
  mask : Word
deriving DecidableEq, Repr

/-- Whether the row lists the mode. -/
def OpcodeRow.inMode (r : OpcodeRow) : Mode → Bool
  | .basic => r.basic
  | .extended => r.extended

/-- `w AND mask = match` in a mode that the row lists (R148). -/
def OpcodeRow.accepts (r : OpcodeRow) (m : Mode) (w : Word) : Bool := r.inMode m && (w &&& r.mask) == r.pattern

/-- The row of spec/opcode_table.json that an instruction stands for, digits as the table has them. -/
def Instr.row : Instr → OpcodeRow
  | .sa _ _ _ => ⟨"SA", true, true, 0o010000000000, 0o770000000000⟩
  | .sna _ _ _ => ⟨"SNA", true, true, 0o020000000000, 0o770000000000⟩
  | .sma _ _ _ => ⟨"SMA", true, true, 0o030000000000, 0o770000000000⟩
  | .sr _ _ _ => ⟨"SR", true, true, 0o040000000000, 0o770000000000⟩
  | .sz _ _ => ⟨"SZ", true, true, 0o050000000000, 0o770360000000⟩
  | .snz _ _ => ⟨"SNZ", true, true, 0o050020000000, 0o770360000000⟩
  | .sp1 _ _ => ⟨"SP1", true, true, 0o050040000000, 0o770360000000⟩
  | .sn1 _ _ => ⟨"SN1", true, true, 0o050060000000, 0o770360000000⟩
  | .sfs _ _ => ⟨"SFS", true, true, 0o050100000000, 0o770360000000⟩
  | .sfz _ _ => ⟨"SFZ", true, true, 0o050120000000, 0o770360000000⟩
  | .sas _ _ => ⟨"SAS", true, true, 0o050140000000, 0o770360000000⟩
  | .saz _ _ => ⟨"SAZ", true, true, 0o050160000000, 0o770360000000⟩
  | .sx _ _ _ => ⟨"SX", true, true, 0o060000000000, 0o770000000000⟩
  | .laqw _ _ => ⟨"LAQW", false, true, 0o072000000000, 0o777400000000⟩
  | .saqw _ _ => ⟨"SAQW", false, true, 0o072400000000, 0o777400000000⟩
  | .locl _ => ⟨"LOCL", false, true, 0o077220000000, 0o777760000000⟩
  | .call _ => ⟨"CALL", false, true, 0o077260000000, 0o777760000000⟩
  | .goto _ => ⟨"GOTO", false, true, 0o077400000000, 0o777760000000⟩
  | .la _ _ _ => ⟨"LA", true, true, 0o100000000000, 0o770000000000⟩
  | .lna _ _ _ => ⟨"LNA", true, true, 0o110000000000, 0o770000000000⟩
  | .lma _ _ _ => ⟨"LMA", true, true, 0o120000000000, 0o770000000000⟩
  | .lnma _ _ _ => ⟨"LNMA", true, true, 0o130000000000, 0o770000000000⟩
  | .lr _ _ _ => ⟨"LR", true, true, 0o230000000000, 0o770000000000⟩
  | .lxm _ _ _ => ⟨"LXM", true, true, 0o260000000000, 0o770000000000⟩
  | .lx _ _ _ => ⟨"LX", true, true, 0o270000000000, 0o770000000000⟩
  | .orA _ _ _ => ⟨"OR", true, true, 0o400000000000, 0o770000000000⟩
  | .xorA _ _ _ => ⟨"XOR", true, true, 0o410000000000, 0o770000000000⟩
  | .andA _ _ _ => ⟨"AND", true, true, 0o420000000000, 0o770000000000⟩
  | .mlu _ _ _ => ⟨"MLU", true, true, 0o430000000000, 0o770000000000⟩
  | .lxi _ _ _ => ⟨"LXI", true, true, 0o460000000000, 0o770000000000⟩
  | .ds _ _ => ⟨"DS", true, true, 0o715000000000, 0o777400000000⟩
  | .dl _ _ => ⟨"DL", true, true, 0o715400000000, 0o777400000000⟩
  | .er _ _ => ⟨"ER", true, true, 0o724400000000, 0o777400000000⟩
  | .srs _ _ => ⟨"SRS", true, true, 0o727000000000, 0o777400000000⟩
  | .lrs _ _ => ⟨"LRS", true, true, 0o727400000000, 0o777400000000⟩
  | .ssc _ _ => ⟨"SSC", true, true, 0o730000000000, 0o777400000000⟩
  | .dsc _ _ => ⟨"DSC", true, true, 0o730400000000, 0o777400000000⟩
  | .ssl _ _ => ⟨"SSL", true, true, 0o731000000000, 0o777400000000⟩
  | .dsl _ _ => ⟨"DSL", true, true, 0o731400000000, 0o777400000000⟩
  | .ssa _ _ => ⟨"SSA", true, true, 0o732000000000, 0o777400000000⟩
  | .dsa _ _ => ⟨"DSA", true, true, 0o732400000000, 0o777400000000⟩
  | .lsc _ _ => ⟨"LSC", true, true, 0o733000000000, 0o777400000000⟩
  | .dlsc _ _ => ⟨"DLSC", true, true, 0o733400000000, 0o777400000000⟩
  | .lssc _ _ => ⟨"LSSC", true, true, 0o734000000000, 0o777400000000⟩
  | .ldsc _ _ => ⟨"LDSC", true, true, 0o734400000000, 0o777400000000⟩
  | .lssl _ _ => ⟨"LSSL", true, true, 0o735000000000, 0o777400000000⟩
  | .ldsl _ _ => ⟨"LDSL", true, true, 0o735400000000, 0o777400000000⟩
  | .nopE _ => ⟨"NOP", false, true, 0o736000000000, 0o777760000000⟩
  | .send _ => ⟨"SEND", true, true, 0o736500000000, 0o777760000000⟩
  | .sgnl _ => ⟨"SGNL", true, true, 0o736760000000, 0o777760000000⟩
  | .rtn _ => ⟨"RTN", false, true, 0o737460000000, 0o777760000000⟩
  | .halt _ => ⟨"HALT", true, true, 0o737540000000, 0o777760000000⟩
  | .nopB _ _ => ⟨"NOP", true, false, 0o743000000000, 0o777400000000⟩
  | .aaijB _ _ => ⟨"AAIJ", true, false, 0o743400000000, 0o777400000000⟩
  | .aaijE _ => ⟨"AAIJ", false, true, 0o746140000000, 0o777760000000⟩
  | .paij _ => ⟨"PAIJ", true, true, 0o746160000000, 0o777760000000⟩

/-- spec/opcode_table.json: its 56 rows, in its order, each taken from a sample instruction of the row. -/
def opcodeTable : List OpcodeRow :=
  let z : Operand := ⟨0, false, false, 0⟩
  ([Instr.sa 0 0 z, .sna 0 0 z, .sma 0 0 z, .sr 0 0 z, .sz 0 z, .snz 0 z, .sp1 0 z, .sn1 0 z, .sfs 0 z, .sfz 0 z, .sas 0 z, .saz 0 z, .sx 0 0 z, .laqw 0 z] ++
   [Instr.saqw 0 z, .locl z, .call z, .goto z, .la 0 0 z, .lna 0 0 z, .lma 0 0 z, .lnma 0 0 z, .lr 0 0 z, .lxm 0 0 z, .lx 0 0 z, .orA 0 0 z, .xorA 0 0 z, .andA 0 0 z] ++
   [Instr.mlu 0 0 z, .lxi 0 0 z, .ds 0 z, .dl 0 z, .er 0 z, .srs 0 z, .lrs 0 z, .ssc 0 z, .dsc 0 z, .ssl 0 z, .dsl 0 z, .ssa 0 z, .dsa 0 z, .lsc 0 z] ++
   [Instr.dlsc 0 z, .lssc 0 z, .ldsc 0 z, .lssl 0 z, .ldsl 0 z, .nopE z, .send z, .sgnl z, .rtn z, .halt z, .nopB 0 z, .aaijB 0 z, .aaijE z, .paij z]).map Instr.row

/-- The instruction the decoder reads from an opcode-table word of `nbits` bits, numbered as the table numbers them:
one 36-bit word with bit 0 the least significant (R10, R140). The word's mode is not in it (R143): a word of both maps
decodes alike in both, so the Extended map is asked first and then the Basic one (log 22). -/
def decodeTableWord (nbits w : Nat) : Option Instr :=
  let word : Word := BitVec.ofNat 36 (w % 2 ^ nbits)
  match decode .extended word with
  | some i => some i
  | none => decode .basic word

end Sys2Proof
end

