-- ==== Sys2Proof/Config.lean ====
section
/-! DEFINITION. What an implementation fixes: the constants of R8 and the parameters that R8 leaves to the model's
user. The parameters are one record, `Params`, that `State` carries unchanged, so that every statement about all
states is a statement about every choice of them (assumption log 5). -/

namespace Sys2Proof

/-- `EXT_BASE_SELECT` of R8: how Extended mode forms the base register number (R105). -/
inductive ExtBaseSelect where
  /-- the source's reading, the default: `b + 16` when DB17 = 1 -/
  | db17
  /-- the alternative: `b + 16` when the i bit is 1 and PP < 2 -/
  | iAndPp
deriving DecidableEq, Repr

/-- `UPI_ABSENT_TARGET` of R8: what SEND does when no processor has the target index (R352). -/
inductive AbsentTarget where
  /-- the default: SEND completes with no further effect -/
  | ignore
  /-- SEND is abandoned with class 14, SSF 2 -/
  | fault
deriving DecidableEq, Repr

/-- The parameters of R8 that a processor is created with. -/
structure Params where
  /-- `MEM_SIZE`, words of absolute storage: OPEN in R8, and not 0, since the base of a descriptor is less than it (R35).
  DESIGN CHOICE: 2^24 (log 5). -/
  memSize : Nat := 16777216
  /-- `MAX_INDIRECT`, the indirection chain depth, default 64 (R8, R98). -/
  maxIndirect : Nat := 64
  /-- `INT_BANK_NAME`, the bank name that interrupt entry puts into PAR, default 000020 (R8, R410). -/
  intBankName : BankName := 0o000020
  /-- `EXT_BASE_SELECT`, default `DB17` (R8, R105). -/
  extBaseSelect : ExtBaseSelect := .db17
  /-- `UPI_INDEX`, this processor's identity, supplied at creation (R8, R45). DESIGN CHOICE: 0 (log 5). -/
  upiIndex : UpiIndex := 0
  /-- `UPI_ABSENT_TARGET`, default `ignore` (R8, R352). -/
  upiAbsentTarget : AbsentTarget := .ignore
deriving DecidableEq, Repr

/-- `RCS_PTR` of R8: EX0, GRS 0140, whose modifier half is the Return Control Stack pointer (R310). -/
def Config.rcsPointer : GrsIndex := 0o140

/-- `RCS_BR` of R8: the base register of the Return Control Stack (R310). -/
def Config.rcsBase : BaseIndex := 25

/-- `INT_BR` of R8: the base register that describes the interrupt-handling bank (R410). -/
def Config.interruptBase : BaseIndex := 16

/-- `GRS_WINDOW` of R8: relative addresses 0 to 0177 of an operand reach the GRS (R96). -/
def Config.grsWindowTop : Nat := 0o177

/-- The lowest GRS index that PP 2 and 3 may not reach through the window, LRS or SRS (R97). -/
def Config.firstProtectedGrs : Nat := 0o120

end Sys2Proof
end

