-- ==== Sys2Proof/Machine/State.lean ====
section
/-! DEFINITION. The state of one Instruction Processor (R20) with the storage it shares (R80) and the PENDING sets of
the other processors (R421), as plain data; the reasons a step can stop; and the state after reset (R47). -/

namespace Sys2Proof.Machine

/-- A ring and a domain: an accessor's key (R39) or a descriptor's lock (R35). -/
structure RingDomain where
  ring : BitVec 2
  domain : BitVec 16
deriving DecidableEq, Repr

/-- A set of permissions drawn from execute, read and write (R35). -/
structure Permissions where
  execute : Bool
  read : Bool
  write : Bool
deriving DecidableEq, Repr

/-- A base register descriptor (R35). A void descriptor describes no storage, whatever its other fields hold (R36). -/
structure Descriptor where
  isVoid : Bool
  /-- absolute word address of the bank's first word, a natural number less than MEM_SIZE (R35): `Descriptor.valid` -/
  base : Nat
  /-- lowest relative address of the bank -/
  lower : RelAddr
  /-- highest relative address of the bank -/
  upper : RelAddr
  lock : RingDomain
  /-- general access permissions -/
  gap : Permissions
  /-- special access permissions -/
  sap : Permissions
deriving DecidableEq, Repr

/-- The void descriptor of a base register that no load has set (R38). -/
def Descriptor.void : Descriptor :=
  { isVoid := true, base := 0, lower := 0, upper := 0, lock := ⟨0, 0⟩,
    gap := ⟨false, false, false⟩, sap := ⟨false, false, false⟩ }

/-- The program address register: the bank name in bits 35:18 and the PC in bits 17:0 (R28). -/
structure ProgramAddress where
  bank : BankName
  pc : RelAddr
deriving DecidableEq, Repr

/-- What a rule's `raise Interrupt(class, ssf, isw0, isw1)` names (R13). -/
structure Cause where
  cls : BitVec 5
  ssf : BitVec 6
  isw0 : Word
  isw1 : Word
deriving DecidableEq, Repr

/-- An interrupt request (R40, R401): a cause, whether it is deferrable, and its arrival number. -/
structure InterruptRequest where
  cause : Cause
  deferrable : Bool
  seq : Nat
deriving DecidableEq, Repr

/-- A processor's PENDING set (R40), in order of arrival, and the next arrival number to be assigned (R401). -/
structure PendingSet where
  requests : List InterruptRequest
  nextSeq : Nat
deriving DecidableEq, Repr

/-- The dedicated save area that interrupt entry writes (R41, R410). -/
structure SaveArea where
  par : ProgramAddress
  dr : Word
  b0 : Descriptor
  request : InterruptRequest
deriving DecidableEq, Repr

/-- `RUN` (R44). -/
inductive RunState where
  | idle
  | running
  | halted
deriving DecidableEq, Repr

/-- `latestStopReason` (R44). -/
inductive StopReason where
  | none
  | debug
  | halt
  | interruptEntryFault
deriving DecidableEq, Repr

/-- Another processor of the system, by what this one can change in it: its PENDING set (R420, R421). -/
structure Peer where
  index : UpiIndex
  pending : PendingSet
deriving DecidableEq, Repr

/-- Absolute storage: (word address, word) pairs, addresses strictly rising, no entry equal to what an unlisted address
reads as. The addressable unit is the 36-bit word (R80, R82; log 1). -/
abbrev Memory := List (Nat × Word)

/-- The state of the machine. -/
structure State where
  /-- the General Register Set (R21) -/
  grs : Vector Word 128
  /-- the base registers (R35) -/
  b : Vector Descriptor 32
  /-- the designator register (R31) -/
  dr : Word
  /-- the program address register (R28) -/
  par : ProgramAddress
  /-- the access key (R39) -/
  key : RingDomain
  /-- the interrupt pending set (R40) -/
  pending : PendingSet
  /-- the interrupt save area, none when empty (R41) -/
  save : Option SaveArea
  /-- the most recently dispatched request (R42) -/
  lastInterrupt : Option InterruptRequest
  /-- set by interrupt entry, cleared by the next successful fetch (R43) -/
  entry : Bool
  /-- the run state (R44) -/
  run : RunState
  /-- latestStopReason (R44) -/
  stopReason : StopReason
  /-- latestStopDetail (R44) -/
  stopDetail : BitVec 18
  /-- absolute storage (R80) -/
  mem : Memory
  /-- the bank descriptor table (R316) -/
  bdt : List (BankName × Descriptor)
  /-- the other processors of PROCESSORS, each with its own index (R421; log 8) -/
  peers : List Peer
  /-- the parameters of R8, which nothing changes (log 5) -/
  params : Params
deriving DecidableEq, Repr

/-- Why a step stops with a fault. Every fault of the spec is an interrupt request and a next state (R400), so the one
reason is the model's own. -/
inductive Fault where
  /-- Raised by a storage access at an absolute address of MEM_SIZE or above, which does not exist (R80). No descriptor
  that satisfies R36 leads there. Safe: the machine stops where the spec gives nothing (log 9). -/
  | absentStorage (address : Nat)
deriving DecidableEq, Repr

/-- Why a step has no meaning. -/
inductive Refusal where
  /-- Raised by an arm of `exec` whose instruction is not modelled; no arm is. Safe. -/
  | notModelled (mnemonic : String)
deriving DecidableEq, Repr

/-- The other processors of PROCESSORS, a set of distinct indices (R8, R421): neither repeats in the list that gives it
nor the processor's own index count. -/
def otherProcessors (own : UpiIndex) (processors : List UpiIndex) : List UpiIndex :=
  processors.dedup.filter fun i => i != own

/-- A processor just created with its parameters and the indices of PROCESSORS (R47, R421, R470), and with any contents
`g` of the General Register Set, which the spec leaves an arbitrary draw (R27). PAR, which is unspecified until a load,
is 0 (log 4). -/
def State.created (g : Vector Word 128) (params : Params) (processors : List UpiIndex) : State :=
  { grs := g
    b := Vector.replicate 32 Descriptor.void
    dr := 0
    par := ⟨0, 0⟩
    key := ⟨0, 0⟩
    pending := ⟨[], 0⟩
    save := none
    lastInterrupt := none
    entry := false
    run := .idle
    stopReason := .none
    stopDetail := 0
    mem := []
    bdt := []
    peers := (otherProcessors params.upiIndex processors).map fun i => ⟨i, ⟨[], 0⟩⟩
    params := params }

/-- The machine right after reset: a processor created with the default parameters and no other processor (log 5),
whose General Register Set holds zeros. DESIGN CHOICE: the zeros are the model's (log 3). -/
def State.reset : State := State.created (Vector.replicate 128 0) {} []

end Sys2Proof.Machine
end

