-- ==== Sys2Proof/Machine/Flags.lean ====
section
/-! DEFINITION. The designator register's fields and the values that instructions and interrupt entry give it
(R31 to R34). The spec has no condition codes: no instruction computes carry, overflow or any other flag (R34). -/

namespace Sys2Proof.Machine

/-- `DBn`, pseudocode bit `35 - n` (R10). -/
def designatorBit (dr : Word) (n : Nat) : Bool := dr.getLsbD (35 - n)

/-- `dr` with `DBn` set to `v` and every other bit kept. -/
def withDesignatorBit (dr : Word) (n : Nat) (v : Bool) : Word :=
  let bit : Word := BitVec.twoPow 36 (35 - n)
  if v then dr ||| bit else dr &&& ~~~bit

/-- PP, DB14-DB15 (R33). -/
def designatorPP (dr : Word) : BitVec 2 := dr.extractLsb' 20 2

/-- The mode that DB16 selects (R31, R143). -/
def designatorMode (dr : Word) : Mode := if designatorBit dr 16 then .basic else .extended

/-- DB12 to DB17, the designator bits an RCS frame holds (R311). -/
def frameDesignators : Word := 0o000077000000

/-- Word 1 of an RCS frame: DB12 to DB17 of the caller, every other bit 0 (R311). -/
def savedDesignators (dr : Word) : Word := dr &&& frameDesignators

/-- RTN's DR: DB12 to DB17 from the frame, every other bit unchanged (R323). -/
def restoredDesignators (dr frame : Word) : Word := (dr &&& ~~~frameDesignators) ||| (frame &&& frameDesignators)

/-- Interrupt entry's DR: DB13 = 0, PP = 0, DB16 = 0, DB17 = 1, every other bit unchanged (R410). -/
def entryDesignators (dr : Word) : Word :=
  let dr := withDesignatorBit dr 13 false
  let dr := withDesignatorBit dr 14 false
  let dr := withDesignatorBit dr 15 false
  let dr := withDesignatorBit dr 16 false
  withDesignatorBit dr 17 true

/-- DB13: deferrable interrupts are enabled (R31). -/
def State.deferrableEnabled (s : State) : Bool := designatorBit s.dr 13

/-- The processor privilege, 0 the most privileged (R33). -/
def State.pp (s : State) : BitVec 2 := designatorPP s.dr

/-- The addressing mode (R31). -/
def State.mode (s : State) : Mode := designatorMode s.dr

/-- DB17: the exec register set is selected (R31). -/
def State.execSet (s : State) : Bool := designatorBit s.dr 17

/-- DB31: the Basic-mode search begins with B14 (R104). -/
def State.alternateOrder (s : State) : Bool := designatorBit s.dr 31

/-- DB32: quarter-word mode (R100). -/
def State.quarterMode (s : State) : Bool := designatorBit s.dr 32

end Sys2Proof.Machine
end

