-- ==== Sys2Proof/Machine/Ops.lean ====
section
/-! DEFINITION. The shared operations over storage, registers and the interrupt state: reading and writing words, the
register aliases, raising and entering an interrupt, the Return Control Stack, bank lookup and signal delivery. -/

namespace Sys2Proof.Machine

/-! ## An instruction's attempt -/

/-- Why an instruction's tentative execution ends without a commit (R160). -/
inductive Abort where
  /-- `raise Interrupt(class, ssf, isw0, isw1)` (R13) -/
  | interrupt (c : Cause)
  /-- an access to storage that does not exist (log 9) -/
  | absentStorage (address : Nat)
deriving DecidableEq, Repr

/-- A computation over the tentative state that may be abandoned (R160). -/
abbrev Attempt := Except Abort

/-! ## Storage -/

/-- What an unlisted word of storage reads as. The spec allows any value (I6). DESIGN CHOICE: 0 (log 2). -/
def unlistedWord : Word := 0

/-- The word at an absolute address (R80). -/
def Memory.read : Memory → Nat → Word
  | [], _ => unlistedWord
  | (b, w) :: m, a => if a = b then w else Memory.read m a

/-- Storage with one word replaced, in canonical form again (R80). -/
def Memory.write : Memory → Nat → Word → Memory
  | [], a, v => if v = unlistedWord then [] else [(a, v)]
  | (b, w) :: m, a, v =>
    if a < b then (if v = unlistedWord then (b, w) :: m else (a, v) :: (b, w) :: m)
    else if a = b then (if v = unlistedWord then m else (a, v) :: m)
    else (b, w) :: Memory.write m a v

/-- The canonical form: addresses at least `floor` and strictly rising, and no entry that an unlisted address would
read as. -/
def Memory.canonicalFrom (floor : Nat) : Memory → Bool
  | [] => true
  | (a, w) :: m => decide (floor ≤ a) && (w != unlistedWord) && Memory.canonicalFrom (a + 1) m

/-- The canonical form of storage. -/
def Memory.wf (m : Memory) : Bool := Memory.canonicalFrom 0 m

/-- Storage with the given words written from an absolute address on. -/
def Memory.writeAll (m : Memory) (a : Nat) : List Word → Memory
  | [] => m
  | w :: ws => Memory.writeAll (m.write a w) (a + 1) ws

/-- `MemRead(abs, 1)` (R80); an address of MEM_SIZE or above does not exist (log 9). -/
def State.memRead (s : State) (a : Nat) : Attempt Word :=
  if a < s.params.memSize then .ok (s.mem.read a) else .error (.absentStorage a)

/-- `MemWrite(abs, 1, v)` (R80); an address of MEM_SIZE or above does not exist (log 9). -/
def State.memWrite (s : State) (a : Nat) (v : Word) : Attempt State :=
  if a < s.params.memSize then .ok { s with mem := s.mem.write a v } else .error (.absentStorage a)

/-! ## Registers -/

/-- `GRS[i]` (R13). -/
def State.reg (s : State) (i : GrsIndex) : Word := s.grs[i.toNat]'(by have := i.isLt; omega)

/-- `GRS[i] <- v` (R13). -/
def State.setReg (s : State) (i : GrsIndex) (v : Word) : State :=
  { s with grs := s.grs.set i.toNat v (by have := i.isLt; omega) }

/-- `X(n)`: the user or the exec index register (R23). -/
def State.xIndex (s : State) (n : BitVec 4) : GrsIndex := (if s.execSet then 96 else 0) + n.setWidth 7

/-- `A(n)`: the user or the exec accumulator (R23). Its successors are taken modulo 128 by the addition of
`GrsIndex`. -/
def State.aIndex (s : State) (n : BitVec 4) : GrsIndex := (if s.execSet then 108 else 12) + n.setWidth 7

/-- `R(n)`: the user or the exec R register (R23). -/
def State.rIndex (s : State) (n : BitVec 4) : GrsIndex := (if s.execSet then 80 else 64) + n.setWidth 7

/-- `GRS[i][17:0] <- v`, bits 35:18 kept (R93, R312). -/
def State.setRegLow (s : State) (i : GrsIndex) (v : RelAddr) : State :=
  s.setReg i (Word.ofHalves (s.reg i).high v)

/-- `B[k]` (R13). -/
def State.base (s : State) (k : BaseIndex) : Descriptor := s.b[k.toNat]'(by have := k.isLt; omega)

/-- `B[k] <- d`. -/
def State.setBase (s : State) (k : BaseIndex) (d : Descriptor) : State :=
  { s with b := s.b.set k.toNat d (by have := k.isLt; omega) }

/-- `PAR.PC <- (PAR.PC + 1) mod 2^18` (R29). -/
def State.advance (s : State) : State := { s with par := { s.par with pc := s.par.pc + 1 } }

/-- `pc <- target` (R13): `PAR.BANK` is kept. -/
def State.jump (s : State) (target : RelAddr) : State := { s with par := { s.par with pc := target } }

/-! ## Raising an interrupt -/

/-- The deferrable flag of a class: only class 31 is deferrable (R403). -/
def deferrableClass (cls : BitVec 5) : Bool := cls == 31

/-- The request that a cause becomes when it enters a PENDING set: the flag of its class and the next arrival number
(R401). -/
def PendingSet.request (p : PendingSet) (c : Cause) : InterruptRequest :=
  { cause := c, deferrable := deferrableClass c.cls, seq := p.nextSeq }

/-- A PENDING set with one more request (R404, R420). -/
def PendingSet.enqueue (p : PendingSet) (c : Cause) : PendingSet :=
  { requests := p.requests ++ [p.request c], nextSeq := p.nextSeq + 1 }

/-- The processor's own PENDING gains a request (R404). -/
def State.enqueue (s : State) (c : Cause) : State := { s with pending := s.pending.enqueue c }

/-- TAKING AN EXCEPTION, first half, and the end of every instruction (R160, R162, R404): an instruction that
completes commits its tentative state; one that raises leaves the state as it was but for the request added to
PENDING. -/
def conclude (s : State) : Attempt State → Host.Outcome State Fault Refusal
  | .ok t => .next t
  | .error (.interrupt c) => .next (s.enqueue c)
  | .error (.absentStorage a) => .fault (.absentStorage a)

/-- `ReferenceViolation`, class 8 (R403). -/
def referenceViolation (ssf : BitVec 6) (isw0 isw1 : Word) : Cause := ⟨8, ssf, isw0, isw1⟩

/-- `AddressingException`, class 9: a bank name that the BDT does not hold (R403). -/
def addressingException (name : BankName) : Cause := ⟨9, 0, zext36 name, 0⟩

/-- `RCS`, class 11: SSF 0 overflow, SSF 1 underflow, with the pointer in ISW0 (R403). -/
def rcsFault (ssf : BitVec 6) (p : RelAddr) : Cause := ⟨11, ssf, zext36 p, 0⟩

/-- `Signal`, class 12: SSF 0 from ER, SSF 1 from SGNL (R403). -/
def signal (ssf : BitVec 6) (u : RelAddr) : Cause := ⟨12, ssf, zext36 u, 0⟩

/-- `InvalidInstruction`, class 14, with the instruction word in ISW0 (R403). -/
def invalidInstruction (ssf : BitVec 6) (iw : Word) : Cause := ⟨14, ssf, iw, 0⟩

/-- `UPI`, class 31, with the sender's index in ISW0 (R403). -/
def upiSignal (sender : UpiIndex) : Cause := ⟨31, 0, zext36 sender, 0⟩

/-- The privilege check of R161 step 4: PP != 0 raises class 14, SSF 1. -/
def requirePrivilege (iw : Word) (s : State) : Attempt Unit :=
  if s.pp = 0 then .ok () else .error (.interrupt (invalidInstruction 1 iw))

/-! ## Dispatching and entering an interrupt -/

/-- A request is eligible if it is not deferrable, or if deferrable interrupts are enabled (R406). -/
def State.eligible (s : State) (q : InterruptRequest) : Bool := !q.deferrable || s.deferrableEnabled

/-- `p` goes before `q`: a lower class number, or the same class and an earlier arrival (R406). -/
def InterruptRequest.before (p q : InterruptRequest) : Bool :=
  decide (p.cause.cls.toNat < q.cause.cls.toNat) ||
    (p.cause.cls == q.cause.cls && decide (p.seq < q.seq))

/-- The request of a list that goes before every other one, the first of those that tie. -/
def firstRequest : List InterruptRequest → Option InterruptRequest
  | [] => none
  | q :: qs =>
    match firstRequest qs with
    | none => some q
    | some p => if p.before q then some p else some q

/-- The request that the boundary dispatches, if any is eligible (R406). -/
def State.selected (s : State) : Option InterruptRequest := firstRequest (s.pending.requests.filter s.eligible)

/-- PENDING without a request, which its dispatch removes (R406). -/
def State.withoutRequest (s : State) (q : InterruptRequest) : State :=
  { s with pending := { s.pending with requests := s.pending.requests.erase q } }

/-- TAKING AN EXCEPTION, second half: interrupt entry of request `q` (R410). SAVE receives PAR, DR, B0 and the request;
the processor goes to PP 0, Extended mode and the exec register set with deferrable interrupts held; B0 becomes the
interrupt bank and PAR the class's word in it. The spec has no return from interrupt (R414): nothing restores SAVE. -/
def State.enter (s : State) (q : InterruptRequest) : State :=
  { s with
    save := some ⟨s.par, s.dr, s.base 0, q⟩
    lastInterrupt := some q
    dr := entryDesignators s.dr
    b := s.b.set 0 (s.base Config.interruptBase)
    par := ⟨s.params.intBankName, q.cause.cls.setWidth 18⟩
    entry := true }

/-- Dispatch: the request leaves PENDING and is entered (R406). -/
def State.dispatch (s : State) (q : InterruptRequest) : State := (s.withoutRequest q).enter q

/-- The processor halts with a reason and a detail (R44). -/
def State.stop (s : State) (reason : StopReason) (detail : BitVec 18) : State :=
  { s with run := .halted, stopReason := reason, stopDetail := detail }

/-- The class being entered, which the stop detail of a fault on the handler's first fetch reports (R413). SAVE is
never empty while ENTRY is 1; for the states that no run reaches the detail is 0 (log 16). -/
def State.enteredClass (s : State) : BitVec 18 :=
  match s.save with
  | some a => a.request.cause.cls.setWidth 18
  | none => 0

/-! ## Banks and the Return Control Stack -/

/-- The first descriptor that a table lists for a name. -/
def findBank (name : BankName) : List (BankName × Descriptor) → Option Descriptor
  | [] => none
  | (n, d) :: rest => if n = name then some d else findBank name rest

/-- `Lookup(name)`: the bank's descriptor, or class 9 (R316). -/
def State.lookup (s : State) (name : BankName) : Attempt Descriptor :=
  match findBank name s.bdt with
  | some d => .ok d
  | none => .error (.interrupt (addressingException name))

/-- The absolute address of a relative address, given as a number, in a bank (R106). -/
def Descriptor.translate (d : Descriptor) (u : Nat) : Nat := d.base + (u - d.lower.toNat)

/-- The Return Control Stack pointer, EX0's modifier, whatever DB17 is (R310). -/
def State.rcsPointer (s : State) : RelAddr := (s.reg Config.rcsPointer).low

/-- The RCS frame of a call: word 0 the return bank and offset, word 1 DB12 to DB17 (R311). -/
def State.frame (s : State) : Word × Word :=
  (Word.ofHalves s.par.bank (s.par.pc + 1), savedDesignators s.dr)

/-- The condition under which `Push` does not overflow (R312). -/
def State.canPush (s : State) : Bool :=
  let d := s.base Config.rcsBase
  let p := s.rcsPointer.toNat
  !d.isVoid && decide (d.lower.toNat + 2 ≤ p) && decide (p ≤ d.upper.toNat + 1)

/-- `Push(frame)`, with no lock test (R310, R312). -/
def State.push (s : State) (w : Word × Word) : Attempt State :=
  if s.canPush then do
    let d := s.base Config.rcsBase
    let p := s.rcsPointer
    let t ← s.memWrite (d.translate (p.toNat - 2)) w.1
    let t ← t.memWrite (d.translate (p.toNat - 1)) w.2
    .ok (t.setRegLow Config.rcsPointer (p - 2))
  else .error (.interrupt (rcsFault 0 s.rcsPointer))

/-- The condition under which `Pop` does not underflow (R313). `p <= upper - 1` is taken in integers (log 15). -/
def State.canPop (s : State) : Bool :=
  let d := s.base Config.rcsBase
  let p := s.rcsPointer.toNat
  !d.isVoid && decide (d.lower.toNat ≤ p) && decide (p + 1 ≤ d.upper.toNat)

/-- `Pop()`, with no lock test (R310, R313). A new pointer of 2^18 is stored in its 18 bits as 0 (log 15). -/
def State.pop (s : State) : Attempt ((Word × Word) × State) :=
  if s.canPop then do
    let d := s.base Config.rcsBase
    let p := s.rcsPointer
    let w0 ← s.memRead (d.translate p.toNat)
    let w1 ← s.memRead (d.translate (p.toNat + 1))
    .ok ((w0, w1), s.setRegLow Config.rcsPointer (p + 2))
  else .error (.interrupt (rcsFault 1 s.rcsPointer))

/-- Control goes to `name : off` in the bank of descriptor `d`: B0 and PAR (R317, R319, R323). -/
def State.transfer (s : State) (d : Descriptor) (name : BankName) (off : RelAddr) : State :=
  { s.setBase 0 d with par := ⟨name, off⟩ }

/-! ## Signals between processors -/

/-- Whether the index is in PROCESSORS: this processor's or another's (R421). -/
def State.isProcessor (s : State) (t : UpiIndex) : Bool :=
  t == s.params.upiIndex || s.peers.any fun p => p.index == t

/-- `Deliver(t, q)` to another processor: its PENDING gains the request with its own next `seq` (R420). -/
def State.deliver (s : State) (t : UpiIndex) (c : Cause) : State :=
  { s with peers := s.peers.map fun p => if p.index = t then { p with pending := p.pending.enqueue c } else p }

end Sys2Proof.Machine
end

