-- ==== Sys2Proof/Machine/Operands.lean ====
section
/-! DEFINITION. Operands: the 18-bit adder (R86), the partial-word codec (R100 to R103) and the effective-address
resolver (R90 to R99, R104 to R109, R113, R114). Everything works on the tentative state (R160): a resolution answers
with the state that its index increments leave. -/

namespace Sys2Proof.Machine

/-! ## The ones'-complement adder -/

/-- `add18(a, b)` (R86). -/
def add18 (a b : RelAddr) : RelAddr :=
  let t := a.toNat + b.toNat
  let t := if 2 ^ 18 ≤ t then t - 2 ^ 18 + 1 else t
  if t = 0o777777 ∧ ¬(a = 0o777777 ∧ b = 0o777777) then 0 else BitVec.ofNat 18 t

/-! ## The partial-word codec -/

/-- The storage fields of a word, without the immediates U and XU (R100). -/
inductive WordField where
  | w | h1 | h2 | xh1 | xh2
  | q1 | q2 | q3 | q4
  | t1 | t2 | t3
  | s1 | s2 | s3 | s4 | s5 | s6
deriving DecidableEq, Repr

/-- The lowest bit of a field (R100). -/
def WordField.lo : WordField → Nat
  | .w => 0 | .h1 => 18 | .h2 => 0 | .xh1 => 18 | .xh2 => 0
  | .q1 => 27 | .q2 => 18 | .q3 => 9 | .q4 => 0
  | .t1 => 24 | .t2 => 12 | .t3 => 0
  | .s1 => 30 | .s2 => 24 | .s3 => 18 | .s4 => 12 | .s5 => 6 | .s6 => 0

/-- The width of a field (R100). -/
def WordField.width : WordField → Nat
  | .w => 36 | .h1 => 18 | .h2 => 18 | .xh1 => 18 | .xh2 => 18
  | .q1 => 9 | .q2 => 9 | .q3 => 9 | .q4 => 9
  | .t1 => 12 | .t2 => 12 | .t3 => 12
  | .s1 => 6 | .s2 => 6 | .s3 => 6 | .s4 => 6 | .s5 => 6 | .s6 => 6

/-- Whether a load of the field copies its high bit upwards (R100). -/
def WordField.signed : WordField → Bool
  | .xh1 => true | .xh2 => true | .t1 => true | .t2 => true | .t3 => true
  | _ => false

/-- The field that a j selects under DB32 (R100). U and XU name no storage field (R102), and no rule asks for their
field: the answer for them is W and is never used. -/
def wordField (j : BitVec 4) (quarter : Bool) : WordField :=
  match j.toNat with
  | 0o00 => .w
  | 0o01 => .h2
  | 0o02 => .h1
  | 0o03 => .xh2
  | 0o04 => if quarter then .q2 else .xh1
  | 0o05 => if quarter then .q4 else .t3
  | 0o06 => if quarter then .q3 else .t2
  | 0o07 => if quarter then .q1 else .t1
  | 0o10 => .s6
  | 0o11 => .s5
  | 0o12 => .s4
  | 0o13 => .s3
  | 0o14 => .s2
  | 0o15 => .s1
  | _ => .w

/-- `extractField(w, d)`: the field, zero- or sign-extended, with no normalisation of -0 (R101). -/
def extractField (w : Word) (d : WordField) : Word :=
  let f := w.extractLsb' d.lo d.width
  if d.signed then f.signExtend 36 else f.setWidth 36

/-- The bits of a word that a field holds. -/
def WordField.mask (d : WordField) : Word := BitVec.ofNat 36 ((2 ^ d.width - 1) * 2 ^ d.lo)

/-- `insertField(w, d, v)`: the low bits of `v` replace the field, every other bit of `w` is kept (R102). -/
def insertField (w : Word) (d : WordField) (v : Word) : Word := (w &&& ~~~d.mask) ||| ((v <<< d.lo) &&& d.mask)

/-- The quarter that LAQW and SAQW select by bits 31:30 of X(x) (R213, R234). -/
def quarterField (xw : Word) : WordField :=
  match (xw.extractLsb' 30 2).toNat with
  | 0 => .q1
  | 1 => .q2
  | 2 => .q3
  | _ => .q4

/-! ## Indexing -/

/-- The address that a displacement and an index register form, with the register's increment if `h` asks for it
(R91, R93, R94). X0 never indexes. -/
def index (x : BitVec 4) (h : Bool) (displacement : RelAddr) (s : State) : RelAddr × State :=
  if x = 0 then (displacement, s)
  else
    let i := s.xIndex x
    let w := s.reg i
    (add18 displacement w.low, if h then s.setRegLow i (add18 w.low w.high) else s)

/-- The immediate operand of j = 016 (U) or 017 (XU) (R103). -/
def immediate (j : BitVec 4) (o : Operand) (s : State) : Word × State :=
  let low18 : RelAddr := (BitVec.ofBool o.h ++ BitVec.ofBool o.i ++ o.u : BitVec (1 + 1 + 16))
  let (v, t) := if o.x = 0 then (low18, s) else index o.x o.h (o.u.setWidth 18) s
  (if j = 0o16 then zext36 v else if v = 0o777777 then 0 else v.signExtend 36, t)

/-! ## References -/

/-- What a reference will do, for its lock test: `Read`, `Write` or `Check` of R90. Kinds `Jump` and `Value` make no
reference (R95). -/
inductive Access where
  | read
  | write
  | check
deriving DecidableEq, Repr

/-- Where a resolved operand is: `Grs(index)` or `Mem(k, U)` (R90). -/
inductive Ref where
  | grs (i : GrsIndex)
  | mem (k : BaseIndex) (u : RelAddr)
deriving DecidableEq, Repr

/-- The GRS indices of `n` registers from `start` on, modulo 128 (R96, R214). -/
def grsRange (start : GrsIndex) (n : Nat) : List GrsIndex := (List.range n).map fun k => start + BitVec.ofNat 7 k

/-- The first of some GRS indices, in the order of the list, that the privilege level may not reach: 0120 to 0177 at
PP 2 and 3 (R97). That the first is the one reported is the model's: DEDUCED for a reference of several words, since R97
speaks of one index, and a DESIGN CHOICE for LRS and SRS, since R214 and R235 say only 'that index' of some (log 14). -/
def State.firstForbidden (s : State) (is : List GrsIndex) : Option GrsIndex :=
  if 2 ≤ s.pp.toNat then is.find? fun i => decide (Config.firstProtectedGrs ≤ i.toNat) else none

/-- The GRS privilege test (R97): SSF 5 with the index in ISW0. Every register of a reference is tested (log 14). -/
def State.grsPrivilege (s : State) (is : List GrsIndex) : Attempt Unit :=
  match s.firstForbidden is with
  | none => .ok ()
  | some i => .error (.interrupt (referenceViolation 5 (i.setWidth 36) 0))

/-- Whether a register describes the address: it is not void and `lower <= U <= upper` (R104, R107). -/
def Descriptor.covers (d : Descriptor) (u : RelAddr) : Bool :=
  !d.isVoid && decide (d.lower.toNat ≤ u.toNat) && decide (u.toNat ≤ d.upper.toNat)

/-- The order of the Basic-mode search (R104). -/
def State.basicOrder (s : State) : List BaseIndex := if s.alternateOrder then [14, 12, 15, 13] else [12, 14, 13, 15]

/-- The Basic-mode base register for an address, or none (R104). -/
def State.basicBase (s : State) (u : RelAddr) : Option BaseIndex := s.basicOrder.find? fun k => (s.base k).covers u

/-- The Extended-mode base register number (R105). -/
def State.extendedBase (s : State) (o : Operand) : BaseIndex :=
  let exec := match s.params.extBaseSelect with
    | .db17 => s.execSet
    | .iAndPp => o.i && decide (s.pp.toNat < 2)
  o.b.setWidth 5 + if exec then 16 else 0

/-- The base register of a storage reference at `u` (R104, R105). -/
def State.selectBase (s : State) (o : Operand) (u : RelAddr) : Option BaseIndex :=
  match s.mode with
  | .basic => s.basicBase u
  | .extended => some (s.extendedBase o)

/-- The first of the `n` addresses from `u` on, `n` at least 1, that fails the limit test (R107, R109). Addresses are
plain numbers, so one above 0777777 fails. -/
def Descriptor.limitFailure (d : Descriptor) (u : RelAddr) (n : Nat) : Option Nat :=
  if !d.covers u then some u.toNat
  else if d.upper.toNat < u.toNat + n - 1 then some (d.upper.toNat + 1)
  else none

/-- The permissions that the key gets in a bank: SAP for special access, else GAP (R108). -/
def State.permissions (s : State) (d : Descriptor) : Permissions :=
  if s.key.ring.toNat < d.lock.ring.toNat || s.key.domain == d.lock.domain then d.sap else d.gap

/-- The lock test (R108): SSF 2 for a read, 3 for a write; a check needs nothing (R113). -/
def State.lockFailure (s : State) (d : Descriptor) : Access → Option (BitVec 6)
  | .read => if (s.permissions d).read then none else some 2
  | .write => if (s.permissions d).write then none else some 3
  | .check => none

/-- Whether an address is a GRS reference: 0 to 0177, and in Extended mode only with b = 0 (R96). -/
def State.inWindow (s : State) (o : Operand) (u : RelAddr) : Bool :=
  decide (u.toNat ≤ Config.grsWindowTop) && (s.mode == .basic || o.b == 0)

/-- The reference that an address makes, with its tests in the order of R92: GRS window and privilege, base register,
limits, lock (R96, R97, R104 to R109). ISW1 is the base register, or 0 where no Basic-mode bank qualifies (R403). -/
def State.reference (s : State) (kind : Access) (n : Nat) (o : Operand) (u : RelAddr) : Attempt Ref :=
  if s.inWindow o u then do
    s.grsPrivilege (grsRange (u.setWidth 7) n)
    .ok (.grs (u.setWidth 7))
  else
    match s.selectBase o u with
    | none => .error (.interrupt (referenceViolation 1 (zext36 u) 0))
    | some k =>
      match (s.base k).limitFailure u n with
      | some a => .error (.interrupt (referenceViolation 1 (BitVec.ofNat 36 a) (k.setWidth 36)))
      | none =>
        match s.lockFailure (s.base k) kind with
        | some ssf => .error (.interrupt (referenceViolation ssf (zext36 u) (k.setWidth 36)))
        | none => .ok (.mem k u)

/-- The absolute address of word `k` of a storage reference (R106, R109). -/
def State.absolute (s : State) (br : BaseIndex) (u : RelAddr) (k : Nat) : Nat :=
  (s.base br).translate (u.toNat + k)

/-- Word `k` of a reference: GRS indices are modulo 128 (R96), storage addresses plain (R109). -/
def State.readRef (s : State) (r : Ref) (k : Nat) : Attempt Word :=
  match r with
  | .grs i => .ok (s.reg (i + BitVec.ofNat 7 k))
  | .mem br u => s.memRead (s.absolute br u k)

/-- Word `k` of a reference replaced. -/
def State.writeRef (s : State) (r : Ref) (k : Nat) (v : Word) : Attempt State :=
  match r with
  | .grs i => .ok (s.setReg (i + BitVec.ofNat 7 k) v)
  | .mem br u => s.memWrite (s.absolute br u k) v

/-! ## Address resolution -/

/-- `IndirectRead(U)`: one full word of kind `Read`, from the GRS or from storage (R99). -/
def State.indirectRead (s : State) (o : Operand) (u : RelAddr) : Attempt Word := do
  let r ← s.reference .read 1 o u
  s.readRef r 0

/-- The Basic-mode loop of indexing and indirection (R98). `depth` is how many levels are still allowed; at 0 the
i bit is ignored. -/
def chase : Nat → Operand → State → Attempt (RelAddr × State)
  | 0, o, s => .ok (index o.x o.h (o.u.setWidth 18) s)
  | depth + 1, o, s =>
    let (u, t) := index o.x o.h (o.u.setWidth 18) s
    if o.i then
      match t.indirectRead o u with
      | .ok w => chase depth (operandOf w) t
      | .error e => .error e
    else .ok (u, t)

/-- The relative address U of an operand (R91, R98). It is the whole of `Resolve` for kinds `Jump` and `Value`
(R95). -/
def resolveAddress (o : Operand) (s : State) : Attempt (RelAddr × State) :=
  match s.mode with
  | .basic => chase s.params.maxIndirect o s
  | .extended => .ok (index o.x o.h (o.d.setWidth 18) s)

/-- `Resolve(iw, kind, n)` for kinds `Read`, `Write` and `Check` (R90, R92). -/
def resolve (kind : Access) (n : Nat) (o : Operand) (s : State) : Attempt (Ref × State) := do
  let (u, t) ← resolveAddress o s
  let r ← t.reference kind n o u
  .ok (r, t)

/-! ## Operands -/

/-- A full-word operand (R114). -/
def readFullWord (o : Operand) (s : State) : Attempt (Word × State) := do
  let (r, t) ← resolve .read 1 o s
  let w ← t.readRef r 0
  .ok (w, t)

/-- A two-word operand, the word at U first (R82, R109). -/
def readDoubleWord (o : Operand) (s : State) : Attempt ((Word × Word) × State) := do
  let (r, t) ← resolve .read 2 o s
  let w0 ← t.readRef r 0
  let w1 ← t.readRef r 1
  .ok ((w0, w1), t)

/-- `ReadOperand(iw)` of an instruction whose j is a partial-word designator: an immediate, or the selected field
(R103, R114). -/
def readOperand (j : BitVec 4) (o : Operand) (s : State) : Attempt (Word × State) :=
  if namesStorageField j then do
    let (w, t) ← readFullWord o s
    .ok (extractField w (wordField j t.quarterMode), t)
  else .ok (immediate j o s)

/-- The field `d` of a one-word reference replaced (R102, R114). -/
def State.writeField (s : State) (r : Ref) (d : WordField) (v : Word) : Attempt State := do
  let w ← s.readRef r 0
  s.writeRef r 0 (insertField w d v)

/-- The words of a reference from word `k` on (R109). -/
def State.readBlock (s : State) (r : Ref) : Nat → Nat → Attempt (List Word)
  | _, 0 => .ok []
  | k, n + 1 => do
    let w ← s.readRef r k
    let ws ← State.readBlock s r (k + 1) n
    .ok (w :: ws)

/-- Words written to a reference from word `k` on, in order. -/
def State.writeBlock (s : State) (r : Ref) (k : Nat) : List Word → Attempt State
  | [] => .ok s
  | w :: ws => do
    let t ← s.writeRef r k w
    State.writeBlock t r (k + 1) ws

/-- Registers loaded in order, later writes winning (R214). -/
def State.loadRegs (s : State) : List GrsIndex → List Word → State
  | i :: is, w :: ws => State.loadRegs (s.setReg i w) is ws
  | _, _ => s

end Sys2Proof.Machine
end

