-- ==== Sys2Proof/Machine/LoadStore.lean ====
section
/-! DEFINITION. The load/store group (R200 to R235): one meaning per instruction over the templates of R200 and
R201. -/

namespace Sys2Proof.Machine

/-- The outcome of a meaning. -/
abbrev Result := Host.Outcome State Fault Refusal

/-- The operand-form check of R203: a store with j = 016 or 017 raises class 14, SSF 2, before any resolution. -/
def requireField (iw : Word) (j : BitVec 4) : Attempt Unit :=
  if namesStorageField j then .ok () else .error (.interrupt (invalidInstruction 2 iw))

/-- The operand-form check of R213 and R234: LAQW and SAQW with x = 0 raise class 14, SSF 2. -/
def requireIndex (iw : Word) (o : Operand) : Attempt Unit :=
  if o.x = 0 then .error (.interrupt (invalidInstruction 2 iw)) else .ok ()

/-- The load template (R200): read the operand, write one register in the tentative state, advance. -/
def loadOperand (j : BitVec 4) (o : Operand) (s : State) (put : State → Word → State) : Attempt State := do
  let (op, t) ← readOperand j o s
  .ok (put t op).advance

/-- The store template (R201): the value is computed after the resolver's increments, then inserted into the field. -/
def storeOperand (iw : Word) (j : BitVec 4) (o : Operand) (s : State) (value : State → Word) : Attempt State := do
  requireField iw j
  let (r, t) ← resolve .write 1 o s
  let t' ← t.writeField r (wordField j t.quarterMode) (value t)
  .ok t'.advance

/-- The magnitude of a ones'-complement word: -0 gives +0 (R206). -/
def magnitude (v : Word) : Word := if v.msb then ~~~v else v

/-- The negative magnitude of a ones'-complement word: +0 gives -0 (R207). -/
def negativeMagnitude (v : Word) : Word := if v.msb then v else ~~~v

/-! ## Loads -/

/-- LA (R204). -/
def execLa (j a : BitVec 4) (o : Operand) (s : State) : Result :=
  conclude s (loadOperand j o s fun t op => t.setReg (t.aIndex a) op)

/-- LNA (R205). -/
def execLna (j a : BitVec 4) (o : Operand) (s : State) : Result :=
  conclude s (loadOperand j o s fun t op => t.setReg (t.aIndex a) (~~~op))

/-- LMA (R206). -/
def execLma (j a : BitVec 4) (o : Operand) (s : State) : Result :=
  conclude s (loadOperand j o s fun t op => t.setReg (t.aIndex a) (magnitude op))

/-- LNMA (R207). -/
def execLnma (j a : BitVec 4) (o : Operand) (s : State) : Result :=
  conclude s (loadOperand j o s fun t op => t.setReg (t.aIndex a) (negativeMagnitude op))

/-- LR (R208). -/
def execLr (j a : BitVec 4) (o : Operand) (s : State) : Result :=
  conclude s (loadOperand j o s fun t op => t.setReg (t.rIndex a) op)

/-- LX (R209). -/
def execLx (j a : BitVec 4) (o : Operand) (s : State) : Result :=
  conclude s (loadOperand j o s fun t op => t.setReg (t.xIndex a) op)

/-- LXM: the modifier half is replaced (R210). -/
def execLxm (j a : BitVec 4) (o : Operand) (s : State) : Result :=
  conclude s (loadOperand j o s fun t op =>
    t.setReg (t.xIndex a) (Word.ofHalves (t.reg (t.xIndex a)).high op.low))

/-- LXI: the increment half is replaced (R211). -/
def execLxi (j a : BitVec 4) (o : Operand) (s : State) : Result :=
  conclude s (loadOperand j o s fun t op =>
    t.setReg (t.xIndex a) (Word.ofHalves op.low (t.reg (t.xIndex a)).low))

/-- DL: both words are read before either register is written (R212). -/
def execDl (a : BitVec 4) (o : Operand) (s : State) : Result :=
  conclude s do
    let ((w0, w1), t) ← readDoubleWord o s
    .ok ((t.setReg (t.aIndex a) w0).setReg (t.aIndex a + 1) w1).advance

/-- LAQW (R213). -/
def execLaqw (a : BitVec 4) (o : Operand) (s : State) : Result :=
  conclude s do
    requireIndex (encode (.laqw a o)) o
    let q := quarterField (s.reg (s.xIndex o.x))
    let (w, t) ← readFullWord o s
    .ok (t.setReg (t.aIndex a) (extractField w q)).advance

/-- The registers that the descriptors in A(a) name, the range of g1 before the range of g2, which is the order of their
words (R214). DESIGN CHOICE: it is also the order in which LRS and SRS look for a register to report (log 14). -/
def registerSet (d : Word) : List GrsIndex :=
  let c2 := (d.extractLsb' 27 7).toNat
  let g2 := d.extractLsb' 18 7
  let c1 := (d.extractLsb' 9 7).toNat
  let g1 := d.extractLsb' 0 7
  grsRange g1 c1 ++ grsRange g2 c2

/-- LRS: no registers named makes no reference; the register range is tested before the storage (R214, R405). Of several
forbidden registers the first of g1's range, then of g2's, is reported (log 14). -/
def execLrs (a : BitVec 4) (o : Operand) (s : State) : Result :=
  conclude s do
    let rs := registerSet (s.reg (s.aIndex a))
    if rs = [] then .ok s.advance
    else do
      s.grsPrivilege rs
      let (r, t) ← resolve .read rs.length o s
      let ws ← t.readBlock r 0 rs.length
      .ok (t.loadRegs rs ws).advance

/-! ## Stores -/

/-- SA (R220). -/
def execSa (j a : BitVec 4) (o : Operand) (s : State) : Result :=
  conclude s (storeOperand (encode (.sa j a o)) j o s fun t => t.reg (t.aIndex a))

/-- SNA (R221). -/
def execSna (j a : BitVec 4) (o : Operand) (s : State) : Result :=
  conclude s (storeOperand (encode (.sna j a o)) j o s fun t => ~~~t.reg (t.aIndex a))

/-- SMA (R222). -/
def execSma (j a : BitVec 4) (o : Operand) (s : State) : Result :=
  conclude s (storeOperand (encode (.sma j a o)) j o s fun t => magnitude (t.reg (t.aIndex a)))

/-- SR (R223). -/
def execSr (j a : BitVec 4) (o : Operand) (s : State) : Result :=
  conclude s (storeOperand (encode (.sr j a o)) j o s fun t => t.reg (t.rIndex a))

/-- SX: the value is the incremented register where a = x and h = 1 (R224). -/
def execSx (j a : BitVec 4) (o : Operand) (s : State) : Result :=
  conclude s (storeOperand (encode (.sx j a o)) j o s fun t => t.reg (t.xIndex a))

/-- SZ (R225). -/
def execSz (j : BitVec 4) (o : Operand) (s : State) : Result :=
  conclude s (storeOperand (encode (.sz j o)) j o s fun _ => 0)

/-- SNZ (R226). -/
def execSnz (j : BitVec 4) (o : Operand) (s : State) : Result :=
  conclude s (storeOperand (encode (.snz j o)) j o s fun _ => 0o777777777777)

/-- SP1 (R227). -/
def execSp1 (j : BitVec 4) (o : Operand) (s : State) : Result :=
  conclude s (storeOperand (encode (.sp1 j o)) j o s fun _ => 1)

/-- SN1 (R228). -/
def execSn1 (j : BitVec 4) (o : Operand) (s : State) : Result :=
  conclude s (storeOperand (encode (.sn1 j o)) j o s fun _ => 0o777777777776)

/-- SFS: six Fieldata spaces (R229). -/
def execSfs (j : BitVec 4) (o : Operand) (s : State) : Result :=
  conclude s (storeOperand (encode (.sfs j o)) j o s fun _ => 0o050505050505)

/-- SFZ: six Fieldata zeros (R230). -/
def execSfz (j : BitVec 4) (o : Operand) (s : State) : Result :=
  conclude s (storeOperand (encode (.sfz j o)) j o s fun _ => 0o606060606060)

/-- SAS: four ASCII spaces (R231). -/
def execSas (j : BitVec 4) (o : Operand) (s : State) : Result :=
  conclude s (storeOperand (encode (.sas j o)) j o s fun _ => 0o040040040040)

/-- SAZ: four ASCII zeros (R232). -/
def execSaz (j : BitVec 4) (o : Operand) (s : State) : Result :=
  conclude s (storeOperand (encode (.saz j o)) j o s fun _ => 0o060060060060)

/-- DS: both values are read before the address is resolved, in the order of the rule (R160, R233; log 13). -/
def execDs (a : BitVec 4) (o : Operand) (s : State) : Result :=
  conclude s do
    let values := [s.reg (s.aIndex a), s.reg (s.aIndex a + 1)]
    let (r, t) ← resolve .write 2 o s
    let t' ← t.writeBlock r 0 values
    .ok t'.advance

/-- SAQW: one quarter of the target word is replaced (R234). -/
def execSaqw (a : BitVec 4) (o : Operand) (s : State) : Result :=
  conclude s do
    requireIndex (encode (.saqw a o)) o
    let q := quarterField (s.reg (s.xIndex o.x))
    let (r, t) ← resolve .write 1 o s
    let t' ← t.writeField r q (t.reg (t.aIndex a))
    .ok t'.advance

/-- SRS: no registers named makes no reference; the register range is tested before the storage, and of several forbidden
registers the first of g1's range, then of g2's, is reported (log 14); every register is
read before the address is resolved, in the order of the rule (R160, R235, R405; log 13). -/
def execSrs (a : BitVec 4) (o : Operand) (s : State) : Result :=
  conclude s do
    let rs := registerSet (s.reg (s.aIndex a))
    if rs = [] then .ok s.advance
    else do
      s.grsPrivilege rs
      let values := rs.map s.reg
      let (r, t) ← resolve .write rs.length o s
      let t' ← t.writeBlock r 0 values
      .ok t'.advance

end Sys2Proof.Machine
end

