-- ==== Sys2Proof/Machine/Logical.lean ====
section
/-! DEFINITION. The logical group (R260 to R264): one result, written to A(a)+1, A(a) unchanged. -/

namespace Sys2Proof.Machine

/-- The logical template (R260): the operand is read first, then A(a), and the result goes to A(a)+1 modulo 128. -/
def logical (j a : BitVec 4) (o : Operand) (s : State) (combine : State → Word → Word → Word) : Attempt State :=
  loadOperand j o s fun t op => t.setReg (t.aIndex a + 1) (combine t (t.reg (t.aIndex a)) op)

/-- OR (R261). -/
def execOrA (j a : BitVec 4) (o : Operand) (s : State) : Result :=
  conclude s (logical j a o s fun _ v op => v ||| op)

/-- XOR (R262). -/
def execXorA (j a : BitVec 4) (o : Operand) (s : State) : Result :=
  conclude s (logical j a o s fun _ v op => v ^^^ op)

/-- AND (R263). -/
def execAndA (j a : BitVec 4) (o : Operand) (s : State) : Result :=
  conclude s (logical j a o s fun _ v op => v &&& op)

/-- MLU: the operand where the mask R2 (or ER2) has ones, A(a) elsewhere (R264). -/
def execMlu (j a : BitVec 4) (o : Operand) (s : State) : Result :=
  conclude s (logical j a o s fun t v op =>
    let m := t.reg (t.rIndex 2)
    (op &&& m) ||| (v &&& ~~~m))

end Sys2Proof.Machine
end

