-- ==== Sys2Proof/Machine/Procedure.lean ====
section
/-! DEFINITION. The procedure-control group (R317 to R325). -/

namespace Sys2Proof.Machine

/-- CALL (R317): the operand names the target; the frame is pushed after the bank is found (R405). -/
def execCall (o : Operand) (s : State) : Result :=
  conclude s do
    let (w, t) ← readFullWord o s
    let d ← t.lookup w.high
    let t' ← t.push t.frame
    .ok (t'.transfer d w.high w.low)

/-- LOCL (R318): PAR.BANK and B0 are kept. -/
def execLocl (o : Operand) (s : State) : Result :=
  conclude s do
    let (u, t) ← resolveAddress o s
    let t' ← t.push t.frame
    .ok (t'.jump u)

/-- GOTO (R319). -/
def execGoto (o : Operand) (s : State) : Result :=
  conclude s do
    let (w, t) ← readFullWord o s
    let d ← t.lookup w.high
    .ok (t.transfer d w.high w.low)

/-- RTN (R323): control and DB12 to DB17 from the frame. The address fields are ignored: nothing is resolved. -/
def execRtn (_o : Operand) (s : State) : Result :=
  conclude s do
    let ((w0, w1), t) ← s.pop
    let d ← t.lookup w0.high
    .ok { t.transfer d w0.high w0.low with dr := restoredDesignators t.dr w1 }

/-- AAIJ and PAIJ (R324, R325): the privilege is checked before the resolver runs; DB13 is written and control goes to
the jump target. -/
def setDeferrableAndJump (iw : Word) (o : Operand) (s : State) (enabled : Bool) : Attempt State := do
  requirePrivilege iw s
  let (u, t) ← resolveAddress o s
  .ok { t.jump u with dr := withDesignatorBit t.dr 13 enabled }

/-- AAIJ, the Basic-mode row (R324). -/
def execAaijB (a : BitVec 4) (o : Operand) (s : State) : Result :=
  conclude s (setDeferrableAndJump (encode (.aaijB a o)) o s true)

/-- AAIJ, the Extended-mode row (R324). -/
def execAaijE (o : Operand) (s : State) : Result :=
  conclude s (setDeferrableAndJump (encode (.aaijE o)) o s true)

/-- PAIJ (R325). -/
def execPaij (o : Operand) (s : State) : Result :=
  conclude s (setDeferrableAndJump (encode (.paij o)) o s false)

end Sys2Proof.Machine
end

