-- ==== Sys2Proof/Machine/Shift.lean ====
section
/-! DEFINITION. The shift group (R280 to R292). -/

namespace Sys2Proof.Machine

/-- A right circular shift; the count is taken modulo the width (R280, R281, R282). -/
def circularRight {n : Nat} (v : BitVec n) (c : Nat) : BitVec n := (v >>> (c % n)) ||| (v <<< (n - c % n))

/-- A left circular shift; the count is taken modulo the width (R280, R287, R288). -/
def circularLeft {n : Nat} (v : BitVec n) (c : Nat) : BitVec n := (v <<< (c % n)) ||| (v >>> (n - c % n))

/-- The shift template on one register (R280): the count is U[6:0], an address is only a number. -/
def shiftSingle (a : BitVec 4) (o : Operand) (s : State) (shift : Word → Nat → Word) : Attempt State := do
  let (u, t) ← resolveAddress o s
  .ok (t.setReg (t.aIndex a) (shift (t.reg (t.aIndex a)) (u.extractLsb' 0 7).toNat)).advance

/-- Two registers with a 72-bit value, A(a) the more significant half (R280). -/
def State.setPair (s : State) (a : BitVec 4) (d : BitVec 72) : State :=
  (s.setReg (s.aIndex a) (d.extractLsb' 36 36)).setReg (s.aIndex a + 1) (d.extractLsb' 0 36)

/-- The 72-bit value of two registers, A(a) the more significant half (R280). -/
def State.pair (s : State) (a : BitVec 4) : BitVec 72 :=
  (s.reg (s.aIndex a) ++ s.reg (s.aIndex a + 1) : BitVec (36 + 36))

/-- The shift template on two registers (R280). -/
def shiftDouble (a : BitVec 4) (o : Operand) (s : State) (shift : BitVec 72 → Nat → BitVec 72) : Attempt State := do
  let (u, t) ← resolveAddress o s
  .ok (t.setPair a (shift (t.pair a) (u.extractLsb' 0 7).toNat)).advance

/-- SSC (R281). -/
def execSsc (a : BitVec 4) (o : Operand) (s : State) : Result :=
  conclude s (shiftSingle a o s circularRight)

/-- DSC (R282). -/
def execDsc (a : BitVec 4) (o : Operand) (s : State) : Result :=
  conclude s (shiftDouble a o s circularRight)

/-- SSL (R283): a count of the width or more gives 0. -/
def execSsl (a : BitVec 4) (o : Operand) (s : State) : Result :=
  conclude s (shiftSingle a o s fun v c => v >>> c)

/-- DSL (R284). -/
def execDsl (a : BitVec 4) (o : Operand) (s : State) : Result :=
  conclude s (shiftDouble a o s fun v c => v >>> c)

/-- SSA (R285): the top bits become the sign bit; a count of the width or more gives 36 of them. -/
def execSsa (a : BitVec 4) (o : Operand) (s : State) : Result :=
  conclude s (shiftSingle a o s fun v c => v.sshiftRight c)

/-- DSA (R286). -/
def execDsa (a : BitVec 4) (o : Operand) (s : State) : Result :=
  conclude s (shiftDouble a o s fun v c => v.sshiftRight c)

/-- LSSC (R287). -/
def execLssc (a : BitVec 4) (o : Operand) (s : State) : Result :=
  conclude s (shiftSingle a o s circularLeft)

/-- LDSC (R288). -/
def execLdsc (a : BitVec 4) (o : Operand) (s : State) : Result :=
  conclude s (shiftDouble a o s circularLeft)

/-- LSSL (R289): bits shifted out are lost. -/
def execLssl (a : BitVec 4) (o : Operand) (s : State) : Result :=
  conclude s (shiftSingle a o s fun v c => v <<< c)

/-- LDSL (R290). -/
def execLdsl (a : BitVec 4) (o : Operand) (s : State) : Result :=
  conclude s (shiftDouble a o s fun v c => v <<< c)

/-- The normalised value and the count of "load shift and count" on `n + 2` bits (R291, R292): the least rotation
that makes the two top bits differ; for +0 and -0 the value unchanged and the count `n + 1`. -/
def normalise {n : Nat} (v : BitVec (n + 2)) : BitVec (n + 2) × Nat :=
  if v = 0 ∨ v = BitVec.allOnes (n + 2) then (v, n + 1)
  else
    let differ (k : Nat) : Bool := (circularLeft v k).getLsbD (n + 1) != (circularLeft v k).getLsbD n
    let k := ((List.range (n + 2)).find? differ).getD (n + 1)
    (circularLeft v k, k)

/-- LSC: the normalised word in A(a), the count in A(a)+1 (R291). -/
def execLsc (a : BitVec 4) (o : Operand) (s : State) : Result :=
  conclude s do
    let (w, t) ← readFullWord o s
    let (v, k) := normalise (n := 34) w
    .ok ((t.setReg (t.aIndex a) v).setReg (t.aIndex a + 1) (BitVec.ofNat 36 k)).advance

/-- DLSC: the normalised double word in A(a) and A(a)+1, the count in A(a)+2 (R292). -/
def execDlsc (a : BitVec 4) (o : Operand) (s : State) : Result :=
  conclude s do
    let ((w0, w1), t) ← readDoubleWord o s
    let (v, k) := normalise (n := 70) (w0 ++ w1 : BitVec (36 + 36))
    .ok ((t.setPair a v).setReg (t.aIndex a + 2) (BitVec.ofNat 36 k)).advance

end Sys2Proof.Machine
end

