-- ==== Sys2Proof/Machine/Special.lean ====
section
/-! DEFINITION. The interrupt-related group (R340 to R342) and the special group (R350 to R356). -/

namespace Sys2Proof.Machine

/-- The signalling template (R340): the instruction completes, then its request enters PENDING. -/
def signalling (ssf : BitVec 6) (o : Operand) (s : State) : Attempt State := do
  let (u, t) ← resolveAddress o s
  .ok (t.advance.enqueue (signal ssf u))

/-- ER: SSF 0 (R341). -/
def execEr (_a : BitVec 4) (o : Operand) (s : State) : Result := conclude s (signalling 0 o s)

/-- SGNL: SSF 1 (R342). -/
def execSgnl (o : Operand) (s : State) : Result := conclude s (signalling 1 o s)

/-- NOP resolves its operand with kind `Check` and does nothing else (R113, R350). -/
def checkOperand (o : Operand) (s : State) : Attempt State := do
  let (_, t) ← resolve .check 1 o s
  .ok t.advance

/-- NOP, the Extended-mode row (R350). -/
def execNopE (o : Operand) (s : State) : Result := conclude s (checkOperand o s)

/-- NOP, the Basic-mode row (R350). -/
def execNopB (_a : BitVec 4) (o : Operand) (s : State) : Result := conclude s (checkOperand o s)

/-- SEND (R352): a send to oneself does nothing; to another processor it delivers class 31; to an absent one it does
what `UPI_ABSENT_TARGET` says. -/
def execSend (o : Operand) (s : State) : Result :=
  conclude s do
    let (u, t) ← resolveAddress o s
    if u = t.params.upiIndex then .ok t.advance
    else if t.isProcessor u then .ok (t.advance.deliver u (upiSignal t.params.upiIndex))
    else
      match t.params.upiAbsentTarget with
      | .ignore => .ok t.advance
      | .fault => .error (.interrupt (invalidInstruction 2 (encode (.send o))))

/-- HALT (R356): privileged; the stop reason is `Debug` and the detail U. -/
def execHalt (o : Operand) (s : State) : Result :=
  conclude s do
    requirePrivilege (encode (.halt o)) s
    let (u, t) ← resolveAddress o s
    .ok (t.advance.stop .debug u)

end Sys2Proof.Machine
end

