-- ==== Sys2Proof/Machine/Dispatch.lean ====
section
/-! DEFINITION. The dispatch: every instruction of the opcode map has its meaning. -/

namespace Sys2Proof.Machine

def exec (i : Instr) (s : State) : Host.Outcome State Fault Refusal :=
  match i with
  | .sa j a o => Sys2Proof.Machine.execSa j a o s
  | .sna j a o => Sys2Proof.Machine.execSna j a o s
  | .sma j a o => Sys2Proof.Machine.execSma j a o s
  | .sr j a o => Sys2Proof.Machine.execSr j a o s
  | .sz j o => Sys2Proof.Machine.execSz j o s
  | .snz j o => Sys2Proof.Machine.execSnz j o s
  | .sp1 j o => Sys2Proof.Machine.execSp1 j o s
  | .sn1 j o => Sys2Proof.Machine.execSn1 j o s
  | .sfs j o => Sys2Proof.Machine.execSfs j o s
  | .sfz j o => Sys2Proof.Machine.execSfz j o s
  | .sas j o => Sys2Proof.Machine.execSas j o s
  | .saz j o => Sys2Proof.Machine.execSaz j o s
  | .sx j a o => Sys2Proof.Machine.execSx j a o s
  | .laqw a o => Sys2Proof.Machine.execLaqw a o s
  | .saqw a o => Sys2Proof.Machine.execSaqw a o s
  | .locl o => Sys2Proof.Machine.execLocl o s
  | .call o => Sys2Proof.Machine.execCall o s
  | .goto o => Sys2Proof.Machine.execGoto o s
  | .la j a o => Sys2Proof.Machine.execLa j a o s
  | .lna j a o => Sys2Proof.Machine.execLna j a o s
  | .lma j a o => Sys2Proof.Machine.execLma j a o s
  | .lnma j a o => Sys2Proof.Machine.execLnma j a o s
  | .lr j a o => Sys2Proof.Machine.execLr j a o s
  | .lxm j a o => Sys2Proof.Machine.execLxm j a o s
  | .lx j a o => Sys2Proof.Machine.execLx j a o s
  | .orA j a o => Sys2Proof.Machine.execOrA j a o s
  | .xorA j a o => Sys2Proof.Machine.execXorA j a o s
  | .andA j a o => Sys2Proof.Machine.execAndA j a o s
  | .mlu j a o => Sys2Proof.Machine.execMlu j a o s
  | .lxi j a o => Sys2Proof.Machine.execLxi j a o s
  | .ds a o => Sys2Proof.Machine.execDs a o s
  | .dl a o => Sys2Proof.Machine.execDl a o s
  | .er a o => Sys2Proof.Machine.execEr a o s
  | .srs a o => Sys2Proof.Machine.execSrs a o s
  | .lrs a o => Sys2Proof.Machine.execLrs a o s
  | .ssc a o => Sys2Proof.Machine.execSsc a o s
  | .dsc a o => Sys2Proof.Machine.execDsc a o s
  | .ssl a o => Sys2Proof.Machine.execSsl a o s
  | .dsl a o => Sys2Proof.Machine.execDsl a o s
  | .ssa a o => Sys2Proof.Machine.execSsa a o s
  | .dsa a o => Sys2Proof.Machine.execDsa a o s
  | .lsc a o => Sys2Proof.Machine.execLsc a o s
  | .dlsc a o => Sys2Proof.Machine.execDlsc a o s
  | .lssc a o => Sys2Proof.Machine.execLssc a o s
  | .ldsc a o => Sys2Proof.Machine.execLdsc a o s
  | .lssl a o => Sys2Proof.Machine.execLssl a o s
  | .ldsl a o => Sys2Proof.Machine.execLdsl a o s
  | .nopE o => Sys2Proof.Machine.execNopE o s
  | .send o => Sys2Proof.Machine.execSend o s
  | .sgnl o => Sys2Proof.Machine.execSgnl o s
  | .rtn o => Sys2Proof.Machine.execRtn o s
  | .halt o => Sys2Proof.Machine.execHalt o s
  | .nopB a o => Sys2Proof.Machine.execNopB a o s
  | .aaijB a o => Sys2Proof.Machine.execAaijB a o s
  | .aaijE o => Sys2Proof.Machine.execAaijE o s
  | .paij o => Sys2Proof.Machine.execPaij o s

end Sys2Proof.Machine
end

