-- ==== Sys2Proof/Machine/HostCalls.lean ====
section
/-! DEFINITION. The host's interface (R471 to R477): load, start, halt and send, as functions from one state at a step
boundary to the next. `none` is a call refused, which changes nothing (I19 to I21). Observation (R476) is reading the
fields of `State`. -/

namespace Sys2Proof.Machine

/-- R35 and R36: the base is less than MEM_SIZE, void and empty banks included (log 12); and a descriptor that is not
void has `lower <= upper + 1`, and its words lie below MEM_SIZE. -/
def Descriptor.valid (memSize : Nat) (d : Descriptor) : Bool :=
  decide (d.base < memSize) &&
    (d.isVoid ||
      (decide (d.lower.toNat ≤ d.upper.toNat + 1) &&
        (decide (d.upper.toNat < d.lower.toNat) || decide (d.base + (d.upper.toNat - d.lower.toNat) < memSize))))

/-- One bank of a load (R471). A void descriptor, which R316 lets the BDT hold, comes with no words (log 12). -/
structure LoadBank where
  name : BankName
  words : List Word
  descriptor : Descriptor
deriving DecidableEq, Repr

/-- What a load takes (R471). -/
structure LoadImage where
  banks : List LoadBank
  /-- the initial bank name and offset -/
  entry : ProgramAddress
  /-- which bank each base register holds; B0 defaults to the entry bank -/
  assign : List (BaseIndex × BankName)
  initialDr : Word := 0
  initialKey : RingDomain := ⟨0, 0⟩
  initialGrs : List (GrsIndex × Word) := []
  initialRcsPtr : Option RelAddr := none
deriving DecidableEq, Repr

/-- The descriptor fits R35 and R36 and the bank has as many words as the descriptor covers (R471; log 12). -/
def LoadBank.acceptable (memSize : Nat) (k : LoadBank) : Bool :=
  k.descriptor.valid memSize &&
    (if k.descriptor.isVoid then k.words == []
     else k.descriptor.lower.toNat + k.words.length == k.descriptor.upper.toNat + 1)

/-- No name occurs twice. -/
def distinctNames : List LoadBank → Bool
  | [] => true
  | k :: ks => ks.all (fun k' => k'.name != k.name) && distinctNames ks

/-- The BDT of a load: one entry per bank (R471). -/
def LoadImage.table (l : LoadImage) : List (BankName × Descriptor) := l.banks.map fun k => (k.name, k.descriptor)

/-- The base register assignments with B0's default (R471). -/
def LoadImage.assignments (l : LoadImage) : List (BaseIndex × BankName) :=
  if l.assign.any (fun p => p.1 == 0) then l.assign else (0, l.entry.bank) :: l.assign

/-- The bank name that a load assigns to a base register: the first one listed (log 12). -/
def assignedBank (k : BaseIndex) : List (BaseIndex × BankName) → Option BankName
  | [] => none
  | (i, name) :: rest => if i = k then some name else assignedBank k rest

/-- The descriptor that a load puts into a base register: its bank's, or void (R471). -/
def LoadImage.descriptorFor (l : LoadImage) (k : BaseIndex) : Descriptor :=
  match assignedBank k l.assignments with
  | some name => (findBank name l.table).getD Descriptor.void
  | none => Descriptor.void

/-- The conditions under which a load is not refused (R471). -/
def LoadImage.acceptable (l : LoadImage) (memSize : Nat) : Bool :=
  distinctNames l.banks && l.banks.all (LoadBank.acceptable memSize) &&
    l.assignments.all fun p => (findBank p.2 l.table).isSome

/-- INITIAL_RCS_PTR: `B[25].upper + 1` if B25 is assigned, else 0, unless the load gives it (R8, R471; log 15). -/
def LoadImage.rcsPointer (l : LoadImage) : RelAddr :=
  match l.initialRcsPtr with
  | some p => p
  | none => if (assignedBank Config.rcsBase l.assignments).isSome then (l.descriptorFor Config.rcsBase).upper + 1 else 0

/-- Storage with every bank's words written, in the order of the list (R471). DESIGN CHOICE: where the absolute ranges of
two banks overlap, which R471 neither refuses nor settles, the words of the later bank remain (log 27). -/
def loadBanks (m : Memory) (banks : List LoadBank) : Memory :=
  banks.foldl (fun m k => m.writeAll k.descriptor.base k.words) m

/-- Registers set from a list, in order: of two values listed for one register the last counts (log 12). -/
def State.setRegs (s : State) (gs : List (GrsIndex × Word)) : State := gs.foldl (fun s g => s.setReg g.1 g.2) s

/-- Initial program load (R471): refused while running, or if the image is not acceptable. -/
def State.load (s : State) (l : LoadImage) : Option State :=
  if s.run = .running || !(l.acceptable s.params.memSize && (findBank l.entry.bank l.table).isSome) then none
  else
    let t := s.setRegs l.initialGrs
    some
      { t.setRegLow Config.rcsPointer l.rcsPointer with
        mem := loadBanks s.mem l.banks
        bdt := l.table
        b := Vector.ofFn fun k => l.descriptorFor (BitVec.ofFin k)
        dr := l.initialDr
        key := l.initialKey
        par := l.entry
        pending := { s.pending with requests := [] }
        save := none
        lastInterrupt := none
        entry := false
        run := .idle
        stopReason := .none
        stopDetail := 0 }

/-- `start()` (R474): no effect on a running processor. DESIGN CHOICE: a created processor that no load has reached is
Idle, and R474 starts it like any other, although R470 and I5 say that no step runs before a load; its steps then show
the PAR of log 4 in ISW0 and in SAVE (log 26). -/
def State.start (s : State) : State :=
  if s.run = .running then s else { s with run := .running, stopReason := .none, stopDetail := 0 }

/-- The host's `halt()` (R475): no effect on a processor that is not running. -/
def State.hostHalt (s : State) : State := if s.run = .running then s.stop .halt 0 else s

/-- The host's `send(from, to)` (R477), and another processor's SEND as it reaches this one (R352, R420): a send to
oneself does nothing, a send to no processor is refused. -/
def State.hostSend (s : State) (sender target : UpiIndex) : Option State :=
  if sender = target then some s
  else if target = s.params.upiIndex then some (s.enqueue (upiSignal sender))
  else if s.isProcessor target then some (s.deliver target (upiSignal sender))
  else none

/-- The host's calls. -/
inductive HostCall where
  | load (image : LoadImage)
  | start
  | halt
  | send (sender target : UpiIndex)
deriving DecidableEq, Repr

/-- A host call between two steps: the new state, or `none` where the call is refused. -/
def hostCall (c : HostCall) (s : State) : Option State :=
  match c with
  | .load l => s.load l
  | .start => some s.start
  | .halt => some s.hostHalt
  | .send sender target => s.hostSend sender target

end Sys2Proof.Machine
end

