-- ==== Sys2Proof/Machine/Cycle.lean ====
section
/-! DEFINITION. The instruction cycle (R161), instruction fetch (R110 to R112), and the placing of a word where the
next step fetches. -/

namespace Sys2Proof.Machine

/-- The base register that a fetch at PAR.PC goes through: B0 in Extended mode (R110), the search of R104 in Basic mode
(R111); none where the limit test fails. The GRS is never fetched from. -/
def State.fetchBase (s : State) : Option BaseIndex :=
  match s.mode with
  | .extended => if (s.base 0).covers s.par.pc then some 0 else none
  | .basic => s.basicBase s.par.pc

/-- The word at PAR.PC, or the fetch violation: SSF 041 for limits, 044 for execute permission (R110 to R112). -/
def State.fetchWord (s : State) : Attempt Word :=
  match s.fetchBase with
  | none => .error (.interrupt (referenceViolation 0o41 (zext36 s.par.pc) 0))
  | some k =>
    if (s.permissions (s.base k)).execute then s.memRead (s.absolute k s.par.pc 0)
    else .error (.interrupt (referenceViolation 0o44 (zext36 s.par.pc) (k.setWidth 36)))

/-- A fetch that fails: the request enters PENDING, and if it was a handler's first fetch the processor halts (R112,
R413). ENTRY stays as it is (R43). -/
def State.fetchFault (s : State) (c : Cause) : State :=
  if s.entry then (s.enqueue c).stop .interruptEntryFault s.enteredClass else s.enqueue c

/-- A successful fetch clears ENTRY (R43, R161 step 2). -/
def State.fetched (s : State) : State := { s with entry := false }

/-- Steps 3 to 7 of R161: the word is decoded for the mode and executed; an undefined word raises class 14, SSF 0
(R149). -/
def runWord (w : Word) (s : State) : Result :=
  match decode s.mode w with
  | some i => exec i s
  | none => .next (s.enqueue (invalidInstruction 0 w))

/-- One step of a running processor (R161). -/
def cycle (s : State) : Result :=
  match s.selected with
  | some q => .next (s.dispatch q)
  | none =>
    match s.fetchWord with
    | .ok w => runWord w s.fetched
    | .error (.interrupt c) => .next (s.fetchFault c)
    | .error (.absentStorage a) => .fault (.absentStorage a)

/-! ## Placing a word for the next step -/

/-- A bank of one word at relative address `u`, at absolute address 0, open to every access. -/
def oneWordBank (u : RelAddr) : Descriptor :=
  { isVoid := false, base := 0, lower := u, upper := u, lock := ⟨0, 0⟩,
    gap := ⟨true, true, true⟩, sap := ⟨true, true, true⟩ }

/-- DB16 such that the word is an instruction: as it is if it is one in the present mode or in neither, else the other
mode (R143; log 22). -/
def State.modeFor (s : State) (w : Word) : State :=
  let other : Bool := s.mode == .extended
  if (decode s.mode w).isNone && (decode (if other then .basic else .extended) w).isSome then
    { s with dr := withDesignatorBit s.dr 16 other }
  else s

/-- A base register that a fetch at PAR.PC passes through: as they are if the fetch already succeeds, else the first
one the mode looks at covers PAR.PC. -/
def State.withFetchBank (s : State) : State :=
  match s.fetchWord with
  | .ok _ => s
  | .error _ =>
    match s.mode with
    | .extended => s.setBase 0 (oneWordBank s.par.pc)
    | .basic => s.setBase (if s.alternateOrder then 14 else 12) (oneWordBank s.par.pc)

/-- The absolute address that the next fetch reads. -/
def State.fetchAddress (s : State) : Nat := s.absolute (s.fetchBase.getD 0) s.par.pc 0

/-- The processor running, with no eligible request, and with `w` where its next fetch reads (log 11). -/
def State.placeWord (s : State) (w : Word) : State :=
  let t := ({ s with run := .running }).modeFor w
  let t := { t with pending := { t.pending with requests := t.pending.requests.filter fun q => !t.eligible q } }
  let t := t.withFetchBank
  { t with mem := t.mem.write t.fetchAddress w }

end Sys2Proof.Machine
end

