-- ==== Sys2Proof/Machine/Step.lean ====
section
/-! DEFINITION. The step of the machine, and the placing of an instruction for it. -/

namespace Sys2Proof.Machine

/-- One step (R161). A processor that is Idle or Halted takes none: the state stays as it is until the host acts
(log 10). -/
def step (s : State) : Host.Outcome State Fault Refusal :=
  match s.run with
  | .running => cycle s
  | .idle => .next s
  | .halted => .next s

/-- The state with an opcode-table word of `nbits` bits stored where the next step fetches, and with what that fetch
needs: the processor running, the mode the word is defined in, a bank over PAR.PC, no eligible request. It stands for
the load and the start by the host that a program needs (log 11, log 22). -/
def State.withFetchWord (s : State) (nbits w : Nat) : State := s.placeWord (BitVec.ofNat 36 (w % 2 ^ nbits))

end Sys2Proof.Machine
end

