-- ==== Sys2Proof/Safety.lean ====
section
/-! DEFINITION. What counts as a well-formed state and a reachable one, and the words in which the claims say what an
instruction changes and leaves. -/

namespace Sys2Proof.Machine

/-! ## Well-formed states -/

/-- The classes that something in scope raises; a model creates no other (R403). -/
def knownClass (c : BitVec 5) : Bool := c == 8 || c == 9 || c == 11 || c == 12 || c == 14 || c == 31

/-- A PENDING set: arrival numbers rise and are below the next one, every request has a class of R403 and the
deferrable flag of its class (R401, R403). -/
def PendingSet.Wf (p : PendingSet) : Prop :=
  p.requests.Pairwise (fun q r => q.seq < r.seq) ∧
    ∀ q ∈ p.requests,
      q.seq < p.nextSeq ∧ q.deferrable = deferrableClass q.cause.cls ∧ knownClass q.cause.cls = true

/-- Every descriptor that a reference, a fetch, a transfer or an entry can use satisfies R35 and R36. -/
def State.DescriptorsValid (s : State) : Prop :=
  (∀ k : BaseIndex, (s.base k).valid s.params.memSize = true) ∧
    ∀ p ∈ s.bdt, p.2.valid s.params.memSize = true

/-- How many pending requests are not deferrable. -/
def PendingSet.urgent (p : PendingSet) : Nat := p.requests.countP fun q => !q.deferrable

/-- The invariant of the machine: storage in canonical form and within MEM_SIZE (R80); valid descriptors (R35, R36);
well-formed PENDING sets, the own one with at most one request that cannot be held (R404, R406); SAVE not empty while
ENTRY is 1 (R410); a stop reason exactly on a halted processor (R44, R474); and a distinct index for every processor
(R45, R421). -/
structure State.Wf (s : State) : Prop where
  canonical : s.mem.wf = true
  within : ∀ c ∈ s.mem, c.1 < s.params.memSize
  descriptors : s.DescriptorsValid
  pending : s.pending.Wf
  oneUrgent : s.pending.urgent ≤ 1
  peers : ∀ p ∈ s.peers, p.pending.Wf
  saved : s.entry = true → s.save.isSome = true
  stopped : s.run = .halted ↔ s.stopReason ≠ .none
  distinct : (s.params.upiIndex :: s.peers.map Peer.index).Nodup

/-- The states a processor can come to: created with some storage, which a descriptor needs (R35), then any steps and
any host calls that are not refused. -/
inductive Reachable : State → Prop where
  | created (g : Vector Word 128) (params : Params) (processors : List UpiIndex) :
      0 < params.memSize → Reachable (State.created g params processors)
  | step (s t : State) : Reachable s → step s = .next t → Reachable t
  | host (s t : State) (c : HostCall) : Reachable s → hostCall c s = some t → Reachable t

/-! ## What changes and what is left -/

/-- Everything but the General Register Set, PAR and storage is the same. -/
def SameControl (s t : State) : Prop :=
  t.b = s.b ∧ t.dr = s.dr ∧ t.key = s.key ∧ t.pending = s.pending ∧ t.save = s.save ∧
    t.lastInterrupt = s.lastInterrupt ∧ t.entry = s.entry ∧ t.run = s.run ∧ t.stopReason = s.stopReason ∧
    t.stopDetail = s.stopDetail ∧ t.bdt = s.bdt ∧ t.peers = s.peers ∧ t.params = s.params

/-- Every storage word reads the same. -/
def SameStorage (s t : State) : Prop := ∀ a : Nat, t.mem.read a = s.mem.read a

/-- One of the registers that can index: X1 to X15 of the selected set (R91). -/
def State.isIndexRegister (s : State) (k : GrsIndex) : Prop := ∃ x : BitVec 4, x ≠ 0 ∧ k = s.xIndex x

/-- What resolving an address may leave behind: only modifiers of index registers differ (R93). -/
def IndexedFrom (s t : State) : Prop :=
  SameControl s t ∧ t.par = s.par ∧ t.mem = s.mem ∧
    ∀ k : GrsIndex, (t.reg k).high = (s.reg k).high ∧ (¬s.isIndexRegister k → t.reg k = s.reg k)

/-- PAR has advanced by one instruction (R29). -/
def Advanced (s t : State) : Prop := t.par = ⟨s.par.bank, s.par.pc + 1⟩

/-- The instruction completes from `s`, whose address resolution leaves `t`, and its whole effect is: the listed
registers hold the listed values, every other register is as in `t`, storage and all control state are unchanged, and
PAR advances. -/
def CompletesInRegisters (i : Instr) (s t : State) (written : List (GrsIndex × Word)) : Prop :=
  ∃ s', exec i s = .next s' ∧ IndexedFrom s t ∧ Advanced s s' ∧ SameStorage s s' ∧ SameControl s s' ∧
    (∀ p ∈ written, s'.reg p.1 = p.2) ∧ ∀ k, k ∉ written.map Prod.fst → s'.reg k = t.reg k

/-- `s'` has the words `ws` stored at the reference `r`, from its first word on, and is as `t` elsewhere: in the GRS
modulo 128, where the last of the words that meet in a register counts (R96), or in storage at the reference's absolute
addresses (R106, R109). -/
def StoredAt (t s' : State) (r : Ref) (ws : List Word) : Prop :=
  match r with
  | .grs g =>
    t.mem = s'.mem ∧ (∀ k, k < ws.length →
        (∀ k', k < k' → k' < ws.length → g + BitVec.ofNat 7 k' ≠ g + BitVec.ofNat 7 k) →
        s'.reg (g + BitVec.ofNat 7 k) = ws.getD k 0) ∧
      ∀ i : GrsIndex, (∀ k, k < ws.length → i ≠ g + BitVec.ofNat 7 k) → s'.reg i = t.reg i
  | .mem br u =>
    t.grs = s'.grs ∧ (∀ k, k < ws.length → s'.mem.read (t.absolute br u k) = ws.getD k 0) ∧
      ∀ a : Nat, (∀ k, k < ws.length → a ≠ t.absolute br u k) → s'.mem.read a = t.mem.read a

/-- The instruction completes from `s`, whose address resolution leaves `t` and the reference `r`, and its whole effect
is that the words `ws` are stored there and PAR advances. -/
def CompletesInStore (i : Instr) (s t : State) (r : Ref) (ws : List Word) : Prop :=
  ∃ s', exec i s = .next s' ∧ IndexedFrom s t ∧ Advanced s s' ∧ SameControl s s' ∧ StoredAt t s' r ws

/-- The instruction is abandoned with the cause: its only effect is the request added to PENDING (R162). -/
def Abandons (i : Instr) (s : State) (c : Cause) : Prop := exec i s = .next (s.enqueue c)

/-- The `n` words of a reference exist: their absolute addresses are below MEM_SIZE (R80). It holds of every resolved
reference of a state with valid descriptors. -/
def State.HasStorage (t : State) (r : Ref) (n : Nat) : Prop :=
  match r with
  | .grs _ => True
  | .mem br u => ∀ k, k < n → t.absolute br u k < t.params.memSize

/-- Word `k` of a reference: a register of the GRS, modulo 128 (R96), or a storage word (R106, R109). -/
def State.wordAt (t : State) (r : Ref) (k : Nat) : Word :=
  match r with
  | .grs g => t.reg (g + BitVec.ofNat 7 k)
  | .mem br u => t.mem.read (t.absolute br u k)

/-- Everything but the General Register Set, PAR, storage and B0 is the same. -/
def SameOutsideTransfer (s t : State) : Prop :=
  (∀ k : BaseIndex, k ≠ 0 → t.base k = s.base k) ∧ SameControl { s with b := t.b } t

/-- The registers are those of `t`, but for the Return Control Stack pointer, EX0's modifier, which is `p` (R310). -/
def PointerMoved (t s' : State) (p : RelAddr) : Prop :=
  s'.reg Config.rcsPointer = Word.ofHalves (t.reg Config.rcsPointer).high p ∧
    ∀ k : GrsIndex, k ≠ Config.rcsPointer → s'.reg k = t.reg k

/-! ## The cycle -/

/-- The processor runs, no request is eligible, and the word at PAR.PC is `w` (R161 steps 1 and 2). -/
def State.Fetches (s : State) (w : Word) : Prop := s.run = .running ∧ s.selected = none ∧ s.fetchWord = .ok w

/-- This step executes the instruction `i`. -/
def State.Executes (s : State) (i : Instr) : Prop := ∃ w, s.Fetches w ∧ decode s.mode w = some i

/-- This step dispatches an interrupt request instead (R406). -/
def State.Dispatches (s : State) : Prop := s.run = .running ∧ s.selected.isSome = true

/-! ## Banks -/

/-- R107's limit test of an address, a plain number (R109). -/
def Descriptor.Holds (d : Descriptor) (a : Nat) : Prop := d.isVoid = false ∧ d.lower.toNat ≤ a ∧ a ≤ d.upper.toNat

/-- `k` is the register that R104's search takes for `u`: B12, B14, B13, B15, or B14, B12, B15, B13 when DB31 is 1. -/
def State.SearchTakes (s : State) (u : RelAddr) (k : BaseIndex) : Prop :=
  ∃ before after : List BaseIndex,
    (if designatorBit s.dr 31 then [14, 12, 15, 13] else [12, 14, 13, 15]) = before ++ k :: after ∧
      (s.base k).Holds u.toNat ∧ ∀ k' ∈ before, ¬(s.base k').Holds u.toNat

/-- The permissions that R108 gives the key in a bank. -/
def State.Granted (s : State) (d : Descriptor) (p : Permissions) : Prop :=
  ((s.key.ring < d.lock.ring ∨ s.key.domain = d.lock.domain) → p = d.sap) ∧
    (¬(s.key.ring < d.lock.ring ∨ s.key.domain = d.lock.domain) → p = d.gap)

/-- R98's loop with at most the given number of further levels: from an operand specification and a state to the
address that it ends at and the state that its increments leave. -/
inductive Chain : Nat → Operand → State → RelAddr → State → Prop where
  /-- an operand without the i bit ends the chain -/
  | last (n : Nat) (o : Operand) (s t : State) (u : RelAddr) : o.i = false → index o.x o.h (o.u.setWidth 18) s = (u, t) →
      Chain n o s u t
  /-- at the depth limit the i bit is ignored -/
  | limit (o : Operand) (s t : State) (u : RelAddr) : index o.x o.h (o.u.setWidth 18) s = (u, t) → Chain 0 o s u t
  /-- an indirect level: the word at the address is the next operand specification (R99) -/
  | link (n : Nat) (o : Operand) (s t t' : State) (u u' : RelAddr) (r : Ref) : o.i = true →
      index o.x o.h (o.u.setWidth 18) s = (u, t) → t.reference .read 1 o u = .ok r → t.HasStorage r 1 →
      Chain n (operandOf (t.wordAt r 0)) t u' t' → Chain (n + 1) o s u' t'

/-- R98's loop with at most the given number of further levels, ended by a violation: the address of the indirect word
whose read raises it (R99), and its cause. -/
inductive ChainFaults : Nat → Operand → State → RelAddr → Cause → Prop where
  /-- the read at this level's address raises the cause -/
  | here (n : Nat) (o : Operand) (s t : State) (u : RelAddr) (c : Cause) : o.i = true →
      index o.x o.h (o.u.setWidth 18) s = (u, t) → t.reference .read 1 o u = .error (.interrupt c) →
      ChainFaults (n + 1) o s u c
  /-- the word is read, and a further level raises the cause -/
  | link (n : Nat) (o : Operand) (s t : State) (u u' : RelAddr) (r : Ref) (c : Cause) : o.i = true →
      index o.x o.h (o.u.setWidth 18) s = (u, t) → t.reference .read 1 o u = .ok r → t.HasStorage r 1 →
      ChainFaults n (operandOf (t.wordAt r 0)) t u' c → ChainFaults (n + 1) o s u' c

/-- The value of an 18-bit ones'-complement number (R11). -/
def value18 (v : RelAddr) : Int := if v.msb then -((2 : Int) ^ 18 - 1 - v.toNat) else v.toNat

end Sys2Proof.Machine
end

