-- ==== Sys2Proof/Certificates/Slice0/Obligations.lean ====
section
/-! DEFINITION. The statements about the model. Where one speaks of an instruction, its hypotheses are on the state
and the operand alone: the operand is readable, or the address resolves, to what the statement then uses. -/

section
open Sys2Proof Sys2Proof.Machine

/-! ## Encoding -/

/-- R141, R142, R147: decoding an instruction's word in a mode of its row gives the instruction, every field at every
value. -/
def Obligations.DecodeReadsEveryEncoding : Prop :=
  ∀ (m : Mode) (i : Instr), i.definedIn m = true → decode m (encode i) = some i

/-- R141, R142, R148: a word that decodes is the word of the instruction it decodes to: no bit is lost. -/
def Obligations.EncodeRestoresEveryWord : Prop :=
  ∀ (m : Mode) (w : Word) (i : Instr), decode m w = some i → i.definedIn m = true ∧ encode i = w

/-- R148: the rows of spec/opcode_table.json that list the mode and match the word are exactly the row of the decoded
instruction, and none where the word does not decode. -/
def Obligations.DecodingIsTheUniqueTableRow : Prop :=
  ∀ (m : Mode) (w : Word), (opcodeTable.filter fun r => r.accepts m w) = (decode m w).toList.map Instr.row

/-- R147: words written out from the encodings of the spec, one or more of each family. -/
def Obligations.SampleWordsDecode : Prop :=
  decode .basic 0o107000001000 = some (.la 0o16 0 ⟨0, false, false, 0o1000⟩) ∧
    decode .basic 0o107000001000 = decode .extended 0o107000001000 ∧
    decode .extended 0o011061400200 = some (.sa 2 3 ⟨1, true, false, 0o200⟩) ∧
    decode .extended 0o715420011000 = some (.dl 1 ⟨0, false, false, 0o11000⟩) ∧
    decode .basic 0o430000002000 = some (.mlu 0 0 ⟨0, false, false, 0o2000⟩) ∧
    decode .extended 0o734000000003 = some (.lssc 0 ⟨0, false, false, 3⟩) ∧
    decode .extended 0o077260011000 = some (.call ⟨0, false, false, 0o11000⟩) ∧
    decode .basic 0o077260011000 = none ∧
    decode .basic 0o743400000300 = some (.aaijB 0 ⟨0, false, false, 0o300⟩) ∧
    decode .extended 0o743400000300 = none ∧
    decode .extended 0o724400000077 = some (.er 0 ⟨0, false, false, 0o77⟩) ∧
    decode .extended 0o737540001014 = some (.halt ⟨0, false, false, 0o1014⟩)

/-! ## The instruction cycle -/

/-- R161: a step that fetches a word which decodes is the instruction's execution on the state with ENTRY cleared. -/
def Obligations.StepRunsTheDecodedInstruction : Prop :=
  ∀ (s : State) (w : Word) (i : Instr), s.Fetches w → decode s.mode w = some i →
    step s = exec i { s with entry := false }

/-- R149: a fetched word that matches no row of the current mode raises class 14, SSF 0, with the word in ISW0. -/
def Obligations.UndefinedWordsRaiseInvalidInstruction : Prop :=
  ∀ (s : State) (w : Word), s.Fetches w → (∀ r ∈ opcodeTable, r.accepts s.mode w = false) →
    step s = .next (({ s with entry := false } : State).enqueue ⟨14, 0, w, 0⟩)

/-- R110, R111, R112: the fetch goes through B0 in Extended mode and through the searched register in Basic mode, and
needs its limits and execute permission. -/
def Obligations.FetchReadsTheInstructionBank : Prop :=
  ∀ (s : State),
    (∀ (k : BaseIndex) (p : Permissions),
      ((s.mode = .extended ∧ k = 0 ∧ (s.base 0).Holds s.par.pc.toNat) ∨ (s.mode = .basic ∧ s.SearchTakes s.par.pc k)) →
      s.Granted (s.base k) p →
        (p.execute = false → s.fetchWord = .error (.interrupt ⟨8, 0o44, zext36 s.par.pc, k.setWidth 36⟩)) ∧
        (p.execute = true →
          (s.base k).base + (s.par.pc.toNat - (s.base k).lower.toNat) < s.params.memSize →
            s.fetchWord = .ok (s.mem.read ((s.base k).base + (s.par.pc.toNat - (s.base k).lower.toNat))))) ∧
    ((s.mode = .extended ∧ ¬(s.base 0).Holds s.par.pc.toNat) ∨
        (s.mode = .basic ∧ ∀ k ∈ [12, 13, 14, 15], ¬(s.base k).Holds s.par.pc.toNat) →
      s.fetchWord = .error (.interrupt ⟨8, 0o41, zext36 s.par.pc, 0⟩))

/-- R43, R112, R161, R162, R404, R413: a fetch violation enters PENDING and nothing else changes; on a handler's first
fetch the processor also halts, with the class being entered as the detail. That the halted processor keeps ENTRY = 1 is
the model's reading of R43 (log 25, DEDUCED): R413 does not speak of ENTRY. -/
def Obligations.FetchFaultsQueueOrHalt : Prop :=
  ∀ (s : State) (c : Cause), s.run = .running → s.selected = none → s.fetchWord = .error (.interrupt c) →
    (s.entry = false → step s = .next (s.enqueue c)) ∧
    ∀ a : SaveArea, s.entry = true → s.save = some a →
      step s = .next { s.enqueue c with
        run := .halted, stopReason := .interruptEntryFault, stopDetail := a.request.cause.cls.setWidth 18 }

/-! ## Interrupts -/

/-- R406: at a boundary the eligible request with the lowest class, and of those the one that arrived first, leaves
PENDING and is entered; with none eligible none is dispatched; and a held request stays in PENDING in every step. -/
def Obligations.DispatchTakesTheFirstEligible : Prop :=
  ∀ (s : State), s.run = .running →
    (∀ q ∈ s.pending.requests, (q.deferrable = false ∨ designatorBit s.dr 13 = true) →
      (∀ p ∈ s.pending.requests, (p.deferrable = false ∨ designatorBit s.dr 13 = true) → p ≠ q →
        q.cause.cls.toNat < p.cause.cls.toNat ∨ (q.cause.cls = p.cause.cls ∧ q.seq < p.seq)) →
      step s = .next
        (({ s with pending := { s.pending with requests := s.pending.requests.erase q } } : State).enter q)) ∧
    ((∀ q ∈ s.pending.requests, q.deferrable = true ∧ designatorBit s.dr 13 = false) → s.selected = none) ∧
    ∀ t : State, step s = .next t → designatorBit s.dr 13 = false →
      (s.pending.requests.filter (·.deferrable)).Sublist t.pending.requests

/-- R410: what interrupt entry does to every piece of state. -/
def Obligations.InterruptEntryEffects : Prop :=
  ∀ (s : State) (q : InterruptRequest), s.run = .running → s.selected = some q →
    ∃ t, step s = .next t ∧ t.save = some ⟨s.par, s.dr, s.base 0, q⟩ ∧ t.lastInterrupt = some q ∧
      (∀ n : Nat, n < 36 → designatorBit t.dr n =
        if n = 17 then true else if 13 ≤ n ∧ n ≤ 16 then false else designatorBit s.dr n) ∧
      t.base 0 = s.base 16 ∧ (∀ k : BaseIndex, k ≠ 0 → t.base k = s.base k) ∧
      t.par = ⟨s.params.intBankName, q.cause.cls.setWidth 18⟩ ∧ t.entry = true ∧
      t.pending = { s.pending with requests := s.pending.requests.erase q } ∧
      t.grs = s.grs ∧ t.key = s.key ∧ t.mem = s.mem ∧ t.bdt = s.bdt ∧ t.peers = s.peers ∧ t.params = s.params ∧
      t.run = s.run ∧ t.stopReason = s.stopReason ∧ t.stopDetail = s.stopDetail

/-- R162: where any instruction raises a fault (a class other than the signals' 12) its only effect is the request
added to PENDING, and no instruction but ER and SGNL adds a request in any other way; and whatever a step raises, from
the fetch on, leaves GRS, DR, PAR, the base registers and storage as they were. -/
def Obligations.AbandonedInstructionsOnlyQueue : Prop :=
  (∀ (i : Instr) (s t : State), exec i s = .next t → t.pending ≠ s.pending →
    ∃ c : Cause, t.pending = s.pending.enqueue c ∧ (c.cls ≠ 12 → t = s.enqueue c) ∧
      (c.cls = 12 → (∃ a o, i = .er a o) ∨ ∃ o, i = .sgnl o)) ∧
  ∀ s t : State, s.run = .running → s.selected = none → step s = .next t → t.pending ≠ s.pending →
    ∃ c : Cause, t.pending = s.pending.enqueue c ∧
      (c.cls ≠ 12 → t.grs = s.grs ∧ t.dr = s.dr ∧ t.par = s.par ∧ t.b = s.b ∧ t.mem = s.mem)

/-- R403: the classes and SSFs that an instruction can be abandoned with, and the instructions that can raise each
class; no reserved class or SSF is created. -/
def Obligations.OnlyTabledFaultsAreRaised : Prop :=
  ∀ (i : Instr) (s : State) (c : Cause), Abandons i s c →
    (c.cls = 8 ∧ (c.ssf = 1 ∨ c.ssf = 2 ∨ c.ssf = 3 ∨ c.ssf = 5)) ∨
    (c.cls = 9 ∧ c.ssf = 0 ∧ c.isw1 = 0 ∧ ∃ o, i = .call o ∨ i = .goto o ∨ i = .rtn o) ∨
    (c.cls = 11 ∧ c.ssf = 0 ∧ c.isw0 = zext36 (s.reg 0o140).low ∧ c.isw1 = 0 ∧ ∃ o, i = .call o ∨ i = .locl o) ∨
    (c.cls = 11 ∧ c.ssf = 1 ∧ c.isw0 = zext36 (s.reg 0o140).low ∧ c.isw1 = 0 ∧ ∃ o, i = .rtn o) ∨
    (c.cls = 14 ∧ c.ssf = 1 ∧ c.isw0 = encode i ∧ c.isw1 = 0 ∧ s.pp ≠ 0 ∧
      ((∃ a o, i = .aaijB a o) ∨ ∃ o, i = .aaijE o ∨ i = .paij o ∨ i = .halt o)) ∨
    (c.cls = 14 ∧ c.ssf = 2 ∧ c.isw0 = encode i ∧ c.isw1 = 0 ∧
      (i.operandFormOk = false ∨ (s.params.upiAbsentTarget = .fault ∧ ∃ o, i = .send o)))

/-! ## Invariants -/

/-- R47, R27, I5, R421: a processor just created: every piece of state that the spec gives a reset value has it, whatever
the parameters and the contents of the General Register Set are; and the processors that it can reach are itself and
those of PROCESSORS, each with an index of its own. -/
def Obligations.CreatedStateHasTheResetValues : Prop :=
  ∀ (g : Vector Word 128) (params : Params) (processors : List UpiIndex),
    let s := State.created g params processors
    (∀ k : BaseIndex, (s.base k).isVoid = true) ∧ s.dr = 0 ∧ s.mode = .extended ∧ s.pp = 0 ∧ s.execSet = false ∧
      s.key = ⟨0, 0⟩ ∧ s.pending.requests = [] ∧ s.save = none ∧ s.lastInterrupt = none ∧ s.entry = false ∧
      s.run = .idle ∧ s.stopReason = .none ∧ s.stopDetail = 0 ∧ s.grs = g ∧ s.params = params ∧
      (∀ i : UpiIndex, s.isProcessor i = true ↔ i = params.upiIndex ∨ i ∈ processors) ∧
      (params.upiIndex :: s.peers.map Peer.index).Nodup

/-- The invariant holds at creation, and so at reset, of every processor that has some storage: with MEM_SIZE 0 there is
no descriptor, since the base of one is less than MEM_SIZE (R35). -/
def Obligations.CreatedStateIsWellFormed : Prop :=
  State.reset.Wf ∧
    ∀ (g : Vector Word 128) (params : Params) (processors : List UpiIndex), 0 < params.memSize →
      (State.created g params processors).Wf

/-- Every step keeps the invariant `State.Wf`, from every state that has it. -/
def Obligations.StepKeepsWellFormed : Prop :=
  ∀ s t : State, s.Wf → step s = .next t → t.Wf

/-- Every host call that is not refused keeps the invariant `State.Wf`. -/
def Obligations.HostCallsKeepWellFormed : Prop :=
  ∀ (s t : State) (c : HostCall), s.Wf → hostCall c s = some t → t.Wf

/-- In a well-formed state every instruction ends in a next state: no operand, mode or privilege stops the machine. -/
def Obligations.EveryInstructionAnswersNext : Prop :=
  ∀ (s : State) (i : Instr), s.Wf → ∃ t, exec i s = .next t

/-- A processor that has been created, and then stepped and called by the host in any way, always steps. -/
def Obligations.ReachableStatesAlwaysStep : Prop :=
  ∀ s : State, Reachable s → ∃ t, step s = .next t

/-! ## Rules of the whole machine -/

/-- R32: a step changes DR only by interrupt entry (DB13 to DB17), by AAIJ or PAIJ (DB13) or by RTN (DB12 to DB17);
a host call only by a load. -/
def Obligations.DesignatorWriters : Prop :=
  (∀ (s t : State) (n : Nat), step s = .next t → n < 36 → designatorBit t.dr n ≠ designatorBit s.dr n →
    (s.Dispatches ∧ 13 ≤ n ∧ n ≤ 17) ∨
    ∃ i, s.Executes i ∧
      ((n = 13 ∧ ((∃ a o, i = .aaijB a o) ∨ ∃ o, i = .aaijE o ∨ i = .paij o)) ∨
        (12 ≤ n ∧ n ≤ 17 ∧ ∃ o, i = .rtn o))) ∧
  ∀ (s t : State) (c : HostCall), hostCall c s = some t → t.dr ≠ s.dr → ∃ l, c = .load l ∧ t.dr = l.initialDr

/-- R30, R38, R39, R316: a step changes no base register but B0, and B0 and PAR.BANK only by interrupt entry, CALL, GOTO
and RTN; it changes neither KEY nor the BDT nor a parameter; SAVE and lastInterrupt only by interrupt entry; and every
host call but a load keeps all of these. -/
def Obligations.BankAndControlWriters : Prop :=
  (∀ s t : State, step s = .next t →
    (∀ k : BaseIndex, k ≠ 0 → t.base k = s.base k) ∧ t.key = s.key ∧ t.bdt = s.bdt ∧ t.params = s.params ∧
    (t.base 0 ≠ s.base 0 ∨ t.par.bank ≠ s.par.bank →
      s.Dispatches ∨ ∃ o, s.Executes (.call o) ∨ s.Executes (.goto o) ∨ s.Executes (.rtn o)) ∧
    (t.save ≠ s.save ∨ t.lastInterrupt ≠ s.lastInterrupt → s.Dispatches)) ∧
  ∀ (s t : State) (c : HostCall), hostCall c s = some t → (∀ l, c ≠ .load l) →
    t.b = s.b ∧ t.par = s.par ∧ t.key = s.key ∧ t.bdt = s.bdt ∧ t.params = s.params ∧ t.save = s.save ∧
      t.lastInterrupt = s.lastInterrupt

/-- R97: with the user set selected at PP 2 or 3, no instruction changes a register of GRS 0120 to 0177, but for EX0's
modifier, which CALL, LOCL and RTN move (R310). -/
def Obligations.ProtectedRegistersAreKept : Prop :=
  ∀ (i : Instr) (s t : State), exec i s = .next t → 2 ≤ s.pp.toNat → s.execSet = false →
    ∀ k : GrsIndex, 0o120 ≤ k.toNat →
      t.reg k = s.reg k ∨
        (k = 0o140 ∧ (t.reg k).high = (s.reg k).high ∧ ∃ o, i = .call o ∨ i = .locl o ∨ i = .rtn o)

/-- R97, R416: with the user set selected at PP 2 or 3, no instruction's outcome depends on a register of GRS 0120 to
0177 other than EX0: two states that differ in those registers only go to states that differ in those only, with the
same contents as before. -/
def Obligations.ProtectedRegistersAreNotRead : Prop :=
  ∀ (i : Instr) (s s' t : State), 2 ≤ s.pp.toNat → s.execSet = false → { s with grs := s'.grs } = s' →
    (∀ k : GrsIndex, k.toNat < 0o120 ∨ k = 0o140 → s'.reg k = s.reg k) → exec i s = .next t →
    ∃ t', exec i s' = .next t' ∧ { t with grs := t'.grs } = t' ∧
      (∀ k : GrsIndex, k.toNat < 0o120 ∨ k = 0o140 → t'.reg k = t.reg k) ∧
      ∀ k : GrsIndex, 0o120 ≤ k.toNat → k ≠ 0o140 → t'.reg k = s'.reg k

/-- R107, R108, R310: a storage word that an instruction changes lies in a bank that a base register describes and
grants the key write permission in, or, for CALL and LOCL, in the Return Control Stack bank. -/
def Obligations.StoresNeedPermission : Prop :=
  ∀ (i : Instr) (s t : State) (a : Nat), s.mem.wf = true → exec i s = .next t → t.mem.read a ≠ s.mem.read a →
    (∃ (k : BaseIndex) (u : Nat) (p : Permissions), (s.base k).Holds u ∧ a = (s.base k).base + (u - (s.base k).lower.toNat) ∧
      s.Granted (s.base k) p ∧ p.write = true) ∨
    ((∃ o, i = .call o ∨ i = .locl o) ∧
      ∃ u : Nat, (s.base 25).Holds u ∧ a = (s.base 25).base + (u - (s.base 25).lower.toNat))

/-- R44, R161, R413, R423: a processor that does not run takes no step, and one that runs stops only by HALT or by a
failed first fetch of a handler. -/
def Obligations.OnlyHaltAndEntryFaultsStop : Prop :=
  ∀ s t : State, step s = .next t →
    (s.run ≠ .running → t = s) ∧
    (s.run = .running → t.run ≠ .running ∨ t.stopReason ≠ s.stopReason ∨ t.stopDetail ≠ s.stopDetail →
      t.run = .halted ∧
        ((t.stopReason = .debug ∧ s.pp = 0 ∧ ∃ o, s.Executes (.halt o)) ∨
          (t.stopReason = .interruptEntryFault ∧ s.entry = true ∧ ∃ c, s.fetchWord = .error (.interrupt c))))

/-! ## Registers, addresses and operands -/

/-- R23: the register that a 4-bit number names, and its successors modulo 128. -/
def Obligations.RegisterAliases : Prop :=
  ∀ (s : State) (n : BitVec 4) (k : Nat),
    (s.xIndex n).toNat = (if designatorBit s.dr 17 then 96 else 0) + n.toNat ∧
      (s.aIndex n).toNat = (if designatorBit s.dr 17 then 108 else 12) + n.toNat ∧
      (s.rIndex n).toNat = (if designatorBit s.dr 17 then 80 else 64) + n.toNat ∧
      (s.aIndex n + BitVec.ofNat 7 k).toNat = ((s.aIndex n).toNat + k) % 128

/-- R86, R11: `add18` adds ones'-complement values modulo 2^18 - 1; a sum in range is exact; and the result is negative
zero only for two negative zeros. -/
def Obligations.Add18IsOnesComplementAddition : Prop :=
  ∀ a b : RelAddr,
    (value18 (add18 a b) - (value18 a + value18 b)) % (2 ^ 18 - 1) = 0 ∧
      (-(2 ^ 17 - 1) ≤ value18 a + value18 b → value18 a + value18 b ≤ 2 ^ 17 - 1 →
        value18 (add18 a b) = value18 a + value18 b) ∧
      (add18 a b = 0o777777 ↔ a = 0o777777 ∧ b = 0o777777)

/-- R100, R101: the field of every partial-word designator that names a storage field (its lowest bit, width and
extension), and every bit of an extracted field. -/
def Obligations.ExtractFieldBits : Prop :=
  let entry (quarter : Bool) (j : Nat) : Nat × Nat × Bool :=
    ((wordField (BitVec.ofNat 4 j) quarter).lo, (wordField (BitVec.ofNat 4 j) quarter).width,
      (wordField (BitVec.ofNat 4 j) quarter).signed)
  ((List.range 0o16).map (entry false) =
        [(0, 36, false), (0, 18, false), (18, 18, false), (0, 18, true), (18, 18, true), (0, 12, true), (12, 12, true),
          (24, 12, true), (0, 6, false), (6, 6, false), (12, 6, false), (18, 6, false), (24, 6, false), (30, 6, false)] ∧
      (List.range 0o16).map (entry true) =
        [(0, 36, false), (0, 18, false), (18, 18, false), (0, 18, true), (18, 9, false), (0, 9, false), (9, 9, false),
          (27, 9, false), (0, 6, false), (6, 6, false), (12, 6, false), (18, 6, false), (24, 6, false),
          (30, 6, false)]) ∧
  ∀ (w : Word) (d : WordField) (k : Nat), k < 36 →
    (extractField w d).getLsbD k =
      if k < d.width then w.getLsbD (d.lo + k) else d.signed && w.getLsbD (d.lo + d.width - 1)

/-- R102: every bit of a word with a field inserted, and the round trip of insert and extract; XH1 inserts as H1 and XH2
as H2. -/
def Obligations.InsertFieldBits : Prop :=
  ∀ (w v : Word) (d : WordField),
    (∀ k : Nat, k < 36 → (insertField w d v).getLsbD k =
      if d.lo ≤ k ∧ k < d.lo + d.width then v.getLsbD (k - d.lo) else w.getLsbD k) ∧
    insertField w d (extractField w d) = w ∧ insertField w .w v = v ∧
    insertField w .xh1 v = insertField w .h1 v ∧ insertField w .xh2 v = insertField w .h2 v

/-- R103: the operand of j = 016 (U) and j = 017 (XU): bits 17:0 of the word without an index register, else the indexed
16-bit displacement with its increment; zero-extended, or sign-extended with -0 made +0; no reference is made. -/
def Obligations.ImmediateOperands : Prop :=
  ∀ (o : Operand) (s : State), ∃ (v : RelAddr) (t : State),
    (o.x = 0 → v.toNat = (if o.h then 2 ^ 17 else 0) + (if o.i then 2 ^ 16 else 0) + o.u.toNat ∧ t = s) ∧
    (o.x ≠ 0 → v = add18 (o.u.setWidth 18) (s.reg (s.xIndex o.x)).low ∧ IndexedFrom s t ∧
      (∀ k : GrsIndex, k ≠ s.xIndex o.x → t.reg k = s.reg k) ∧
      (t.reg (s.xIndex o.x)).low =
        if o.h then add18 (s.reg (s.xIndex o.x)).low (s.reg (s.xIndex o.x)).high
        else (s.reg (s.xIndex o.x)).low) ∧
    readOperand 0o16 o s = .ok (zext36 v, t) ∧
    readOperand 0o17 o s = .ok (if v = 0o777777 then 0 else v.signExtend 36, t)

/-- R91, R93, R94: the address of an operand that is not indirect, by its mode's displacement, and the increment of its
index register: the modifier takes the sum with the increment, which is kept. -/
def Obligations.IndexingAndAutoIncrement : Prop :=
  ∀ (o : Operand) (s : State) (d : RelAddr),
    (s.mode = .extended ∧ d = o.d.setWidth 18) ∨ (s.mode = .basic ∧ o.i = false ∧ d = o.u.setWidth 18) →
    (o.x = 0 → resolveAddress o s = .ok (d, s)) ∧
    (o.x ≠ 0 → ∃ t, resolveAddress o s = .ok (add18 d (s.reg (s.xIndex o.x)).low, t) ∧ IndexedFrom s t ∧
      (∀ k : GrsIndex, k ≠ s.xIndex o.x → t.reg k = s.reg k) ∧
      (t.reg (s.xIndex o.x)).high = (s.reg (s.xIndex o.x)).high ∧
      (t.reg (s.xIndex o.x)).low =
        if o.h then add18 (s.reg (s.xIndex o.x)).low (s.reg (s.xIndex o.x)).high
        else (s.reg (s.xIndex o.x)).low)

/-- R98, R99: a Basic-mode resolution follows the indirect chain, MAX_INDIRECT levels deep at most, and only that; it
raises a violation exactly where the read of an indirect word of the chain does: that violation, of class 8, with the
address of the indirect word in ISW0. -/
def Obligations.BasicResolutionFollowsTheChain : Prop :=
  ∀ (o : Operand) (s : State), s.mode = .basic →
    (∀ (t : State) (u : RelAddr), resolveAddress o s = .ok (u, t) ↔ Chain s.params.maxIndirect o s u t) ∧
    (∀ c : Cause, resolveAddress o s = .error (.interrupt c) ↔ ∃ u, ChainFaults s.params.maxIndirect o s u c) ∧
    ∀ (u : RelAddr) (c : Cause), ChainFaults s.params.maxIndirect o s u c → c.cls = 8 ∧ c.isw0 = zext36 u

/-- R96, R97: an address of the GRS window, in Extended mode with b = 0, is the register of that number, with no bank;
at PP 2 and 3 the registers 0120 to 0177 are a violation, which names the address (one word) or the register that is
not allowed (several words). -/
def Obligations.GrsWindowReferences : Prop :=
  ∀ (s : State) (kind : Access) (n : Nat) (o : Operand) (u : RelAddr),
    u.toNat ≤ 0o177 → (s.mode = .basic ∨ o.b = 0) →
    ((s.pp.toNat < 2 ∨ ∀ k : Nat, k < n → (u.toNat + k) % 128 < 0o120) →
      s.reference kind n o u = .ok (.grs (u.setWidth 7))) ∧
    (2 ≤ s.pp.toNat → n = 1 → 0o120 ≤ u.toNat →
      s.reference kind n o u = .error (.interrupt ⟨8, 5, zext36 u, 0⟩)) ∧
    (2 ≤ s.pp.toNat → (∃ k : Nat, k < n ∧ 0o120 ≤ (u.toNat + k) % 128) →
      ∃ k : Nat, k < n ∧ 0o120 ≤ (u.toNat + k) % 128 ∧
        s.reference kind n o u = .error (.interrupt ⟨8, 5, BitVec.ofNat 36 ((u.toNat + k) % 128), 0⟩))

/-- R92, R104 to R109, R113: a reference outside the GRS window takes its base register by the mode, and tests the limits
of each of its words and then, once, the permission that its kind needs; the first that fails is reported. -/
def Obligations.StorageReferenceTests : Prop :=
  ∀ (s : State) (kind : Access) (n : Nat) (o : Operand) (u : RelAddr), 0 < n →
    ¬(u.toNat ≤ 0o177 ∧ (s.mode = .basic ∨ o.b = 0)) →
    (∀ (k : BaseIndex) (p : Permissions),
      ((s.mode = .basic ∧ s.SearchTakes u k) ∨
        (s.mode = .extended ∧ k.toNat = o.b.toNat +
          if (s.params.extBaseSelect = .db17 ∧ designatorBit s.dr 17 = true) ∨
            (s.params.extBaseSelect = .iAndPp ∧ o.i = true ∧ s.pp.toNat < 2) then 16 else 0)) →
      s.Granted (s.base k) p →
      (∀ m : Nat, m < n → ¬(s.base k).Holds (u.toNat + m) → (∀ m' : Nat, m' < m → (s.base k).Holds (u.toNat + m')) →
        s.reference kind n o u = .error (.interrupt ⟨8, 1, BitVec.ofNat 36 (u.toNat + m), k.setWidth 36⟩)) ∧
      ((∀ m : Nat, m < n → (s.base k).Holds (u.toNat + m)) →
        (kind = .read → p.read = false →
          s.reference kind n o u = .error (.interrupt ⟨8, 2, zext36 u, k.setWidth 36⟩)) ∧
        (kind = .write → p.write = false →
          s.reference kind n o u = .error (.interrupt ⟨8, 3, zext36 u, k.setWidth 36⟩)) ∧
        (kind = .check ∨ (kind = .read ∧ p.read = true) ∨ (kind = .write ∧ p.write = true) →
          s.reference kind n o u = .ok (.mem k u) ∧
            ∀ m : Nat, s.absolute k u m = (s.base k).base + (u.toNat + m - (s.base k).lower.toNat)))) ∧
    (s.mode = .basic → (∀ k ∈ [12, 13, 14, 15], ¬(s.base k).Holds u.toNat) →
      s.reference kind n o u = .error (.interrupt ⟨8, 1, zext36 u, 0⟩))

/-- R114: the operand of a partial-word instruction is the extracted field of the word at its reference, and the
violation of its resolution where that fails. A resolution, of any kind and any number of words, is the address and then
its reference: it answers what the two answer, and fails where one of them fails, with that failure (R90). -/
def Obligations.OperandsAreFieldsOfTheWord : Prop :=
  (∀ (kind : Access) (n : Nat) (o : Operand) (s : State),
    (∀ (r : Ref) (t : State), resolve kind n o s = .ok (r, t) ↔
      ∃ u, resolveAddress o s = .ok (u, t) ∧ t.reference kind n o u = .ok r) ∧
    ∀ e : Abort, resolve kind n o s = .error e ↔
      resolveAddress o s = .error e ∨ ∃ u t, resolveAddress o s = .ok (u, t) ∧ t.reference kind n o u = .error e) ∧
  ∀ (j : BitVec 4) (o : Operand) (s : State), j ≠ 0o16 → j ≠ 0o17 →
    (∀ (t : State) (r : Ref), t.HasStorage r 1 →
      (∃ u, resolveAddress o s = .ok (u, t) ∧ t.reference .read 1 o u = .ok r) →
      readOperand j o s = .ok (extractField (t.wordAt r 0) (wordField j (designatorBit s.dr 32)), t)) ∧
    ∀ e : Abort, resolve .read 1 o s = .error e → readOperand j o s = .error e

/-! ## Loads and stores -/

/-- R204 to R211: the one-word loads complete, and only their register changes, beside the increments of the address. -/
def Obligations.LoadsComplete : Prop :=
  ∀ (j a : BitVec 4) (o : Operand) (s t : State) (op : Word), readOperand j o s = .ok (op, t) →
    CompletesInRegisters (.la j a o) s t [(s.aIndex a, op)] ∧
    CompletesInRegisters (.lna j a o) s t [(s.aIndex a, ~~~op)] ∧
    CompletesInRegisters (.lma j a o) s t [(s.aIndex a, if op.msb then ~~~op else op)] ∧
    CompletesInRegisters (.lnma j a o) s t [(s.aIndex a, if op.msb then op else ~~~op)] ∧
    CompletesInRegisters (.lr j a o) s t [(s.rIndex a, op)] ∧
    CompletesInRegisters (.lx j a o) s t [(s.xIndex a, op)] ∧
    CompletesInRegisters (.lxm j a o) s t [(s.xIndex a, Word.ofHalves (t.reg (s.xIndex a)).high op.low)] ∧
    CompletesInRegisters (.lxi j a o) s t [(s.xIndex a, Word.ofHalves op.low (t.reg (s.xIndex a)).low)]

/-- R212, R233: DL loads the two words of its reference, both read before either register is written; DS stores A(a) and
A(a)+1, both read before the address is resolved, which is the order of R233's own pseudocode (log 13). -/
def Obligations.DoubleWordInstructionsComplete : Prop :=
  ∀ (a : BitVec 4) (o : Operand) (s t : State) (r : Ref), t.HasStorage r 2 →
    (resolve .read 2 o s = .ok (r, t) →
      CompletesInRegisters (.dl a o) s t [(s.aIndex a, t.wordAt r 0), (s.aIndex a + 1, t.wordAt r 1)]) ∧
    (resolve .write 2 o s = .ok (r, t) → s.mem.wf = true →
      CompletesInStore (.ds a o) s t r [s.reg (s.aIndex a), s.reg (s.aIndex a + 1)])

/-- R213, R234: LAQW loads the quarter that bits 31:30 of its index register select, zero-extended; SAQW replaces that
quarter by the low 9 bits of A(a). -/
def Obligations.QuarterWordInstructionsComplete : Prop :=
  ∀ (a : BitVec 4) (o : Operand) (s t : State) (r : Ref), o.x ≠ 0 → t.HasStorage r 1 →
    let q := ((s.reg (s.xIndex o.x)).extractLsb' 30 2).toNat
    (resolve .read 1 o s = .ok (r, t) →
      CompletesInRegisters (.laqw a o) s t [(s.aIndex a, (t.wordAt r 0 >>> (27 - 9 * q)) &&& 0o777)]) ∧
    (resolve .write 1 o s = .ok (r, t) → s.mem.wf = true →
      CompletesInStore (.saqw a o) s t r
        [(t.wordAt r 0 &&& ~~~((0o777 : Word) <<< (27 - 9 * q))) |||
          ((t.reg (s.aIndex a) &&& 0o777) <<< (27 - 9 * q))])

/-- R214: LRS loads the registers that A(a) names, the later of two that meet in one register winning; with none named
it makes no reference. -/
def Obligations.LoadRegisterSetCompletes : Prop :=
  ∀ (a : BitVec 4) (o : Operand) (s : State),
    let d := s.reg (s.aIndex a)
    let c1 := (d.extractLsb' 9 7).toNat
    let c2 := (d.extractLsb' 27 7).toNat
    let target (m : Nat) : GrsIndex :=
      if m < c1 then d.extractLsb' 0 7 + BitVec.ofNat 7 m else d.extractLsb' 18 7 + BitVec.ofNat 7 (m - c1)
    (c1 + c2 = 0 → CompletesInRegisters (.lrs a o) s s []) ∧
    ∀ (t : State) (r : Ref), 0 < c1 + c2 →
      (s.pp.toNat < 2 ∨ ∀ m : Nat, m < c1 + c2 → (target m).toNat < 0o120) →
      resolve .read (c1 + c2) o s = .ok (r, t) → t.HasStorage r (c1 + c2) →
      ∃ s', exec (.lrs a o) s = .next s' ∧ IndexedFrom s t ∧ Advanced s s' ∧ SameStorage s s' ∧ SameControl s s' ∧
        (∀ m : Nat, m < c1 + c2 → (∀ m' : Nat, m < m' → m' < c1 + c2 → target m' ≠ target m) →
          s'.reg (target m) = t.wordAt r m) ∧
        ∀ k : GrsIndex, (∀ m : Nat, m < c1 + c2 → k ≠ target m) → s'.reg k = t.reg k

/-- R201, R220 to R232: the one-word stores complete, and only the selected field of the word at their reference
changes, beside the increments of the address. -/
def Obligations.StoresComplete : Prop :=
  ∀ (j a : BitVec 4) (o : Operand) (s t : State) (r : Ref), j ≠ 0o16 → j ≠ 0o17 →
    resolve .write 1 o s = .ok (r, t) → t.HasStorage r 1 → s.mem.wf = true →
    let put (v : Word) : List Word := [insertField (t.wordAt r 0) (wordField j (designatorBit s.dr 32)) v]
    let v := t.reg (s.aIndex a)
    CompletesInStore (.sa j a o) s t r (put v) ∧
    CompletesInStore (.sna j a o) s t r (put (~~~v)) ∧
    CompletesInStore (.sma j a o) s t r (put (if v.msb then ~~~v else v)) ∧
    CompletesInStore (.sr j a o) s t r (put (t.reg (s.rIndex a))) ∧
    CompletesInStore (.sx j a o) s t r (put (t.reg (s.xIndex a))) ∧
    CompletesInStore (.sz j o) s t r (put 0) ∧
    CompletesInStore (.snz j o) s t r (put 0o777777777777) ∧
    CompletesInStore (.sp1 j o) s t r (put 1) ∧
    CompletesInStore (.sn1 j o) s t r (put 0o777777777776) ∧
    CompletesInStore (.sfs j o) s t r (put 0o050505050505) ∧
    CompletesInStore (.sfz j o) s t r (put 0o606060606060) ∧
    CompletesInStore (.sas j o) s t r (put 0o040040040040) ∧
    CompletesInStore (.saz j o) s t r (put 0o060060060060)

/-- R235: SRS stores the registers that A(a) names, all read before the address is resolved, which is the order of R235's
own pseudocode (log 13); with none named it makes no reference. -/
def Obligations.StoreRegisterSetCompletes : Prop :=
  ∀ (a : BitVec 4) (o : Operand) (s : State),
    let d := s.reg (s.aIndex a)
    let c1 := (d.extractLsb' 9 7).toNat
    let c2 := (d.extractLsb' 27 7).toNat
    let source (m : Nat) : GrsIndex :=
      if m < c1 then d.extractLsb' 0 7 + BitVec.ofNat 7 m else d.extractLsb' 18 7 + BitVec.ofNat 7 (m - c1)
    (c1 + c2 = 0 → CompletesInRegisters (.srs a o) s s []) ∧
    ∀ (t : State) (r : Ref), 0 < c1 + c2 →
      (s.pp.toNat < 2 ∨ ∀ m : Nat, m < c1 + c2 → (source m).toNat < 0o120) →
      resolve .write (c1 + c2) o s = .ok (r, t) → t.HasStorage r (c1 + c2) → s.mem.wf = true →
      CompletesInStore (.srs a o) s t r ((List.range (c1 + c2)).map fun m => s.reg (source m))

/-! ## Logical instructions and shifts -/

/-- R261 to R264: the logical instructions complete with their result in A(a)+1 and A(a) unchanged. -/
def Obligations.LogicalInstructionsComplete : Prop :=
  ∀ (j a : BitVec 4) (o : Operand) (s t : State) (op : Word), readOperand j o s = .ok (op, t) →
    let v := t.reg (s.aIndex a)
    let m := t.reg (s.rIndex 2)
    CompletesInRegisters (.orA j a o) s t [(s.aIndex a + 1, v ||| op)] ∧
    CompletesInRegisters (.xorA j a o) s t [(s.aIndex a + 1, v ^^^ op)] ∧
    CompletesInRegisters (.andA j a o) s t [(s.aIndex a + 1, v &&& op)] ∧
    CompletesInRegisters (.mlu j a o) s t [(s.aIndex a + 1, (op &&& m) ||| (v &&& ~~~m))]

/-- R280 to R290: the ten shifts complete, by the count in bits 6:0 of the resolved address, on A(a) or on the 72 bits of
A(a) and A(a)+1. -/
def Obligations.ShiftsComplete : Prop :=
  ∀ (a : BitVec 4) (o : Operand) (s t : State) (u : RelAddr), resolveAddress o s = .ok (u, t) →
    let c := u.toNat % 128
    let v : BitVec 36 := t.reg (s.aIndex a)
    let d : BitVec 72 := t.reg (s.aIndex a) ++ t.reg (s.aIndex a + 1)
    let pair (e : BitVec 72) : List (GrsIndex × Word) :=
      [(s.aIndex a, e.extractLsb' 36 36), (s.aIndex a + 1, e.extractLsb' 0 36)]
    CompletesInRegisters (.ssc a o) s t [(s.aIndex a, v.rotateRight c)] ∧
    CompletesInRegisters (.dsc a o) s t (pair (d.rotateRight c)) ∧
    CompletesInRegisters (.ssl a o) s t [(s.aIndex a, BitVec.ofNat 36 (v.toNat / 2 ^ c))] ∧
    CompletesInRegisters (.dsl a o) s t (pair (BitVec.ofNat 72 (d.toNat / 2 ^ c))) ∧
    CompletesInRegisters (.ssa a o) s t [(s.aIndex a, BitVec.ofInt 36 (v.toInt / 2 ^ c))] ∧
    CompletesInRegisters (.dsa a o) s t (pair (BitVec.ofInt 72 (d.toInt / 2 ^ c))) ∧
    CompletesInRegisters (.lssc a o) s t [(s.aIndex a, v.rotateLeft c)] ∧
    CompletesInRegisters (.ldsc a o) s t (pair (d.rotateLeft c)) ∧
    CompletesInRegisters (.lssl a o) s t [(s.aIndex a, BitVec.ofNat 36 (v.toNat * 2 ^ c))] ∧
    CompletesInRegisters (.ldsl a o) s t (pair (BitVec.ofNat 72 (d.toNat * 2 ^ c)))

/-- R291: LSC loads its operand rotated left by the least count that makes the top two bits differ, and the count; an
operand of +0 or -0 is unchanged and counts 35. -/
def Obligations.LoadShiftAndCountCompletes : Prop :=
  ∀ (a : BitVec 4) (o : Operand) (s t : State) (r : Ref), resolve .read 1 o s = .ok (r, t) → t.HasStorage r 1 →
    let w := t.wordAt r 0
    (w = 0 ∨ w = 0o777777777777 → CompletesInRegisters (.lsc a o) s t [(s.aIndex a, w), (s.aIndex a + 1, 35)]) ∧
    (w ≠ 0 → w ≠ 0o777777777777 → ∃ k : Nat, k ≤ 34 ∧
      (w.rotateLeft k).getLsbD 35 ≠ (w.rotateLeft k).getLsbD 34 ∧
      (∀ m : Nat, m < k → (w.rotateLeft m).getLsbD 35 = (w.rotateLeft m).getLsbD 34) ∧
      CompletesInRegisters (.lsc a o) s t [(s.aIndex a, w.rotateLeft k), (s.aIndex a + 1, BitVec.ofNat 36 k)])

/-- R292: DLSC does the same with two words as one of 72 bits; +0 and -0 count 71. -/
def Obligations.DoubleLoadShiftAndCountCompletes : Prop :=
  ∀ (a : BitVec 4) (o : Operand) (s t : State) (r : Ref), resolve .read 2 o s = .ok (r, t) → t.HasStorage r 2 →
    let d : BitVec 72 := t.wordAt r 0 ++ t.wordAt r 1
    let result (e : BitVec 72) (k : Nat) : List (GrsIndex × Word) :=
      [(s.aIndex a, e.extractLsb' 36 36), (s.aIndex a + 1, e.extractLsb' 0 36), (s.aIndex a + 2, BitVec.ofNat 36 k)]
    (d = 0 ∨ d = BitVec.allOnes 72 → CompletesInRegisters (.dlsc a o) s t (result d 71)) ∧
    (d ≠ 0 → d ≠ BitVec.allOnes 72 → ∃ k : Nat, k ≤ 70 ∧
      (d.rotateLeft k).getLsbD 71 ≠ (d.rotateLeft k).getLsbD 70 ∧
      (∀ m : Nat, m < k → (d.rotateLeft m).getLsbD 71 = (d.rotateLeft m).getLsbD 70) ∧
      CompletesInRegisters (.dlsc a o) s t (result (d.rotateLeft k) k))

/-! ## Procedure control -/

/-- R317, R311, R312: CALL pushes the frame (return bank and offset, DB12 to DB17) below the pointer and goes to the bank
and offset of its operand, with B0 from the BDT. -/
def Obligations.CallCompletes : Prop :=
  ∀ (o : Operand) (s t : State) (r : Ref) (d : Descriptor), resolve .read 1 o s = .ok (r, t) → t.HasStorage r 1 →
    findBank (t.wordAt r 0).high s.bdt = some d → s.mem.wf = true →
    let stack := s.base 25
    let p := (s.reg 0o140).low
    let top := stack.base + (p.toNat - 2 - stack.lower.toNat)
    stack.isVoid = false → stack.lower.toNat + 2 ≤ p.toNat → p.toNat ≤ stack.upper.toNat + 1 →
    top + 1 < s.params.memSize →
    ∃ s', exec (.call o) s = .next s' ∧ IndexedFrom s t ∧
      s'.par = ⟨(t.wordAt r 0).high, (t.wordAt r 0).low⟩ ∧ s'.base 0 = d ∧ SameOutsideTransfer s s' ∧
      PointerMoved t s' (p - 2) ∧
      s'.mem.read top = Word.ofHalves s.par.bank (s.par.pc + 1) ∧
      s'.mem.read (top + 1) = s.dr &&& 0o000077000000 ∧
      ∀ x : Nat, x ≠ top → x ≠ top + 1 → s'.mem.read x = s.mem.read x

/-- R318: LOCL pushes the same frame and jumps within the current bank. -/
def Obligations.LocalCallCompletes : Prop :=
  ∀ (o : Operand) (s t : State) (u : RelAddr), resolveAddress o s = .ok (u, t) → s.mem.wf = true →
    let stack := s.base 25
    let p := (s.reg 0o140).low
    let top := stack.base + (p.toNat - 2 - stack.lower.toNat)
    stack.isVoid = false → stack.lower.toNat + 2 ≤ p.toNat → p.toNat ≤ stack.upper.toNat + 1 →
    top + 1 < s.params.memSize →
    ∃ s', exec (.locl o) s = .next s' ∧ IndexedFrom s t ∧ s'.par = ⟨s.par.bank, u⟩ ∧ SameControl s s' ∧
      PointerMoved t s' (p - 2) ∧
      s'.mem.read top = Word.ofHalves s.par.bank (s.par.pc + 1) ∧
      s'.mem.read (top + 1) = s.dr &&& 0o000077000000 ∧
      ∀ x : Nat, x ≠ top → x ≠ top + 1 → s'.mem.read x = s.mem.read x

/-- R319: GOTO goes to the bank and offset of its operand, with B0 from the BDT and the stack untouched. -/
def Obligations.GotoCompletes : Prop :=
  ∀ (o : Operand) (s t : State) (r : Ref) (d : Descriptor), resolve .read 1 o s = .ok (r, t) → t.HasStorage r 1 →
    findBank (t.wordAt r 0).high s.bdt = some d →
    ∃ s', exec (.goto o) s = .next s' ∧ IndexedFrom s t ∧
      s'.par = ⟨(t.wordAt r 0).high, (t.wordAt r 0).low⟩ ∧ s'.base 0 = d ∧ SameOutsideTransfer s s' ∧
      SameStorage s s' ∧ ∀ k : GrsIndex, s'.reg k = t.reg k

/-- R323, R313: RTN takes bank, offset and DB12 to DB17 from the frame at the pointer, and moves the pointer up. -/
def Obligations.ReturnCompletes : Prop :=
  ∀ (o : Operand) (s : State) (d : Descriptor),
    let stack := s.base 25
    let p := (s.reg 0o140).low
    let top := stack.base + (p.toNat - stack.lower.toNat)
    stack.isVoid = false → stack.lower.toNat ≤ p.toNat → p.toNat + 1 ≤ stack.upper.toNat →
    top + 1 < s.params.memSize → findBank (s.mem.read top).high s.bdt = some d →
    ∃ s', exec (.rtn o) s = .next s' ∧
      s'.par = ⟨(s.mem.read top).high, (s.mem.read top).low⟩ ∧ s'.base 0 = d ∧
      (∀ n : Nat, n < 36 → designatorBit s'.dr n =
        if 12 ≤ n ∧ n ≤ 17 then designatorBit (s.mem.read (top + 1)) n else designatorBit s.dr n) ∧
      SameOutsideTransfer { s with dr := s'.dr } s' ∧ SameStorage s s' ∧ PointerMoved s s' (p + 2)

/-- R322: after a CALL or LOCL that completes, an RTN in any later state that has the pointer, B25, the BDT and the frame's
two words as the call left them returns to the word after the call, in the caller's bank, with the caller's DB12 to
DB17 and stack pointer. -/
def Obligations.ReturnRestoresTheCall : Prop :=
  ∀ (i : Instr) (o : Operand) (s s' u v : State), (∃ p : Operand, i = .call p ∨ i = .locl p) → s.mem.wf = true →
    exec i s = .next s' → s'.pending = s.pending →
    u.base 25 = s'.base 25 → u.reg 0o140 = s'.reg 0o140 → u.bdt = s'.bdt →
    (∀ m : Nat, m < 2 → u.mem.read ((u.base 25).base + ((u.reg 0o140).low.toNat + m - (u.base 25).lower.toNat)) =
      s'.mem.read ((u.base 25).base + ((u.reg 0o140).low.toNat + m - (u.base 25).lower.toNat))) →
    exec (.rtn o) u = .next v → v.pending = u.pending →
    v.par = ⟨s.par.bank, s.par.pc + 1⟩ ∧ findBank s.par.bank s.bdt = some (v.base 0) ∧
      (∀ n : Nat, 12 ≤ n → n ≤ 17 → designatorBit v.dr n = designatorBit s.dr n) ∧
      (v.reg 0o140).low = (s.reg 0o140).low

/-- R312, R313, R316: without room for a frame CALL and LOCL raise class 11, SSF 0, without a frame RTN SSF 1; a bank
name that the BDT does not hold raises class 9, before CALL's push and after RTN's pop; nothing else changes. -/
def Obligations.StackAndBankFaults : Prop :=
  ∀ (o : Operand) (s : State),
    let stack := s.base 25
    let p := (s.reg 0o140).low
    let top := stack.base + (p.toNat - stack.lower.toNat)
    let full := stack.isVoid = true ∨ p.toNat < stack.lower.toNat + 2 ∨ stack.upper.toNat + 1 < p.toNat
    let empty := stack.isVoid = true ∨ p.toNat < stack.lower.toNat ∨ stack.upper.toNat < p.toNat + 1
    (∀ (t : State) (r : Ref), resolve .read 1 o s = .ok (r, t) → t.HasStorage r 1 →
      (findBank (t.wordAt r 0).high s.bdt = none →
        Abandons (.call o) s ⟨9, 0, zext36 (t.wordAt r 0).high, 0⟩ ∧
        Abandons (.goto o) s ⟨9, 0, zext36 (t.wordAt r 0).high, 0⟩) ∧
      (findBank (t.wordAt r 0).high s.bdt ≠ none → full → Abandons (.call o) s ⟨11, 0, zext36 p, 0⟩)) ∧
    (∀ (t : State) (u : RelAddr), resolveAddress o s = .ok (u, t) → full →
      Abandons (.locl o) s ⟨11, 0, zext36 p, 0⟩) ∧
    (empty → Abandons (.rtn o) s ⟨11, 1, zext36 p, 0⟩) ∧
    (¬empty → top + 1 < s.params.memSize → findBank (s.mem.read top).high s.bdt = none →
      Abandons (.rtn o) s ⟨9, 0, zext36 (s.mem.read top).high, 0⟩)

/-- R324, R325: at PP 0, AAIJ sets DB13 and PAIJ clears it, and both jump within the current bank. -/
def Obligations.InterruptEnableJumpsComplete : Prop :=
  ∀ (i : Instr) (o : Operand) (s t : State) (u : RelAddr) (enabled : Bool), s.pp = 0 →
    resolveAddress o s = .ok (u, t) →
    (enabled = true ∧ (i = .aaijE o ∨ ∃ a, i = .aaijB a o)) ∨ (enabled = false ∧ i = .paij o) →
    ∃ s', exec i s = .next s' ∧ IndexedFrom s t ∧ s'.par = ⟨s.par.bank, u⟩ ∧
      (∀ n : Nat, n < 36 → designatorBit s'.dr n = if n = 13 then enabled else designatorBit s.dr n) ∧
      SameControl { s with dr := s'.dr } s' ∧ SameStorage s s' ∧ ∀ k : GrsIndex, s'.reg k = t.reg k

/-! ## Signals and special instructions -/

/-- R340 to R342: ER and SGNL complete, and then add a request of class 12 with the resolved address. -/
def Obligations.SignalsComplete : Prop :=
  ∀ (i : Instr) (o : Operand) (s t : State) (u : RelAddr) (ssf : BitVec 6), resolveAddress o s = .ok (u, t) →
    (ssf = 0 ∧ ∃ a, i = .er a o) ∨ (ssf = 1 ∧ i = .sgnl o) →
    ∃ s', exec i s = .next s' ∧ IndexedFrom s t ∧ Advanced s s' ∧
      s'.pending.requests = s.pending.requests ++ [⟨⟨12, ssf, zext36 u, 0⟩, false, s.pending.nextSeq⟩] ∧
      SameControl { s with pending := s'.pending } s' ∧ SameStorage s s' ∧ ∀ k : GrsIndex, s'.reg k = t.reg k

/-- R350: NOP resolves its operand and, if that raises nothing, only advances. -/
def Obligations.NoOperationCompletes : Prop :=
  ∀ (a : BitVec 4) (o : Operand) (s t : State) (r : Ref), resolve .check 1 o s = .ok (r, t) →
    CompletesInRegisters (.nopE o) s t [] ∧ CompletesInRegisters (.nopB a o) s t []

/-- R352: SEND to oneself only advances; to another processor it adds a deferrable request of class 31 with the sender's
index there; to no processor it does what UPI_ABSENT_TARGET says. That the target's next arrival number rises by exactly
1 is the model's choice (log 7, DESIGN CHOICE): R401 asks only for a larger number. -/
def Obligations.SendCompletes : Prop :=
  ∀ (o : Operand) (s t : State) (u : RelAddr), resolveAddress o s = .ok (u, t) →
    (u = s.params.upiIndex → CompletesInRegisters (.send o) s t []) ∧
    (u ≠ s.params.upiIndex → (∃ p ∈ s.peers, p.index = u) →
      ∃ s', exec (.send o) s = .next s' ∧ IndexedFrom s t ∧ Advanced s s' ∧
        s'.peers.length = s.peers.length ∧
        (∀ (n : Nat) (p : Peer), s.peers[n]? = some p → ∃ p', s'.peers[n]? = some p' ∧ p'.index = p.index ∧
          (p.index ≠ u → p' = p) ∧
          (p.index = u → p'.pending.nextSeq = p.pending.nextSeq + 1 ∧ p'.pending.requests =
            p.pending.requests ++ [⟨⟨31, 0, zext36 s.params.upiIndex, 0⟩, true, p.pending.nextSeq⟩])) ∧
        SameControl { s with peers := s'.peers } s' ∧ SameStorage s s' ∧ ∀ k : GrsIndex, s'.reg k = t.reg k) ∧
    (u ≠ s.params.upiIndex → (∀ p ∈ s.peers, p.index ≠ u) →
      (s.params.upiAbsentTarget = .ignore → CompletesInRegisters (.send o) s t []) ∧
      (s.params.upiAbsentTarget = .fault → Abandons (.send o) s ⟨14, 2, encode (.send o), 0⟩))

/-- R356: at PP 0, HALT advances and halts with reason `Debug` and the resolved address as the detail. -/
def Obligations.HaltCompletes : Prop :=
  ∀ (o : Operand) (s t : State) (u : RelAddr), s.pp = 0 → resolveAddress o s = .ok (u, t) →
    ∃ s', exec (.halt o) s = .next s' ∧ IndexedFrom s t ∧ Advanced s s' ∧ s'.run = .halted ∧ s'.stopReason = .debug ∧
      s'.stopDetail = u ∧
      SameControl { s with run := s'.run, stopReason := s'.stopReason, stopDetail := s'.stopDetail } s' ∧
      SameStorage s s' ∧ ∀ k : GrsIndex, s'.reg k = t.reg k

/-! ## Traps -/

/-- R203, R213, R234, R324, R325, R356, R405: an instruction that needs PP 0 raises class 14, SSF 1, elsewhere, and one
with a forbidden operand form raises SSF 2, before any address is resolved, with the fetched word in ISW0. -/
def Obligations.PrivilegeAndFormFaults : Prop :=
  ∀ (s : State) (w : Word) (i : Instr), s.Fetches w → decode s.mode w = some i →
    (((∃ a o, i = .aaijB a o) ∨ ∃ o, i = .aaijE o ∨ i = .paij o ∨ i = .halt o) → s.pp ≠ 0 →
      step s = .next (({ s with entry := false } : State).enqueue ⟨14, 1, w, 0⟩)) ∧
    (((∃ j a o, (j = 0o16 ∨ j = 0o17) ∧
        (i = .sa j a o ∨ i = .sna j a o ∨ i = .sma j a o ∨ i = .sr j a o ∨ i = .sx j a o ∨ i = .sz j o ∨ i = .snz j o ∨
          i = .sp1 j o ∨ i = .sn1 j o ∨ i = .sfs j o ∨ i = .sfz j o ∨ i = .sas j o ∨ i = .saz j o)) ∨
      ∃ a o, o.x = 0 ∧ (i = .laqw a o ∨ i = .saqw a o)) →
      step s = .next (({ s with entry := false } : State).enqueue ⟨14, 2, w, 0⟩))

/-- R109, R162, R200, R201, R214, R235, R260, R280: a violation that the resolution of an operand raises is what the
instruction is abandoned with; for LRS and SRS, a violation of the reference of as many words as A(a) names registers,
where they are all allowed. -/
def Obligations.OperandFaultsAbandon : Prop :=
  ∀ (j a : BitVec 4) (o : Operand) (s : State) (c : Cause),
    (readOperand j o s = .error (.interrupt c) →
      ∀ i ∈ [Instr.la j a o, .lna j a o, .lma j a o, .lnma j a o, .lr j a o, .lx j a o, .lxm j a o, .lxi j a o,
        .orA j a o, .xorA j a o, .andA j a o, .mlu j a o], Abandons i s c) ∧
    (resolve .write 1 o s = .error (.interrupt c) → j ≠ 0o16 → j ≠ 0o17 →
      ∀ i ∈ [Instr.sa j a o, .sna j a o, .sma j a o, .sr j a o, .sx j a o, .sz j o, .snz j o, .sp1 j o, .sn1 j o,
        .sfs j o, .sfz j o, .sas j o, .saz j o], Abandons i s c) ∧
    (resolve .read 1 o s = .error (.interrupt c) →
      Abandons (.lsc a o) s c ∧ Abandons (.call o) s c ∧ Abandons (.goto o) s c ∧
        (o.x ≠ 0 → Abandons (.laqw a o) s c)) ∧
    (resolve .write 1 o s = .error (.interrupt c) → o.x ≠ 0 → Abandons (.saqw a o) s c) ∧
    (resolve .read 2 o s = .error (.interrupt c) → Abandons (.dl a o) s c ∧ Abandons (.dlsc a o) s c) ∧
    (resolve .write 2 o s = .error (.interrupt c) → Abandons (.ds a o) s c) ∧
    (resolve .check 1 o s = .error (.interrupt c) → Abandons (.nopE o) s c ∧ Abandons (.nopB a o) s c) ∧
    (resolveAddress o s = .error (.interrupt c) →
      ∀ i ∈ [Instr.ssc a o, .dsc a o, .ssl a o, .dsl a o, .ssa a o, .dsa a o, .lssc a o, .ldsc a o, .lssl a o,
        .ldsl a o, .er a o, .sgnl o, .send o, .locl o], Abandons i s c) ∧
    (resolveAddress o s = .error (.interrupt c) → s.pp = 0 →
      ∀ i ∈ [Instr.aaijB a o, .aaijE o, .paij o, .halt o], Abandons i s c) ∧
    let d := s.reg (s.aIndex a)
    let c1 := (d.extractLsb' 9 7).toNat
    let c2 := (d.extractLsb' 27 7).toNat
    0 < c1 + c2 →
    (s.pp.toNat < 2 ∨ ((∀ m : Nat, m < c1 → ((d.extractLsb' 0 7).toNat + m) % 128 < 0o120) ∧
      ∀ m : Nat, m < c2 → ((d.extractLsb' 18 7).toNat + m) % 128 < 0o120)) →
      (resolve .read (c1 + c2) o s = .error (.interrupt c) → Abandons (.lrs a o) s c) ∧
      (resolve .write (c1 + c2) o s = .error (.interrupt c) → Abandons (.srs a o) s c)

/-- R214, R235, R405: LRS and SRS that name a protected register at PP 2 or 3 raise class 8, SSF 5, with such a register
in ISW0, before their address is resolved. -/
def Obligations.RegisterSetPrivilegeFaults : Prop :=
  ∀ (a : BitVec 4) (o : Operand) (s : State), 2 ≤ s.pp.toNat →
    let d := s.reg (s.aIndex a)
    let named (k : Nat) : Prop :=
      (∃ m : Nat, m < (d.extractLsb' 9 7).toNat ∧ k = ((d.extractLsb' 0 7).toNat + m) % 128) ∨
        ∃ m : Nat, m < (d.extractLsb' 27 7).toNat ∧ k = ((d.extractLsb' 18 7).toNat + m) % 128
    (∃ k : Nat, named k ∧ 0o120 ≤ k) →
    ∃ k : Nat, named k ∧ 0o120 ≤ k ∧ Abandons (.lrs a o) s ⟨8, 5, BitVec.ofNat 36 k, 0⟩ ∧
      Abandons (.srs a o) s ⟨8, 5, BitVec.ofNat 36 k, 0⟩

/-! ## The host -/

/-- R474, R475, R477, R420: start on any processor that does not run, halt on one that does, and send: to the sender
itself nothing, to this processor or another a deferrable request of class 31 with the sender's index, to no processor a
refusal. That the receiver's next arrival number rises by exactly 1 (log 7) and that start needs no load before it
(log 26) are the model's choices. -/
def Obligations.HostStartHaltAndSend : Prop :=
  ∀ (s : State) (sender target : UpiIndex),
    hostCall .start s = some (if s.run = .running then s else
      { s with run := .running, stopReason := .none, stopDetail := 0 }) ∧
    hostCall .halt s = some (if s.run = .running then
      { s with run := .halted, stopReason := .halt, stopDetail := 0 } else s) ∧
    (sender = target → hostCall (.send sender target) s = some s) ∧
    (sender ≠ target → target = s.params.upiIndex →
      hostCall (.send sender target) s = some { s with
        pending := ⟨s.pending.requests ++ [⟨⟨31, 0, zext36 sender, 0⟩, true, s.pending.nextSeq⟩],
          s.pending.nextSeq + 1⟩ }) ∧
    (sender ≠ target → target ≠ s.params.upiIndex → (∃ p ∈ s.peers, p.index = target) →
      hostCall (.send sender target) s = some { s with
        peers := s.peers.map fun p =>
          if p.index = target then
            ⟨p.index, ⟨p.pending.requests ++ [⟨⟨31, 0, zext36 sender, 0⟩, true, p.pending.nextSeq⟩],
              p.pending.nextSeq + 1⟩⟩
          else p }) ∧
    (sender ≠ target → target ≠ s.params.upiIndex → (∀ p ∈ s.peers, p.index ≠ target) →
      hostCall (.send sender target) s = none)

/-- R471, R35, R36: a load is accepted on a processor that does not run exactly if the bank names are distinct, every
descriptor satisfies R35 and R36 and covers as many words as its bank has, and the entry and every assignment name a bank;
else it is refused. An accepted load sets every piece of state that the rule names: each register of INITIAL_GRS holds its
value, but for EX0's modifier, which is INITIAL_RCS_PTR; the other registers and EX0's other half are kept; each bank's
words are in storage unless a later bank's words are there; the rest of storage is kept. The model's choices: a void
bank has no words, and a bank whose words do not match its limits or whose base is MEM_SIZE or above is refused (log 12);
of overlapping banks the later one remains (log 27); `B[25].upper + 1` is taken in 18 bits (log 15). -/
def Obligations.LoadSetsTheState : Prop :=
  ∀ (s : State) (l : LoadImage),
    (hostCall (.load l) s ≠ none ↔
      s.run ≠ .running ∧ (l.banks.map LoadBank.name).Nodup ∧
      (∀ b ∈ l.banks, b.descriptor.base < s.params.memSize ∧
        (b.descriptor.isVoid = true → b.words = []) ∧
        (b.descriptor.isVoid = false →
          b.descriptor.lower.toNat + b.words.length = b.descriptor.upper.toNat + 1 ∧
          (b.descriptor.lower.toNat ≤ b.descriptor.upper.toNat →
            b.descriptor.base + (b.descriptor.upper.toNat - b.descriptor.lower.toNat) < s.params.memSize))) ∧
      (∃ b ∈ l.banks, b.name = l.entry.bank) ∧ ∀ p ∈ l.assign, ∃ b ∈ l.banks, b.name = p.2) ∧
    ∀ t : State, s.mem.wf = true → hostCall (.load l) s = some t →
      t.bdt = l.banks.map (fun b => (b.name, b.descriptor)) ∧ t.dr = l.initialDr ∧ t.key = l.initialKey ∧
      t.par = l.entry ∧ t.pending.requests = [] ∧ t.save = none ∧ t.lastInterrupt = none ∧ t.entry = false ∧
      t.run = .idle ∧ t.stopReason = .none ∧ t.stopDetail = 0 ∧ t.params = s.params ∧ t.peers = s.peers ∧
      (∀ k : BaseIndex, (∀ p ∈ l.assign, p.1 ≠ k) → k ≠ 0 → (t.base k).isVoid = true) ∧
      ((∀ p ∈ l.assign, p.1 ≠ 0) → findBank l.entry.bank t.bdt = some (t.base 0)) ∧
      (∀ p ∈ l.assign, (∀ p' ∈ l.assign, p'.1 = p.1 → p' = p) → findBank p.2 t.bdt = some (t.base p.1)) ∧
      (∀ p ∈ l.initialGrs, (∀ p' ∈ l.initialGrs, p'.1 = p.1 → p' = p) →
        (p.1 ≠ 0o140 → t.reg p.1 = p.2) ∧ (p.1 = 0o140 → (t.reg 0o140).high = p.2.high)) ∧
      (∀ k : GrsIndex, (∀ p ∈ l.initialGrs, p.1 ≠ k) →
        (k ≠ 0o140 → t.reg k = s.reg k) ∧ (k = 0o140 → (t.reg 0o140).high = (s.reg 0o140).high)) ∧
      (t.reg 0o140).low =
        (match l.initialRcsPtr with
          | some p => p
          | none => if l.assign.any (fun p => p.1 == 25) then (t.base 25).upper + 1 else 0) ∧
      (∀ (before after : List LoadBank) (b : LoadBank) (n : Nat), l.banks = before ++ b :: after → n < b.words.length →
        (∀ b' ∈ after, ∀ m : Nat, m < b'.words.length → b'.descriptor.base + m ≠ b.descriptor.base + n) →
        t.mem.read (b.descriptor.base + n) = b.words.getD n 0) ∧
      ∀ x : Nat, (∀ b ∈ l.banks, ∀ n : Nat, n < b.words.length → b.descriptor.base + n ≠ x) →
        t.mem.read x = s.mem.read x

end
end

