-- ==== Sys2Proof/Laws/State.lean ====
section
/-! SUPPORT. One lemma per field per update of the state, true by unfolding, for `simp`. -/

namespace Sys2Proof.Machine

/-! ### setReg -/

@[simp] theorem State.setReg_b (s : State) (i : GrsIndex) (v : Word) : (s.setReg i v).b = s.b := rfl
@[simp] theorem State.setReg_dr (s : State) (i : GrsIndex) (v : Word) : (s.setReg i v).dr = s.dr := rfl
@[simp] theorem State.setReg_par (s : State) (i : GrsIndex) (v : Word) : (s.setReg i v).par = s.par := rfl
@[simp] theorem State.setReg_key (s : State) (i : GrsIndex) (v : Word) : (s.setReg i v).key = s.key := rfl
@[simp] theorem State.setReg_pending (s : State) (i : GrsIndex) (v : Word) : (s.setReg i v).pending = s.pending := rfl
@[simp] theorem State.setReg_save (s : State) (i : GrsIndex) (v : Word) : (s.setReg i v).save = s.save := rfl
@[simp] theorem State.setReg_lastInterrupt (s : State) (i : GrsIndex) (v : Word) : (s.setReg i v).lastInterrupt = s.lastInterrupt := rfl
@[simp] theorem State.setReg_entry (s : State) (i : GrsIndex) (v : Word) : (s.setReg i v).entry = s.entry := rfl
@[simp] theorem State.setReg_run (s : State) (i : GrsIndex) (v : Word) : (s.setReg i v).run = s.run := rfl
@[simp] theorem State.setReg_stopReason (s : State) (i : GrsIndex) (v : Word) : (s.setReg i v).stopReason = s.stopReason := rfl
@[simp] theorem State.setReg_stopDetail (s : State) (i : GrsIndex) (v : Word) : (s.setReg i v).stopDetail = s.stopDetail := rfl
@[simp] theorem State.setReg_mem (s : State) (i : GrsIndex) (v : Word) : (s.setReg i v).mem = s.mem := rfl
@[simp] theorem State.setReg_bdt (s : State) (i : GrsIndex) (v : Word) : (s.setReg i v).bdt = s.bdt := rfl
@[simp] theorem State.setReg_peers (s : State) (i : GrsIndex) (v : Word) : (s.setReg i v).peers = s.peers := rfl
@[simp] theorem State.setReg_params (s : State) (i : GrsIndex) (v : Word) : (s.setReg i v).params = s.params := rfl
@[simp] theorem State.setReg_base (s : State) (i : GrsIndex) (v : Word) (b' : BaseIndex) : (s.setReg i v).base b' = s.base b' := rfl
@[simp] theorem State.setReg_mode (s : State) (i : GrsIndex) (v : Word) : (s.setReg i v).mode = s.mode := rfl
@[simp] theorem State.setReg_pp (s : State) (i : GrsIndex) (v : Word) : (s.setReg i v).pp = s.pp := rfl
@[simp] theorem State.setReg_execSet (s : State) (i : GrsIndex) (v : Word) : (s.setReg i v).execSet = s.execSet := rfl
@[simp] theorem State.setReg_alternateOrder (s : State) (i : GrsIndex) (v : Word) : (s.setReg i v).alternateOrder = s.alternateOrder := rfl
@[simp] theorem State.setReg_quarterMode (s : State) (i : GrsIndex) (v : Word) : (s.setReg i v).quarterMode = s.quarterMode := rfl
@[simp] theorem State.setReg_deferrableEnabled (s : State) (i : GrsIndex) (v : Word) : (s.setReg i v).deferrableEnabled = s.deferrableEnabled := rfl
@[simp] theorem State.setReg_xIndex (s : State) (i : GrsIndex) (v : Word) (m : BitVec 4) : (s.setReg i v).xIndex m = s.xIndex m := rfl
@[simp] theorem State.setReg_aIndex (s : State) (i : GrsIndex) (v : Word) (m : BitVec 4) : (s.setReg i v).aIndex m = s.aIndex m := rfl
@[simp] theorem State.setReg_rIndex (s : State) (i : GrsIndex) (v : Word) (m : BitVec 4) : (s.setReg i v).rIndex m = s.rIndex m := rfl

/-! ### setRegLow -/

@[simp] theorem State.setRegLow_b (s : State) (i : GrsIndex) (v : RelAddr) : (s.setRegLow i v).b = s.b := rfl
@[simp] theorem State.setRegLow_dr (s : State) (i : GrsIndex) (v : RelAddr) : (s.setRegLow i v).dr = s.dr := rfl
@[simp] theorem State.setRegLow_par (s : State) (i : GrsIndex) (v : RelAddr) : (s.setRegLow i v).par = s.par := rfl
@[simp] theorem State.setRegLow_key (s : State) (i : GrsIndex) (v : RelAddr) : (s.setRegLow i v).key = s.key := rfl
@[simp] theorem State.setRegLow_pending (s : State) (i : GrsIndex) (v : RelAddr) : (s.setRegLow i v).pending = s.pending := rfl
@[simp] theorem State.setRegLow_save (s : State) (i : GrsIndex) (v : RelAddr) : (s.setRegLow i v).save = s.save := rfl
@[simp] theorem State.setRegLow_lastInterrupt (s : State) (i : GrsIndex) (v : RelAddr) : (s.setRegLow i v).lastInterrupt = s.lastInterrupt := rfl
@[simp] theorem State.setRegLow_entry (s : State) (i : GrsIndex) (v : RelAddr) : (s.setRegLow i v).entry = s.entry := rfl
@[simp] theorem State.setRegLow_run (s : State) (i : GrsIndex) (v : RelAddr) : (s.setRegLow i v).run = s.run := rfl
@[simp] theorem State.setRegLow_stopReason (s : State) (i : GrsIndex) (v : RelAddr) : (s.setRegLow i v).stopReason = s.stopReason := rfl
@[simp] theorem State.setRegLow_stopDetail (s : State) (i : GrsIndex) (v : RelAddr) : (s.setRegLow i v).stopDetail = s.stopDetail := rfl
@[simp] theorem State.setRegLow_mem (s : State) (i : GrsIndex) (v : RelAddr) : (s.setRegLow i v).mem = s.mem := rfl
@[simp] theorem State.setRegLow_bdt (s : State) (i : GrsIndex) (v : RelAddr) : (s.setRegLow i v).bdt = s.bdt := rfl
@[simp] theorem State.setRegLow_peers (s : State) (i : GrsIndex) (v : RelAddr) : (s.setRegLow i v).peers = s.peers := rfl
@[simp] theorem State.setRegLow_params (s : State) (i : GrsIndex) (v : RelAddr) : (s.setRegLow i v).params = s.params := rfl
@[simp] theorem State.setRegLow_base (s : State) (i : GrsIndex) (v : RelAddr) (b' : BaseIndex) : (s.setRegLow i v).base b' = s.base b' := rfl
@[simp] theorem State.setRegLow_mode (s : State) (i : GrsIndex) (v : RelAddr) : (s.setRegLow i v).mode = s.mode := rfl
@[simp] theorem State.setRegLow_pp (s : State) (i : GrsIndex) (v : RelAddr) : (s.setRegLow i v).pp = s.pp := rfl
@[simp] theorem State.setRegLow_execSet (s : State) (i : GrsIndex) (v : RelAddr) : (s.setRegLow i v).execSet = s.execSet := rfl
@[simp] theorem State.setRegLow_alternateOrder (s : State) (i : GrsIndex) (v : RelAddr) : (s.setRegLow i v).alternateOrder = s.alternateOrder := rfl
@[simp] theorem State.setRegLow_quarterMode (s : State) (i : GrsIndex) (v : RelAddr) : (s.setRegLow i v).quarterMode = s.quarterMode := rfl
@[simp] theorem State.setRegLow_deferrableEnabled (s : State) (i : GrsIndex) (v : RelAddr) : (s.setRegLow i v).deferrableEnabled = s.deferrableEnabled := rfl
@[simp] theorem State.setRegLow_xIndex (s : State) (i : GrsIndex) (v : RelAddr) (m : BitVec 4) : (s.setRegLow i v).xIndex m = s.xIndex m := rfl
@[simp] theorem State.setRegLow_aIndex (s : State) (i : GrsIndex) (v : RelAddr) (m : BitVec 4) : (s.setRegLow i v).aIndex m = s.aIndex m := rfl
@[simp] theorem State.setRegLow_rIndex (s : State) (i : GrsIndex) (v : RelAddr) (m : BitVec 4) : (s.setRegLow i v).rIndex m = s.rIndex m := rfl

/-! ### setBase -/

@[simp] theorem State.setBase_grs (s : State) (k : BaseIndex) (d : Descriptor) : (s.setBase k d).grs = s.grs := rfl
@[simp] theorem State.setBase_dr (s : State) (k : BaseIndex) (d : Descriptor) : (s.setBase k d).dr = s.dr := rfl
@[simp] theorem State.setBase_par (s : State) (k : BaseIndex) (d : Descriptor) : (s.setBase k d).par = s.par := rfl
@[simp] theorem State.setBase_key (s : State) (k : BaseIndex) (d : Descriptor) : (s.setBase k d).key = s.key := rfl
@[simp] theorem State.setBase_pending (s : State) (k : BaseIndex) (d : Descriptor) : (s.setBase k d).pending = s.pending := rfl
@[simp] theorem State.setBase_save (s : State) (k : BaseIndex) (d : Descriptor) : (s.setBase k d).save = s.save := rfl
@[simp] theorem State.setBase_lastInterrupt (s : State) (k : BaseIndex) (d : Descriptor) : (s.setBase k d).lastInterrupt = s.lastInterrupt := rfl
@[simp] theorem State.setBase_entry (s : State) (k : BaseIndex) (d : Descriptor) : (s.setBase k d).entry = s.entry := rfl
@[simp] theorem State.setBase_run (s : State) (k : BaseIndex) (d : Descriptor) : (s.setBase k d).run = s.run := rfl
@[simp] theorem State.setBase_stopReason (s : State) (k : BaseIndex) (d : Descriptor) : (s.setBase k d).stopReason = s.stopReason := rfl
@[simp] theorem State.setBase_stopDetail (s : State) (k : BaseIndex) (d : Descriptor) : (s.setBase k d).stopDetail = s.stopDetail := rfl
@[simp] theorem State.setBase_mem (s : State) (k : BaseIndex) (d : Descriptor) : (s.setBase k d).mem = s.mem := rfl
@[simp] theorem State.setBase_bdt (s : State) (k : BaseIndex) (d : Descriptor) : (s.setBase k d).bdt = s.bdt := rfl
@[simp] theorem State.setBase_peers (s : State) (k : BaseIndex) (d : Descriptor) : (s.setBase k d).peers = s.peers := rfl
@[simp] theorem State.setBase_params (s : State) (k : BaseIndex) (d : Descriptor) : (s.setBase k d).params = s.params := rfl
@[simp] theorem State.setBase_reg (s : State) (k : BaseIndex) (d : Descriptor) (g : GrsIndex) : (s.setBase k d).reg g = s.reg g := rfl
@[simp] theorem State.setBase_mode (s : State) (k : BaseIndex) (d : Descriptor) : (s.setBase k d).mode = s.mode := rfl
@[simp] theorem State.setBase_pp (s : State) (k : BaseIndex) (d : Descriptor) : (s.setBase k d).pp = s.pp := rfl
@[simp] theorem State.setBase_execSet (s : State) (k : BaseIndex) (d : Descriptor) : (s.setBase k d).execSet = s.execSet := rfl
@[simp] theorem State.setBase_alternateOrder (s : State) (k : BaseIndex) (d : Descriptor) : (s.setBase k d).alternateOrder = s.alternateOrder := rfl
@[simp] theorem State.setBase_quarterMode (s : State) (k : BaseIndex) (d : Descriptor) : (s.setBase k d).quarterMode = s.quarterMode := rfl
@[simp] theorem State.setBase_deferrableEnabled (s : State) (k : BaseIndex) (d : Descriptor) : (s.setBase k d).deferrableEnabled = s.deferrableEnabled := rfl
@[simp] theorem State.setBase_xIndex (s : State) (k : BaseIndex) (d : Descriptor) (m : BitVec 4) : (s.setBase k d).xIndex m = s.xIndex m := rfl
@[simp] theorem State.setBase_aIndex (s : State) (k : BaseIndex) (d : Descriptor) (m : BitVec 4) : (s.setBase k d).aIndex m = s.aIndex m := rfl
@[simp] theorem State.setBase_rIndex (s : State) (k : BaseIndex) (d : Descriptor) (m : BitVec 4) : (s.setBase k d).rIndex m = s.rIndex m := rfl

/-! ### advance -/

@[simp] theorem State.advance_grs (s : State) : (s.advance).grs = s.grs := rfl
@[simp] theorem State.advance_b (s : State) : (s.advance).b = s.b := rfl
@[simp] theorem State.advance_dr (s : State) : (s.advance).dr = s.dr := rfl
@[simp] theorem State.advance_par (s : State) : (s.advance).par = ⟨s.par.bank, s.par.pc + 1⟩ := rfl
@[simp] theorem State.advance_key (s : State) : (s.advance).key = s.key := rfl
@[simp] theorem State.advance_pending (s : State) : (s.advance).pending = s.pending := rfl
@[simp] theorem State.advance_save (s : State) : (s.advance).save = s.save := rfl
@[simp] theorem State.advance_lastInterrupt (s : State) : (s.advance).lastInterrupt = s.lastInterrupt := rfl
@[simp] theorem State.advance_entry (s : State) : (s.advance).entry = s.entry := rfl
@[simp] theorem State.advance_run (s : State) : (s.advance).run = s.run := rfl
@[simp] theorem State.advance_stopReason (s : State) : (s.advance).stopReason = s.stopReason := rfl
@[simp] theorem State.advance_stopDetail (s : State) : (s.advance).stopDetail = s.stopDetail := rfl
@[simp] theorem State.advance_mem (s : State) : (s.advance).mem = s.mem := rfl
@[simp] theorem State.advance_bdt (s : State) : (s.advance).bdt = s.bdt := rfl
@[simp] theorem State.advance_peers (s : State) : (s.advance).peers = s.peers := rfl
@[simp] theorem State.advance_params (s : State) : (s.advance).params = s.params := rfl
@[simp] theorem State.advance_reg (s : State) (g : GrsIndex) : (s.advance).reg g = s.reg g := rfl
@[simp] theorem State.advance_base (s : State) (b' : BaseIndex) : (s.advance).base b' = s.base b' := rfl
@[simp] theorem State.advance_mode (s : State) : (s.advance).mode = s.mode := rfl
@[simp] theorem State.advance_pp (s : State) : (s.advance).pp = s.pp := rfl
@[simp] theorem State.advance_execSet (s : State) : (s.advance).execSet = s.execSet := rfl
@[simp] theorem State.advance_alternateOrder (s : State) : (s.advance).alternateOrder = s.alternateOrder := rfl
@[simp] theorem State.advance_quarterMode (s : State) : (s.advance).quarterMode = s.quarterMode := rfl
@[simp] theorem State.advance_deferrableEnabled (s : State) : (s.advance).deferrableEnabled = s.deferrableEnabled := rfl
@[simp] theorem State.advance_xIndex (s : State) (m : BitVec 4) : (s.advance).xIndex m = s.xIndex m := rfl
@[simp] theorem State.advance_aIndex (s : State) (m : BitVec 4) : (s.advance).aIndex m = s.aIndex m := rfl
@[simp] theorem State.advance_rIndex (s : State) (m : BitVec 4) : (s.advance).rIndex m = s.rIndex m := rfl

/-! ### jump -/

@[simp] theorem State.jump_grs (s : State) (u : RelAddr) : (s.jump u).grs = s.grs := rfl
@[simp] theorem State.jump_b (s : State) (u : RelAddr) : (s.jump u).b = s.b := rfl
@[simp] theorem State.jump_dr (s : State) (u : RelAddr) : (s.jump u).dr = s.dr := rfl
@[simp] theorem State.jump_par (s : State) (u : RelAddr) : (s.jump u).par = ⟨s.par.bank, u⟩ := rfl
@[simp] theorem State.jump_key (s : State) (u : RelAddr) : (s.jump u).key = s.key := rfl
@[simp] theorem State.jump_pending (s : State) (u : RelAddr) : (s.jump u).pending = s.pending := rfl
@[simp] theorem State.jump_save (s : State) (u : RelAddr) : (s.jump u).save = s.save := rfl
@[simp] theorem State.jump_lastInterrupt (s : State) (u : RelAddr) : (s.jump u).lastInterrupt = s.lastInterrupt := rfl
@[simp] theorem State.jump_entry (s : State) (u : RelAddr) : (s.jump u).entry = s.entry := rfl
@[simp] theorem State.jump_run (s : State) (u : RelAddr) : (s.jump u).run = s.run := rfl
@[simp] theorem State.jump_stopReason (s : State) (u : RelAddr) : (s.jump u).stopReason = s.stopReason := rfl
@[simp] theorem State.jump_stopDetail (s : State) (u : RelAddr) : (s.jump u).stopDetail = s.stopDetail := rfl
@[simp] theorem State.jump_mem (s : State) (u : RelAddr) : (s.jump u).mem = s.mem := rfl
@[simp] theorem State.jump_bdt (s : State) (u : RelAddr) : (s.jump u).bdt = s.bdt := rfl
@[simp] theorem State.jump_peers (s : State) (u : RelAddr) : (s.jump u).peers = s.peers := rfl
@[simp] theorem State.jump_params (s : State) (u : RelAddr) : (s.jump u).params = s.params := rfl
@[simp] theorem State.jump_reg (s : State) (u : RelAddr) (g : GrsIndex) : (s.jump u).reg g = s.reg g := rfl
@[simp] theorem State.jump_base (s : State) (u : RelAddr) (b' : BaseIndex) : (s.jump u).base b' = s.base b' := rfl
@[simp] theorem State.jump_mode (s : State) (u : RelAddr) : (s.jump u).mode = s.mode := rfl
@[simp] theorem State.jump_pp (s : State) (u : RelAddr) : (s.jump u).pp = s.pp := rfl
@[simp] theorem State.jump_execSet (s : State) (u : RelAddr) : (s.jump u).execSet = s.execSet := rfl
@[simp] theorem State.jump_alternateOrder (s : State) (u : RelAddr) : (s.jump u).alternateOrder = s.alternateOrder := rfl
@[simp] theorem State.jump_quarterMode (s : State) (u : RelAddr) : (s.jump u).quarterMode = s.quarterMode := rfl
@[simp] theorem State.jump_deferrableEnabled (s : State) (u : RelAddr) : (s.jump u).deferrableEnabled = s.deferrableEnabled := rfl
@[simp] theorem State.jump_xIndex (s : State) (u : RelAddr) (m : BitVec 4) : (s.jump u).xIndex m = s.xIndex m := rfl
@[simp] theorem State.jump_aIndex (s : State) (u : RelAddr) (m : BitVec 4) : (s.jump u).aIndex m = s.aIndex m := rfl
@[simp] theorem State.jump_rIndex (s : State) (u : RelAddr) (m : BitVec 4) : (s.jump u).rIndex m = s.rIndex m := rfl

/-! ### enqueue -/

@[simp] theorem State.enqueue_grs (s : State) (c : Cause) : (s.enqueue c).grs = s.grs := rfl
@[simp] theorem State.enqueue_b (s : State) (c : Cause) : (s.enqueue c).b = s.b := rfl
@[simp] theorem State.enqueue_dr (s : State) (c : Cause) : (s.enqueue c).dr = s.dr := rfl
@[simp] theorem State.enqueue_par (s : State) (c : Cause) : (s.enqueue c).par = s.par := rfl
@[simp] theorem State.enqueue_key (s : State) (c : Cause) : (s.enqueue c).key = s.key := rfl
@[simp] theorem State.enqueue_pending (s : State) (c : Cause) : (s.enqueue c).pending = s.pending.enqueue c := rfl
@[simp] theorem State.enqueue_save (s : State) (c : Cause) : (s.enqueue c).save = s.save := rfl
@[simp] theorem State.enqueue_lastInterrupt (s : State) (c : Cause) : (s.enqueue c).lastInterrupt = s.lastInterrupt := rfl
@[simp] theorem State.enqueue_entry (s : State) (c : Cause) : (s.enqueue c).entry = s.entry := rfl
@[simp] theorem State.enqueue_run (s : State) (c : Cause) : (s.enqueue c).run = s.run := rfl
@[simp] theorem State.enqueue_stopReason (s : State) (c : Cause) : (s.enqueue c).stopReason = s.stopReason := rfl
@[simp] theorem State.enqueue_stopDetail (s : State) (c : Cause) : (s.enqueue c).stopDetail = s.stopDetail := rfl
@[simp] theorem State.enqueue_mem (s : State) (c : Cause) : (s.enqueue c).mem = s.mem := rfl
@[simp] theorem State.enqueue_bdt (s : State) (c : Cause) : (s.enqueue c).bdt = s.bdt := rfl
@[simp] theorem State.enqueue_peers (s : State) (c : Cause) : (s.enqueue c).peers = s.peers := rfl
@[simp] theorem State.enqueue_params (s : State) (c : Cause) : (s.enqueue c).params = s.params := rfl
@[simp] theorem State.enqueue_reg (s : State) (c : Cause) (g : GrsIndex) : (s.enqueue c).reg g = s.reg g := rfl
@[simp] theorem State.enqueue_base (s : State) (c : Cause) (b' : BaseIndex) : (s.enqueue c).base b' = s.base b' := rfl
@[simp] theorem State.enqueue_mode (s : State) (c : Cause) : (s.enqueue c).mode = s.mode := rfl
@[simp] theorem State.enqueue_pp (s : State) (c : Cause) : (s.enqueue c).pp = s.pp := rfl
@[simp] theorem State.enqueue_execSet (s : State) (c : Cause) : (s.enqueue c).execSet = s.execSet := rfl
@[simp] theorem State.enqueue_alternateOrder (s : State) (c : Cause) : (s.enqueue c).alternateOrder = s.alternateOrder := rfl
@[simp] theorem State.enqueue_quarterMode (s : State) (c : Cause) : (s.enqueue c).quarterMode = s.quarterMode := rfl
@[simp] theorem State.enqueue_deferrableEnabled (s : State) (c : Cause) : (s.enqueue c).deferrableEnabled = s.deferrableEnabled := rfl
@[simp] theorem State.enqueue_xIndex (s : State) (c : Cause) (m : BitVec 4) : (s.enqueue c).xIndex m = s.xIndex m := rfl
@[simp] theorem State.enqueue_aIndex (s : State) (c : Cause) (m : BitVec 4) : (s.enqueue c).aIndex m = s.aIndex m := rfl
@[simp] theorem State.enqueue_rIndex (s : State) (c : Cause) (m : BitVec 4) : (s.enqueue c).rIndex m = s.rIndex m := rfl

/-! ### withoutRequest -/

@[simp] theorem State.withoutRequest_grs (s : State) (q : InterruptRequest) : (s.withoutRequest q).grs = s.grs := rfl
@[simp] theorem State.withoutRequest_b (s : State) (q : InterruptRequest) : (s.withoutRequest q).b = s.b := rfl
@[simp] theorem State.withoutRequest_dr (s : State) (q : InterruptRequest) : (s.withoutRequest q).dr = s.dr := rfl
@[simp] theorem State.withoutRequest_par (s : State) (q : InterruptRequest) : (s.withoutRequest q).par = s.par := rfl
@[simp] theorem State.withoutRequest_key (s : State) (q : InterruptRequest) : (s.withoutRequest q).key = s.key := rfl
@[simp] theorem State.withoutRequest_pending (s : State) (q : InterruptRequest) : (s.withoutRequest q).pending = ⟨s.pending.requests.erase q, s.pending.nextSeq⟩ := rfl
@[simp] theorem State.withoutRequest_save (s : State) (q : InterruptRequest) : (s.withoutRequest q).save = s.save := rfl
@[simp] theorem State.withoutRequest_lastInterrupt (s : State) (q : InterruptRequest) : (s.withoutRequest q).lastInterrupt = s.lastInterrupt := rfl
@[simp] theorem State.withoutRequest_entry (s : State) (q : InterruptRequest) : (s.withoutRequest q).entry = s.entry := rfl
@[simp] theorem State.withoutRequest_run (s : State) (q : InterruptRequest) : (s.withoutRequest q).run = s.run := rfl
@[simp] theorem State.withoutRequest_stopReason (s : State) (q : InterruptRequest) : (s.withoutRequest q).stopReason = s.stopReason := rfl
@[simp] theorem State.withoutRequest_stopDetail (s : State) (q : InterruptRequest) : (s.withoutRequest q).stopDetail = s.stopDetail := rfl
@[simp] theorem State.withoutRequest_mem (s : State) (q : InterruptRequest) : (s.withoutRequest q).mem = s.mem := rfl
@[simp] theorem State.withoutRequest_bdt (s : State) (q : InterruptRequest) : (s.withoutRequest q).bdt = s.bdt := rfl
@[simp] theorem State.withoutRequest_peers (s : State) (q : InterruptRequest) : (s.withoutRequest q).peers = s.peers := rfl
@[simp] theorem State.withoutRequest_params (s : State) (q : InterruptRequest) : (s.withoutRequest q).params = s.params := rfl
@[simp] theorem State.withoutRequest_reg (s : State) (q : InterruptRequest) (g : GrsIndex) : (s.withoutRequest q).reg g = s.reg g := rfl
@[simp] theorem State.withoutRequest_base (s : State) (q : InterruptRequest) (b' : BaseIndex) : (s.withoutRequest q).base b' = s.base b' := rfl
@[simp] theorem State.withoutRequest_mode (s : State) (q : InterruptRequest) : (s.withoutRequest q).mode = s.mode := rfl
@[simp] theorem State.withoutRequest_pp (s : State) (q : InterruptRequest) : (s.withoutRequest q).pp = s.pp := rfl
@[simp] theorem State.withoutRequest_execSet (s : State) (q : InterruptRequest) : (s.withoutRequest q).execSet = s.execSet := rfl
@[simp] theorem State.withoutRequest_alternateOrder (s : State) (q : InterruptRequest) : (s.withoutRequest q).alternateOrder = s.alternateOrder := rfl
@[simp] theorem State.withoutRequest_quarterMode (s : State) (q : InterruptRequest) : (s.withoutRequest q).quarterMode = s.quarterMode := rfl
@[simp] theorem State.withoutRequest_deferrableEnabled (s : State) (q : InterruptRequest) : (s.withoutRequest q).deferrableEnabled = s.deferrableEnabled := rfl
@[simp] theorem State.withoutRequest_xIndex (s : State) (q : InterruptRequest) (m : BitVec 4) : (s.withoutRequest q).xIndex m = s.xIndex m := rfl
@[simp] theorem State.withoutRequest_aIndex (s : State) (q : InterruptRequest) (m : BitVec 4) : (s.withoutRequest q).aIndex m = s.aIndex m := rfl
@[simp] theorem State.withoutRequest_rIndex (s : State) (q : InterruptRequest) (m : BitVec 4) : (s.withoutRequest q).rIndex m = s.rIndex m := rfl

/-! ### enter -/

@[simp] theorem State.enter_grs (s : State) (q : InterruptRequest) : (s.enter q).grs = s.grs := rfl
@[simp] theorem State.enter_dr (s : State) (q : InterruptRequest) : (s.enter q).dr = entryDesignators s.dr := rfl
@[simp] theorem State.enter_par (s : State) (q : InterruptRequest) : (s.enter q).par = ⟨s.params.intBankName, q.cause.cls.setWidth 18⟩ := rfl
@[simp] theorem State.enter_key (s : State) (q : InterruptRequest) : (s.enter q).key = s.key := rfl
@[simp] theorem State.enter_pending (s : State) (q : InterruptRequest) : (s.enter q).pending = s.pending := rfl
@[simp] theorem State.enter_save (s : State) (q : InterruptRequest) : (s.enter q).save = some ⟨s.par, s.dr, s.base 0, q⟩ := rfl
@[simp] theorem State.enter_lastInterrupt (s : State) (q : InterruptRequest) : (s.enter q).lastInterrupt = some q := rfl
@[simp] theorem State.enter_entry (s : State) (q : InterruptRequest) : (s.enter q).entry = true := rfl
@[simp] theorem State.enter_run (s : State) (q : InterruptRequest) : (s.enter q).run = s.run := rfl
@[simp] theorem State.enter_stopReason (s : State) (q : InterruptRequest) : (s.enter q).stopReason = s.stopReason := rfl
@[simp] theorem State.enter_stopDetail (s : State) (q : InterruptRequest) : (s.enter q).stopDetail = s.stopDetail := rfl
@[simp] theorem State.enter_mem (s : State) (q : InterruptRequest) : (s.enter q).mem = s.mem := rfl
@[simp] theorem State.enter_bdt (s : State) (q : InterruptRequest) : (s.enter q).bdt = s.bdt := rfl
@[simp] theorem State.enter_peers (s : State) (q : InterruptRequest) : (s.enter q).peers = s.peers := rfl
@[simp] theorem State.enter_params (s : State) (q : InterruptRequest) : (s.enter q).params = s.params := rfl
@[simp] theorem State.enter_reg (s : State) (q : InterruptRequest) (g : GrsIndex) : (s.enter q).reg g = s.reg g := rfl

/-! ### stop -/

@[simp] theorem State.stop_grs (s : State) (r : StopReason) (d : BitVec 18) : (s.stop r d).grs = s.grs := rfl
@[simp] theorem State.stop_b (s : State) (r : StopReason) (d : BitVec 18) : (s.stop r d).b = s.b := rfl
@[simp] theorem State.stop_dr (s : State) (r : StopReason) (d : BitVec 18) : (s.stop r d).dr = s.dr := rfl
@[simp] theorem State.stop_par (s : State) (r : StopReason) (d : BitVec 18) : (s.stop r d).par = s.par := rfl
@[simp] theorem State.stop_key (s : State) (r : StopReason) (d : BitVec 18) : (s.stop r d).key = s.key := rfl
@[simp] theorem State.stop_pending (s : State) (r : StopReason) (d : BitVec 18) : (s.stop r d).pending = s.pending := rfl
@[simp] theorem State.stop_save (s : State) (r : StopReason) (d : BitVec 18) : (s.stop r d).save = s.save := rfl
@[simp] theorem State.stop_lastInterrupt (s : State) (r : StopReason) (d : BitVec 18) : (s.stop r d).lastInterrupt = s.lastInterrupt := rfl
@[simp] theorem State.stop_entry (s : State) (r : StopReason) (d : BitVec 18) : (s.stop r d).entry = s.entry := rfl
@[simp] theorem State.stop_run (s : State) (r : StopReason) (d : BitVec 18) : (s.stop r d).run = .halted := rfl
@[simp] theorem State.stop_stopReason (s : State) (r : StopReason) (d : BitVec 18) : (s.stop r d).stopReason = r := rfl
@[simp] theorem State.stop_stopDetail (s : State) (r : StopReason) (d : BitVec 18) : (s.stop r d).stopDetail = d := rfl
@[simp] theorem State.stop_mem (s : State) (r : StopReason) (d : BitVec 18) : (s.stop r d).mem = s.mem := rfl
@[simp] theorem State.stop_bdt (s : State) (r : StopReason) (d : BitVec 18) : (s.stop r d).bdt = s.bdt := rfl
@[simp] theorem State.stop_peers (s : State) (r : StopReason) (d : BitVec 18) : (s.stop r d).peers = s.peers := rfl
@[simp] theorem State.stop_params (s : State) (r : StopReason) (d : BitVec 18) : (s.stop r d).params = s.params := rfl
@[simp] theorem State.stop_reg (s : State) (r : StopReason) (d : BitVec 18) (g : GrsIndex) : (s.stop r d).reg g = s.reg g := rfl
@[simp] theorem State.stop_base (s : State) (r : StopReason) (d : BitVec 18) (b' : BaseIndex) : (s.stop r d).base b' = s.base b' := rfl
@[simp] theorem State.stop_mode (s : State) (r : StopReason) (d : BitVec 18) : (s.stop r d).mode = s.mode := rfl
@[simp] theorem State.stop_pp (s : State) (r : StopReason) (d : BitVec 18) : (s.stop r d).pp = s.pp := rfl
@[simp] theorem State.stop_execSet (s : State) (r : StopReason) (d : BitVec 18) : (s.stop r d).execSet = s.execSet := rfl
@[simp] theorem State.stop_alternateOrder (s : State) (r : StopReason) (d : BitVec 18) : (s.stop r d).alternateOrder = s.alternateOrder := rfl
@[simp] theorem State.stop_quarterMode (s : State) (r : StopReason) (d : BitVec 18) : (s.stop r d).quarterMode = s.quarterMode := rfl
@[simp] theorem State.stop_deferrableEnabled (s : State) (r : StopReason) (d : BitVec 18) : (s.stop r d).deferrableEnabled = s.deferrableEnabled := rfl
@[simp] theorem State.stop_xIndex (s : State) (r : StopReason) (d : BitVec 18) (m : BitVec 4) : (s.stop r d).xIndex m = s.xIndex m := rfl
@[simp] theorem State.stop_aIndex (s : State) (r : StopReason) (d : BitVec 18) (m : BitVec 4) : (s.stop r d).aIndex m = s.aIndex m := rfl
@[simp] theorem State.stop_rIndex (s : State) (r : StopReason) (d : BitVec 18) (m : BitVec 4) : (s.stop r d).rIndex m = s.rIndex m := rfl

/-! ### transfer -/

@[simp] theorem State.transfer_grs (s : State) (d : Descriptor) (n : BankName) (u : RelAddr) : (s.transfer d n u).grs = s.grs := rfl
@[simp] theorem State.transfer_b (s : State) (d : Descriptor) (n : BankName) (u : RelAddr) : (s.transfer d n u).b = (s.setBase 0 d).b := rfl
@[simp] theorem State.transfer_dr (s : State) (d : Descriptor) (n : BankName) (u : RelAddr) : (s.transfer d n u).dr = s.dr := rfl
@[simp] theorem State.transfer_par (s : State) (d : Descriptor) (n : BankName) (u : RelAddr) : (s.transfer d n u).par = ⟨n, u⟩ := rfl
@[simp] theorem State.transfer_key (s : State) (d : Descriptor) (n : BankName) (u : RelAddr) : (s.transfer d n u).key = s.key := rfl
@[simp] theorem State.transfer_pending (s : State) (d : Descriptor) (n : BankName) (u : RelAddr) : (s.transfer d n u).pending = s.pending := rfl
@[simp] theorem State.transfer_save (s : State) (d : Descriptor) (n : BankName) (u : RelAddr) : (s.transfer d n u).save = s.save := rfl
@[simp] theorem State.transfer_lastInterrupt (s : State) (d : Descriptor) (n : BankName) (u : RelAddr) : (s.transfer d n u).lastInterrupt = s.lastInterrupt := rfl
@[simp] theorem State.transfer_entry (s : State) (d : Descriptor) (n : BankName) (u : RelAddr) : (s.transfer d n u).entry = s.entry := rfl
@[simp] theorem State.transfer_run (s : State) (d : Descriptor) (n : BankName) (u : RelAddr) : (s.transfer d n u).run = s.run := rfl
@[simp] theorem State.transfer_stopReason (s : State) (d : Descriptor) (n : BankName) (u : RelAddr) : (s.transfer d n u).stopReason = s.stopReason := rfl
@[simp] theorem State.transfer_stopDetail (s : State) (d : Descriptor) (n : BankName) (u : RelAddr) : (s.transfer d n u).stopDetail = s.stopDetail := rfl
@[simp] theorem State.transfer_mem (s : State) (d : Descriptor) (n : BankName) (u : RelAddr) : (s.transfer d n u).mem = s.mem := rfl
@[simp] theorem State.transfer_bdt (s : State) (d : Descriptor) (n : BankName) (u : RelAddr) : (s.transfer d n u).bdt = s.bdt := rfl
@[simp] theorem State.transfer_peers (s : State) (d : Descriptor) (n : BankName) (u : RelAddr) : (s.transfer d n u).peers = s.peers := rfl
@[simp] theorem State.transfer_params (s : State) (d : Descriptor) (n : BankName) (u : RelAddr) : (s.transfer d n u).params = s.params := rfl
@[simp] theorem State.transfer_reg (s : State) (d : Descriptor) (n : BankName) (u : RelAddr) (g : GrsIndex) : (s.transfer d n u).reg g = s.reg g := rfl
@[simp] theorem State.transfer_mode (s : State) (d : Descriptor) (n : BankName) (u : RelAddr) : (s.transfer d n u).mode = s.mode := rfl
@[simp] theorem State.transfer_pp (s : State) (d : Descriptor) (n : BankName) (u : RelAddr) : (s.transfer d n u).pp = s.pp := rfl
@[simp] theorem State.transfer_execSet (s : State) (d : Descriptor) (n : BankName) (u : RelAddr) : (s.transfer d n u).execSet = s.execSet := rfl
@[simp] theorem State.transfer_alternateOrder (s : State) (d : Descriptor) (n : BankName) (u : RelAddr) : (s.transfer d n u).alternateOrder = s.alternateOrder := rfl
@[simp] theorem State.transfer_quarterMode (s : State) (d : Descriptor) (n : BankName) (u : RelAddr) : (s.transfer d n u).quarterMode = s.quarterMode := rfl
@[simp] theorem State.transfer_deferrableEnabled (s : State) (d : Descriptor) (n : BankName) (u : RelAddr) : (s.transfer d n u).deferrableEnabled = s.deferrableEnabled := rfl
@[simp] theorem State.transfer_xIndex (s : State) (d : Descriptor) (n : BankName) (u : RelAddr) (m : BitVec 4) : (s.transfer d n u).xIndex m = s.xIndex m := rfl
@[simp] theorem State.transfer_aIndex (s : State) (d : Descriptor) (n : BankName) (u : RelAddr) (m : BitVec 4) : (s.transfer d n u).aIndex m = s.aIndex m := rfl
@[simp] theorem State.transfer_rIndex (s : State) (d : Descriptor) (n : BankName) (u : RelAddr) (m : BitVec 4) : (s.transfer d n u).rIndex m = s.rIndex m := rfl

/-! ### deliver -/

@[simp] theorem State.deliver_grs (s : State) (t : UpiIndex) (c : Cause) : (s.deliver t c).grs = s.grs := rfl
@[simp] theorem State.deliver_b (s : State) (t : UpiIndex) (c : Cause) : (s.deliver t c).b = s.b := rfl
@[simp] theorem State.deliver_dr (s : State) (t : UpiIndex) (c : Cause) : (s.deliver t c).dr = s.dr := rfl
@[simp] theorem State.deliver_par (s : State) (t : UpiIndex) (c : Cause) : (s.deliver t c).par = s.par := rfl
@[simp] theorem State.deliver_key (s : State) (t : UpiIndex) (c : Cause) : (s.deliver t c).key = s.key := rfl
@[simp] theorem State.deliver_pending (s : State) (t : UpiIndex) (c : Cause) : (s.deliver t c).pending = s.pending := rfl
@[simp] theorem State.deliver_save (s : State) (t : UpiIndex) (c : Cause) : (s.deliver t c).save = s.save := rfl
@[simp] theorem State.deliver_lastInterrupt (s : State) (t : UpiIndex) (c : Cause) : (s.deliver t c).lastInterrupt = s.lastInterrupt := rfl
@[simp] theorem State.deliver_entry (s : State) (t : UpiIndex) (c : Cause) : (s.deliver t c).entry = s.entry := rfl
@[simp] theorem State.deliver_run (s : State) (t : UpiIndex) (c : Cause) : (s.deliver t c).run = s.run := rfl
@[simp] theorem State.deliver_stopReason (s : State) (t : UpiIndex) (c : Cause) : (s.deliver t c).stopReason = s.stopReason := rfl
@[simp] theorem State.deliver_stopDetail (s : State) (t : UpiIndex) (c : Cause) : (s.deliver t c).stopDetail = s.stopDetail := rfl
@[simp] theorem State.deliver_mem (s : State) (t : UpiIndex) (c : Cause) : (s.deliver t c).mem = s.mem := rfl
@[simp] theorem State.deliver_bdt (s : State) (t : UpiIndex) (c : Cause) : (s.deliver t c).bdt = s.bdt := rfl
@[simp] theorem State.deliver_params (s : State) (t : UpiIndex) (c : Cause) : (s.deliver t c).params = s.params := rfl
@[simp] theorem State.deliver_reg (s : State) (t : UpiIndex) (c : Cause) (g : GrsIndex) : (s.deliver t c).reg g = s.reg g := rfl
@[simp] theorem State.deliver_base (s : State) (t : UpiIndex) (c : Cause) (b' : BaseIndex) : (s.deliver t c).base b' = s.base b' := rfl
@[simp] theorem State.deliver_mode (s : State) (t : UpiIndex) (c : Cause) : (s.deliver t c).mode = s.mode := rfl
@[simp] theorem State.deliver_pp (s : State) (t : UpiIndex) (c : Cause) : (s.deliver t c).pp = s.pp := rfl
@[simp] theorem State.deliver_execSet (s : State) (t : UpiIndex) (c : Cause) : (s.deliver t c).execSet = s.execSet := rfl
@[simp] theorem State.deliver_alternateOrder (s : State) (t : UpiIndex) (c : Cause) : (s.deliver t c).alternateOrder = s.alternateOrder := rfl
@[simp] theorem State.deliver_quarterMode (s : State) (t : UpiIndex) (c : Cause) : (s.deliver t c).quarterMode = s.quarterMode := rfl
@[simp] theorem State.deliver_deferrableEnabled (s : State) (t : UpiIndex) (c : Cause) : (s.deliver t c).deferrableEnabled = s.deferrableEnabled := rfl
@[simp] theorem State.deliver_xIndex (s : State) (t : UpiIndex) (c : Cause) (m : BitVec 4) : (s.deliver t c).xIndex m = s.xIndex m := rfl
@[simp] theorem State.deliver_aIndex (s : State) (t : UpiIndex) (c : Cause) (m : BitVec 4) : (s.deliver t c).aIndex m = s.aIndex m := rfl
@[simp] theorem State.deliver_rIndex (s : State) (t : UpiIndex) (c : Cause) (m : BitVec 4) : (s.deliver t c).rIndex m = s.rIndex m := rfl

/-- A delivery changes no processor's index. -/
@[simp] theorem State.deliver_indices (s : State) (t : UpiIndex) (c : Cause) :
    (s.deliver t c).peers.map Peer.index = s.peers.map Peer.index := by
  simp only [State.deliver, List.map_map]
  exact List.map_congr_left fun p _ => by dsimp only [Function.comp]; split <;> rfl

/-! ### created -/

/-- The processors that a created one can reach are itself and those of PROCESSORS. -/
theorem mem_otherProcessors {own i : UpiIndex} {l : List UpiIndex} :
    i ∈ otherProcessors own l ↔ i ∈ l ∧ i ≠ own := by
  simp [otherProcessors]

theorem otherProcessors_nodup (own : UpiIndex) (l : List UpiIndex) : (own :: otherProcessors own l).Nodup :=
  List.nodup_cons.2 ⟨by simp [otherProcessors], (List.nodup_dedup l).filter _⟩

@[simp] theorem State.created_indices (g : Vector Word 128) (params : Params) (processors : List UpiIndex) :
    (State.created g params processors).peers.map Peer.index = otherProcessors params.upiIndex processors := by
  simp [State.created, Function.comp_def]

/-! ### fetched -/

@[simp] theorem State.fetched_grs (s : State) : (s.fetched).grs = s.grs := rfl
@[simp] theorem State.fetched_b (s : State) : (s.fetched).b = s.b := rfl
@[simp] theorem State.fetched_dr (s : State) : (s.fetched).dr = s.dr := rfl
@[simp] theorem State.fetched_par (s : State) : (s.fetched).par = s.par := rfl
@[simp] theorem State.fetched_key (s : State) : (s.fetched).key = s.key := rfl
@[simp] theorem State.fetched_pending (s : State) : (s.fetched).pending = s.pending := rfl
@[simp] theorem State.fetched_save (s : State) : (s.fetched).save = s.save := rfl
@[simp] theorem State.fetched_lastInterrupt (s : State) : (s.fetched).lastInterrupt = s.lastInterrupt := rfl
@[simp] theorem State.fetched_entry (s : State) : (s.fetched).entry = false := rfl
@[simp] theorem State.fetched_run (s : State) : (s.fetched).run = s.run := rfl
@[simp] theorem State.fetched_stopReason (s : State) : (s.fetched).stopReason = s.stopReason := rfl
@[simp] theorem State.fetched_stopDetail (s : State) : (s.fetched).stopDetail = s.stopDetail := rfl
@[simp] theorem State.fetched_mem (s : State) : (s.fetched).mem = s.mem := rfl
@[simp] theorem State.fetched_bdt (s : State) : (s.fetched).bdt = s.bdt := rfl
@[simp] theorem State.fetched_peers (s : State) : (s.fetched).peers = s.peers := rfl
@[simp] theorem State.fetched_params (s : State) : (s.fetched).params = s.params := rfl
@[simp] theorem State.fetched_reg (s : State) (g : GrsIndex) : (s.fetched).reg g = s.reg g := rfl
@[simp] theorem State.fetched_base (s : State) (b' : BaseIndex) : (s.fetched).base b' = s.base b' := rfl
@[simp] theorem State.fetched_mode (s : State) : (s.fetched).mode = s.mode := rfl
@[simp] theorem State.fetched_pp (s : State) : (s.fetched).pp = s.pp := rfl
@[simp] theorem State.fetched_execSet (s : State) : (s.fetched).execSet = s.execSet := rfl
@[simp] theorem State.fetched_alternateOrder (s : State) : (s.fetched).alternateOrder = s.alternateOrder := rfl
@[simp] theorem State.fetched_quarterMode (s : State) : (s.fetched).quarterMode = s.quarterMode := rfl
@[simp] theorem State.fetched_deferrableEnabled (s : State) : (s.fetched).deferrableEnabled = s.deferrableEnabled := rfl
@[simp] theorem State.fetched_xIndex (s : State) (m : BitVec 4) : (s.fetched).xIndex m = s.xIndex m := rfl
@[simp] theorem State.fetched_aIndex (s : State) (m : BitVec 4) : (s.fetched).aIndex m = s.aIndex m := rfl
@[simp] theorem State.fetched_rIndex (s : State) (m : BitVec 4) : (s.fetched).rIndex m = s.rIndex m := rfl

/-! ### setPair -/

@[simp] theorem State.setPair_b (s : State) (a : BitVec 4) (d : BitVec 72) : (s.setPair a d).b = s.b := rfl
@[simp] theorem State.setPair_dr (s : State) (a : BitVec 4) (d : BitVec 72) : (s.setPair a d).dr = s.dr := rfl
@[simp] theorem State.setPair_par (s : State) (a : BitVec 4) (d : BitVec 72) : (s.setPair a d).par = s.par := rfl
@[simp] theorem State.setPair_key (s : State) (a : BitVec 4) (d : BitVec 72) : (s.setPair a d).key = s.key := rfl
@[simp] theorem State.setPair_pending (s : State) (a : BitVec 4) (d : BitVec 72) : (s.setPair a d).pending = s.pending := rfl
@[simp] theorem State.setPair_save (s : State) (a : BitVec 4) (d : BitVec 72) : (s.setPair a d).save = s.save := rfl
@[simp] theorem State.setPair_lastInterrupt (s : State) (a : BitVec 4) (d : BitVec 72) : (s.setPair a d).lastInterrupt = s.lastInterrupt := rfl
@[simp] theorem State.setPair_entry (s : State) (a : BitVec 4) (d : BitVec 72) : (s.setPair a d).entry = s.entry := rfl
@[simp] theorem State.setPair_run (s : State) (a : BitVec 4) (d : BitVec 72) : (s.setPair a d).run = s.run := rfl
@[simp] theorem State.setPair_stopReason (s : State) (a : BitVec 4) (d : BitVec 72) : (s.setPair a d).stopReason = s.stopReason := rfl
@[simp] theorem State.setPair_stopDetail (s : State) (a : BitVec 4) (d : BitVec 72) : (s.setPair a d).stopDetail = s.stopDetail := rfl
@[simp] theorem State.setPair_mem (s : State) (a : BitVec 4) (d : BitVec 72) : (s.setPair a d).mem = s.mem := rfl
@[simp] theorem State.setPair_bdt (s : State) (a : BitVec 4) (d : BitVec 72) : (s.setPair a d).bdt = s.bdt := rfl
@[simp] theorem State.setPair_peers (s : State) (a : BitVec 4) (d : BitVec 72) : (s.setPair a d).peers = s.peers := rfl
@[simp] theorem State.setPair_params (s : State) (a : BitVec 4) (d : BitVec 72) : (s.setPair a d).params = s.params := rfl
@[simp] theorem State.setPair_base (s : State) (a : BitVec 4) (d : BitVec 72) (b' : BaseIndex) : (s.setPair a d).base b' = s.base b' := rfl
@[simp] theorem State.setPair_mode (s : State) (a : BitVec 4) (d : BitVec 72) : (s.setPair a d).mode = s.mode := rfl
@[simp] theorem State.setPair_pp (s : State) (a : BitVec 4) (d : BitVec 72) : (s.setPair a d).pp = s.pp := rfl
@[simp] theorem State.setPair_execSet (s : State) (a : BitVec 4) (d : BitVec 72) : (s.setPair a d).execSet = s.execSet := rfl
@[simp] theorem State.setPair_alternateOrder (s : State) (a : BitVec 4) (d : BitVec 72) : (s.setPair a d).alternateOrder = s.alternateOrder := rfl
@[simp] theorem State.setPair_quarterMode (s : State) (a : BitVec 4) (d : BitVec 72) : (s.setPair a d).quarterMode = s.quarterMode := rfl
@[simp] theorem State.setPair_deferrableEnabled (s : State) (a : BitVec 4) (d : BitVec 72) : (s.setPair a d).deferrableEnabled = s.deferrableEnabled := rfl
@[simp] theorem State.setPair_xIndex (s : State) (a : BitVec 4) (d : BitVec 72) (m : BitVec 4) : (s.setPair a d).xIndex m = s.xIndex m := rfl
@[simp] theorem State.setPair_aIndex (s : State) (a : BitVec 4) (d : BitVec 72) (m : BitVec 4) : (s.setPair a d).aIndex m = s.aIndex m := rfl
@[simp] theorem State.setPair_rIndex (s : State) (a : BitVec 4) (d : BitVec 72) (m : BitVec 4) : (s.setPair a d).rIndex m = s.rIndex m := rfl

end Sys2Proof.Machine
end

