-- ==== Sys2Proof/Laws/Memory.lean ====
section
/-! SUPPORT. Laws of storage: a read after a write, and the canonical form that every write keeps. -/

namespace Sys2Proof.Machine

theorem Memory.canonicalFrom_cons (f a : Nat) (w : Word) (m : Memory) :
    Memory.canonicalFrom f ((a, w) :: m) = true ↔ f ≤ a ∧ w ≠ unlistedWord ∧ m.canonicalFrom (a + 1) = true := by
  simp [Memory.canonicalFrom, and_assoc]

theorem Memory.canonicalFrom_mono {f g : Nat} {m : Memory} (hgf : g ≤ f) (h : m.canonicalFrom f = true) :
    m.canonicalFrom g = true := by
  cases m with
  | nil => rfl
  | cons p m =>
    obtain ⟨a, w⟩ := p
    rw [canonicalFrom_cons] at h ⊢
    exact ⟨by omega, h.2⟩

/-- Below its floor a canonical memory lists nothing. -/
theorem Memory.read_below {m : Memory} {f a : Nat} (h : m.canonicalFrom f = true) (ha : a < f) :
    m.read a = unlistedWord := by
  induction m generalizing f with
  | nil => rfl
  | cons p m ih =>
    obtain ⟨b, w⟩ := p
    rw [canonicalFrom_cons] at h
    rw [Memory.read, if_neg (by omega)]
    exact ih h.2.2 (by omega)

/-- A read after a write, from any floor. -/
theorem Memory.read_write_from {m : Memory} {f : Nat} (h : m.canonicalFrom f = true) (a c : Nat) (v : Word) :
    (m.write a v).read c = if c = a then v else m.read c := by
  induction m generalizing f with
  | nil => by_cases hv : v = unlistedWord <;> simp only [Memory.write, Memory.read, hv, if_true, if_false, ite_self]
  | cons p m ih =>
    obtain ⟨b, w⟩ := p
    have h' := (canonicalFrom_cons f b w m).1 h
    have hb := Memory.read_below h'.2.2 (Nat.lt_succ_self b)
    rcases Nat.lt_trichotomy a b with hab | hab | hab
    · have hlow : Memory.read ((b, w) :: m) a = unlistedWord := Memory.read_below
        (f := b) ((canonicalFrom_cons b b w m).2 ⟨le_rfl, h'.2⟩) hab
      by_cases hv : v = unlistedWord
      · rw [Memory.write, if_pos hab, if_pos hv]
        by_cases hca : c = a
        · rw [if_pos hca, hca, hlow, hv]
        · rw [if_neg hca]
      · rw [Memory.write, if_pos hab, if_neg hv, Memory.read]
    · subst hab
      rw [Memory.write, if_neg (Nat.lt_irrefl a), if_pos rfl]
      by_cases hv : v = unlistedWord
      · rw [if_pos hv]
        by_cases hca : c = a
        · rw [if_pos hca, hca, hb, hv]
        · rw [if_neg hca, Memory.read, if_neg hca]
      · rw [if_neg hv, Memory.read]
        by_cases hca : c = a
        · rw [if_pos hca, if_pos hca]
        · rw [if_neg hca, if_neg hca, Memory.read, if_neg hca]
    · rw [Memory.write, if_neg (by omega), if_neg (by omega), Memory.read, Memory.read, ih h'.2.2]
      by_cases hcb : c = b
      · rw [if_pos hcb, if_neg (by omega), if_pos hcb]
      · rw [if_neg hcb, if_neg hcb]

/-- A read after a write: the value at the address written, what was there elsewhere. -/
theorem Memory.read_write {m : Memory} (h : m.wf = true) (a c : Nat) (v : Word) :
    (m.write a v).read c = if c = a then v else m.read c :=
  Memory.read_write_from h a c v

theorem Memory.write_canonicalFrom {m : Memory} {f a : Nat} (v : Word) (h : m.canonicalFrom f = true) (ha : f ≤ a) :
    (m.write a v).canonicalFrom f = true := by
  induction m generalizing f with
  | nil =>
    by_cases hv : v = unlistedWord
    · simp [Memory.write, hv, Memory.canonicalFrom]
    · simp [Memory.write, hv, Memory.canonicalFrom, ha]
  | cons p m ih =>
    obtain ⟨b, w⟩ := p
    have h' := (canonicalFrom_cons f b w m).1 h
    rw [Memory.write]
    split_ifs with hab hv heq hv
    · exact h
    · rw [canonicalFrom_cons, canonicalFrom_cons]
      exact ⟨ha, hv, by omega, h'.2⟩
    · exact Memory.canonicalFrom_mono (by omega) h'.2.2
    · rw [canonicalFrom_cons]
      exact ⟨ha, hv, by subst heq; exact h'.2.2⟩
    · rw [canonicalFrom_cons]
      exact ⟨h'.1, h'.2.1, ih h'.2.2 (by omega)⟩

/-- A write keeps the canonical form. -/
theorem Memory.write_wf {m : Memory} (a : Nat) (v : Word) (h : m.wf = true) : (m.write a v).wf = true :=
  Memory.write_canonicalFrom v h (Nat.zero_le a)

/-- Writing many words keeps the canonical form. -/
theorem Memory.writeAll_wf {m : Memory} (a : Nat) (ws : List Word) (h : m.wf = true) : (m.writeAll a ws).wf = true := by
  induction ws generalizing m a with
  | nil => exact h
  | cons w ws ih => exact ih (a + 1) (Memory.write_wf a w h)

/-- Every cell after a write is the written address or an old cell. -/
theorem Memory.mem_write {m : Memory} {a : Nat} {v : Word} {c : Nat × Word} (h : c ∈ m.write a v) :
    c.1 = a ∨ c ∈ m := by
  induction m with
  | nil =>
    by_cases hv : v = unlistedWord
    · simp [Memory.write, hv] at h
    · simp only [Memory.write, hv, if_false, List.mem_singleton] at h
      exact .inl (by rw [h])
  | cons p m ih =>
    obtain ⟨b, w⟩ := p
    rw [Memory.write] at h
    split_ifs at h with hab hv heq hv
    · exact .inr h
    · rcases List.mem_cons.1 h with rfl | h
      · exact .inl rfl
      · exact .inr h
    · exact .inr (List.mem_cons_of_mem _ h)
    · rcases List.mem_cons.1 h with rfl | h
      · exact .inl rfl
      · exact .inr (List.mem_cons_of_mem _ h)
    · rcases List.mem_cons.1 h with rfl | h
      · exact .inr List.mem_cons_self
      · exact (ih h).imp_right (List.mem_cons_of_mem _)

/-- Two canonical memories that read alike are the same data. -/
theorem Memory.eq_of_read {m n : Memory} {f : Nat} (hm : m.canonicalFrom f = true) (hn : n.canonicalFrom f = true)
    (h : ∀ a, m.read a = n.read a) : m = n := by
  induction m generalizing n f with
  | nil =>
    cases n with
    | nil => rfl
    | cons q n =>
      obtain ⟨b, w⟩ := q
      have hn' := (canonicalFrom_cons f b w n).1 hn
      have := h b
      rw [Memory.read, Memory.read, if_pos rfl] at this
      exact absurd this.symm hn'.2.1
  | cons p m ih =>
    obtain ⟨a, v⟩ := p
    have hm' := (canonicalFrom_cons f a v m).1 hm
    cases n with
    | nil =>
      have := h a
      rw [Memory.read, Memory.read, if_pos rfl] at this
      exact absurd this hm'.2.1
    | cons q n =>
      obtain ⟨b, w⟩ := q
      have hn' := (canonicalFrom_cons f b w n).1 hn
      have hab : a = b := by
        rcases Nat.lt_trichotomy a b with hlt | heq | hgt
        · have := h a
          rw [Memory.read, if_pos rfl, Memory.read, if_neg (by omega), Memory.read_below hn'.2.2 (by omega)] at this
          exact absurd this hm'.2.1
        · exact heq
        · have := h b
          rw [Memory.read, if_neg (by omega), Memory.read_below hm'.2.2 (by omega), Memory.read, if_pos rfl] at this
          exact absurd this.symm hn'.2.1
      subst hab
      have hvw : v = w := by have := h a; rwa [Memory.read, if_pos rfl, Memory.read, if_pos rfl] at this
      subst hvw
      have : m = n := ih hm'.2.2 hn'.2.2 fun c => by
        by_cases hc : c = a
        · rw [hc, Memory.read_below hm'.2.2 (by omega), Memory.read_below hn'.2.2 (by omega)]
        · have := h c
          rwa [Memory.read, if_neg hc, Memory.read, if_neg hc] at this
      rw [this]

/-- A storage read succeeds exactly below MEM_SIZE, with the word there. -/
theorem State.memRead_eq_ok {s : State} {a : Nat} {w : Word} :
    s.memRead a = .ok w ↔ a < s.params.memSize ∧ w = s.mem.read a := by
  unfold State.memRead
  split <;> simp_all [eq_comm]

/-- A storage write succeeds exactly below MEM_SIZE and changes storage alone. -/
theorem State.memWrite_eq_ok {s t : State} {a : Nat} {v : Word} :
    s.memWrite a v = .ok t ↔ a < s.params.memSize ∧ t = { s with mem := s.mem.write a v } := by
  unfold State.memWrite
  split <;> simp_all [eq_comm]

/-- A storage read that fails is an access to an absent word. -/
theorem State.memRead_eq_error {s : State} {a : Nat} {e : Abort} :
    s.memRead a = .error e ↔ s.params.memSize ≤ a ∧ e = .absentStorage a := by
  unfold State.memRead
  split <;> simp_all [eq_comm]

/-- A storage write that fails is an access to an absent word. -/
theorem State.memWrite_eq_error {s : State} {a : Nat} {v : Word} {e : Abort} :
    s.memWrite a v = .error e ↔ s.params.memSize ≤ a ∧ e = .absentStorage a := by
  unfold State.memWrite
  split <;> simp_all [eq_comm]

end Sys2Proof.Machine
end

