-- ==== Sys2Proof/Laws/Registers.lean ====
section
/-! SUPPORT. Laws of the register file, the base registers and the halves of a word. -/

namespace Sys2Proof.Machine

/-- A register after a write. -/
theorem State.reg_setReg (s : State) (i k : GrsIndex) (v : Word) :
    (s.setReg i v).reg k = if k = i then v else s.reg k := by
  unfold State.reg State.setReg
  by_cases h : k = i
  · subst h; simp
  · have : i.toNat ≠ k.toNat := fun h' => h (BitVec.eq_of_toNat_eq h'.symm)
    rw [if_neg h]
    have hi := i.isLt
    have hk := k.isLt
    exact Vector.getElem_set_ne (by omega) (by omega) this

@[simp] theorem State.reg_setReg_self (s : State) (i : GrsIndex) (v : Word) : (s.setReg i v).reg i = v := by
  rw [reg_setReg, if_pos rfl]

theorem State.reg_setReg_ne {s : State} {i k : GrsIndex} {v : Word} (h : k ≠ i) : (s.setReg i v).reg k = s.reg k := by
  rw [reg_setReg, if_neg h]

/-- A base register after a write. -/
theorem State.base_setBase (s : State) (i k : BaseIndex) (d : Descriptor) :
    (s.setBase i d).base k = if k = i then d else s.base k := by
  unfold State.base State.setBase
  by_cases h : k = i
  · subst h; simp
  · have : i.toNat ≠ k.toNat := fun h' => h (BitVec.eq_of_toNat_eq h'.symm)
    rw [if_neg h]
    have hi := i.isLt
    have hk := k.isLt
    exact Vector.getElem_set_ne (by omega) (by omega) this

/-- The register files of two states are the same data if every register reads alike. -/
theorem State.grs_eq_of_reg {s t : State} (h : ∀ k, s.reg k = t.reg k) : s.grs = t.grs := by
  apply Vector.ext
  intro i hi
  have := h (BitVec.ofNat 7 i)
  simpa [State.reg, Nat.mod_eq_of_lt hi] using this

@[simp] theorem Word.high_ofHalves (hi lo : RelAddr) : (Word.ofHalves hi lo).high = hi := by
  apply BitVec.eq_of_toNat_eq
  simp only [Word.high, Word.ofHalves, BitVec.extractLsb'_toNat, BitVec.toNat_append]
  rw [← Nat.shiftLeft_add_eq_or_of_lt lo.isLt, Nat.shiftLeft_eq, Nat.shiftRight_eq_div_pow]
  have := lo.isLt
  have := hi.isLt
  omega

@[simp] theorem Word.low_ofHalves (hi lo : RelAddr) : (Word.ofHalves hi lo).low = lo := by
  apply BitVec.eq_of_toNat_eq
  simp only [Word.low, Word.ofHalves, BitVec.extractLsb'_toNat, BitVec.toNat_append]
  rw [← Nat.shiftLeft_add_eq_or_of_lt lo.isLt, Nat.shiftLeft_eq, Nat.shiftRight_eq_div_pow]
  have := lo.isLt
  have := hi.isLt
  omega

/-- A write to a register's low half keeps its high half, and every other register. -/
theorem State.reg_setRegLow (s : State) (i k : GrsIndex) (v : RelAddr) :
    (s.setRegLow i v).reg k = if k = i then Word.ofHalves (s.reg i).high v else s.reg k := by
  rw [State.setRegLow, reg_setReg]

theorem State.high_setRegLow (s : State) (i k : GrsIndex) (v : RelAddr) :
    ((s.setRegLow i v).reg k).high = (s.reg k).high := by
  rw [reg_setRegLow]
  split
  · next h => rw [h, Word.high_ofHalves]
  · rfl

end Sys2Proof.Machine
end

