-- ==== Sys2Proof/Laws/Attempts.lean ====
section
/-! SUPPORT. Laws of attempts and of their conclusion: how a sequence of steps ends, and what an instruction answers. -/

namespace Sys2Proof.Machine

/-- A sequence completes when both its parts do. -/
theorem Attempt.bind_eq_ok {α β : Type} {x : Attempt α} {f : α → Attempt β} {b : β} :
    (x >>= f) = .ok b ↔ ∃ a, x = .ok a ∧ f a = .ok b := by
  cases x <;> simp [bind, Except.bind]

/-- A sequence ends early when its first part does, or its second after the first. -/
theorem Attempt.bind_eq_error {α β : Type} {x : Attempt α} {f : α → Attempt β} {e : Abort} :
    (x >>= f) = .error e ↔ x = .error e ∨ ∃ a, x = .ok a ∧ f a = .error e := by
  cases x <;> simp [bind, Except.bind]

@[simp] theorem Attempt.ok_bind {α β : Type} (a : α) (f : α → Attempt β) :
    ((Except.ok a : Attempt α) >>= f) = f a := rfl

@[simp] theorem Attempt.error_bind {α β : Type} (e : Abort) (f : α → Attempt β) :
    ((Except.error e : Attempt α) >>= f) = .error e := rfl

@[simp] theorem conclude_ok (s t : State) : conclude s (.ok t) = .next t := rfl

@[simp] theorem conclude_interrupt (s : State) (c : Cause) :
    conclude s (.error (.interrupt c)) = .next (s.enqueue c) := rfl

@[simp] theorem conclude_absent (s : State) (a : Nat) :
    conclude s (.error (.absentStorage a)) = .fault (.absentStorage a) := rfl

/-- An instruction answers a next state when it completes with it, or is abandoned with a cause. -/
theorem conclude_eq_next {s t : State} {r : Attempt State} :
    conclude s r = .next t ↔ r = .ok t ∨ ∃ c, r = .error (.interrupt c) ∧ t = s.enqueue c := by
  rcases r with (c | a) | t'
  · simp [eq_comm]
  · simp
  · simp

/-- An instruction answers a next state unless it runs into absent storage. -/
theorem conclude_next_of_noAbsent {s : State} {r : Attempt State} (h : ∀ a, r ≠ .error (.absentStorage a)) :
    ∃ t, conclude s r = .next t := by
  rcases r with (c | a) | t'
  · exact ⟨_, rfl⟩
  · exact absurd rfl (h a)
  · exact ⟨_, rfl⟩

/-- The privilege check passes at PP 0 and raises class 14, SSF 1 elsewhere. -/
theorem requirePrivilege_eq_ok {iw : Word} {s : State} : requirePrivilege iw s = .ok () ↔ s.pp = 0 := by
  unfold requirePrivilege; split <;> simp_all

theorem requirePrivilege_eq_error {iw : Word} {s : State} {e : Abort} :
    requirePrivilege iw s = .error e ↔ s.pp ≠ 0 ∧ e = .interrupt (invalidInstruction 1 iw) := by
  unfold requirePrivilege
  split
  · next h => exact ⟨nofun, fun h' => absurd h h'.1⟩
  · next h => exact ⟨fun h' => ⟨h, (Except.error.inj h').symm⟩, fun h' => by rw [h'.2]⟩

/-- The field check passes for every j but 016 and 017. -/
theorem requireField_eq_ok {iw : Word} {j : BitVec 4} : requireField iw j = .ok () ↔ namesStorageField j = true := by
  unfold requireField; split <;> simp_all

theorem requireField_eq_error {iw : Word} {j : BitVec 4} {e : Abort} :
    requireField iw j = .error e ↔ namesStorageField j = false ∧ e = .interrupt (invalidInstruction 2 iw) := by
  unfold requireField
  split
  · next h => simp [h]
  · next h => simp [h, eq_comm (a := e)]

/-- The index check passes for x != 0. -/
theorem requireIndex_eq_ok {iw : Word} {o : Operand} : requireIndex iw o = .ok () ↔ o.x ≠ 0 := by
  unfold requireIndex; split <;> simp_all

theorem requireIndex_eq_error {iw : Word} {o : Operand} {e : Abort} :
    requireIndex iw o = .error e ↔ o.x = 0 ∧ e = .interrupt (invalidInstruction 2 iw) := by
  unfold requireIndex
  split
  · next h => exact ⟨fun h' => ⟨h, (Except.error.inj h').symm⟩, fun h' => by rw [h'.2]⟩
  · next h => exact ⟨nofun, fun h' => absurd h'.1 h⟩

/-- The bank lookup answers the descriptor listed, or class 9. -/
theorem State.lookup_eq_ok {s : State} {n : BankName} {d : Descriptor} :
    s.lookup n = .ok d ↔ findBank n s.bdt = some d := by
  unfold State.lookup; split <;> simp_all

theorem State.lookup_eq_error {s : State} {n : BankName} {e : Abort} :
    s.lookup n = .error e ↔ findBank n s.bdt = none ∧ e = .interrupt (addressingException n) := by
  unfold State.lookup
  split
  · next h => simp [h]
  · next h => simp [h, eq_comm (a := e)]

/-- A bank found is in the table. -/
theorem findBank_mem {n : BankName} {d : Descriptor} {l : List (BankName × Descriptor)} (h : findBank n l = some d) :
    (n, d) ∈ l := by
  induction l with
  | nil => simp [findBank] at h
  | cons p l ih =>
    obtain ⟨m, e⟩ := p
    rw [findBank] at h
    split at h
    · next hm => simp only [Option.some.injEq] at h; simp [hm, h]
    · exact List.mem_cons_of_mem _ (ih h)

end Sys2Proof.Machine
end

