-- ==== Sys2Proof/Laws/Decode.lean ====
section
/-! SUPPORT. The fields of a packed word, and packing by fields of masks. -/

namespace Sys2Proof

theorem toNat_append_add {m n : Nat} (x : BitVec m) (y : BitVec n) : (x ++ y).toNat = x.toNat * 2 ^ n + y.toNat := by
  rw [BitVec.toNat_append, ← Nat.shiftLeft_add_eq_or_of_lt y.isLt, Nat.shiftLeft_eq]

theorem ofBool_toNat_lt (b : Bool) : (BitVec.ofBool b).toNat < 2 := (BitVec.ofBool b).isLt

/-- R141's sum. -/
theorem pack_toNat (f : BitVec 6) (j a : BitVec 4) (o : Operand) :
    (pack f j a o).toNat = f.toNat * 2 ^ 30 + j.toNat * 2 ^ 26 + a.toNat * 2 ^ 22 + o.x.toNat * 2 ^ 18 +
      (BitVec.ofBool o.h).toNat * 2 ^ 17 + (BitVec.ofBool o.i).toNat * 2 ^ 16 + o.u.toNat := by
  simp only [pack, toNat_append_add]
  omega

@[simp] theorem fieldF_pack (f : BitVec 6) (j a : BitVec 4) (o : Operand) : fieldF (pack f j a o) = f := by
  apply BitVec.eq_of_toNat_eq
  rw [fieldF, BitVec.extractLsb'_toNat, pack_toNat, Nat.shiftRight_eq_div_pow]
  have := f.isLt; have := j.isLt; have := a.isLt; have := o.x.isLt; have := o.u.isLt
  have := ofBool_toNat_lt o.h; have := ofBool_toNat_lt o.i
  omega

@[simp] theorem fieldJ_pack (f : BitVec 6) (j a : BitVec 4) (o : Operand) : fieldJ (pack f j a o) = j := by
  apply BitVec.eq_of_toNat_eq
  rw [fieldJ, BitVec.extractLsb'_toNat, pack_toNat, Nat.shiftRight_eq_div_pow]
  have := f.isLt; have := j.isLt; have := a.isLt; have := o.x.isLt; have := o.u.isLt
  have := ofBool_toNat_lt o.h; have := ofBool_toNat_lt o.i
  omega

@[simp] theorem fieldA_pack (f : BitVec 6) (j a : BitVec 4) (o : Operand) : fieldA (pack f j a o) = a := by
  apply BitVec.eq_of_toNat_eq
  rw [fieldA, BitVec.extractLsb'_toNat, pack_toNat, Nat.shiftRight_eq_div_pow]
  have := f.isLt; have := j.isLt; have := a.isLt; have := o.x.isLt; have := o.u.isLt
  have := ofBool_toNat_lt o.h; have := ofBool_toNat_lt o.i
  omega

/-- Masking a packed word masks each field. -/
theorem pack_and (f g : BitVec 6) (j a k b : BitVec 4) (o p : Operand) :
    pack f j a o &&& pack g k b p =
      pack (f &&& g) (j &&& k) (a &&& b) ⟨o.x &&& p.x, o.h && p.h, o.i && p.i, o.u &&& p.u⟩ := by
  have hb : ∀ c d : Bool, BitVec.ofBool c &&& BitVec.ofBool d = BitVec.ofBool (c && d) := by decide
  simp only [pack]
  rw [BitVec.and_append, BitVec.and_append, BitVec.and_append, BitVec.and_append, BitVec.and_append,
    BitVec.and_append, hb, hb]

/-- The operand specification of zeros. -/
def zeroOperand : Operand := ⟨0, false, false, 0⟩

/-- A mask over the function code alone. -/
theorem pack_and_maskF (f : BitVec 6) (j a : BitVec 4) (o : Operand) :
    pack f j a o &&& 0o770000000000 = pack f 0 0 zeroOperand := by
  have hm : (0o770000000000 : Word) = pack (BitVec.allOnes 6) 0 0 zeroOperand := by decide
  rw [hm, pack_and]
  simp only [BitVec.and_allOnes]
  simp [zeroOperand]

/-- A mask over the function code and j. -/
theorem pack_and_maskFJ (f : BitVec 6) (j a : BitVec 4) (o : Operand) :
    pack f j a o &&& 0o777400000000 = pack f j 0 zeroOperand := by
  have hm : (0o777400000000 : Word) = pack (BitVec.allOnes 6) (BitVec.allOnes 4) 0 zeroOperand := by decide
  rw [hm, pack_and]
  simp only [BitVec.and_allOnes]
  simp [zeroOperand]

/-- A mask over the function code, j and a. -/
theorem pack_and_maskFJA (f : BitVec 6) (j a : BitVec 4) (o : Operand) :
    pack f j a o &&& 0o777760000000 = pack f j a zeroOperand := by
  have hm : (0o777760000000 : Word) = pack (BitVec.allOnes 6) (BitVec.allOnes 4) (BitVec.allOnes 4) zeroOperand := by
    decide
  rw [hm, pack_and]
  simp only [BitVec.and_allOnes]
  simp [zeroOperand]

/-- A mask over the function code and a. -/
theorem pack_and_maskFA (f : BitVec 6) (j a : BitVec 4) (o : Operand) :
    pack f j a o &&& 0o770360000000 = pack f 0 a zeroOperand := by
  have hm : (0o770360000000 : Word) = pack (BitVec.allOnes 6) 0 (BitVec.allOnes 4) zeroOperand := by decide
  rw [hm, pack_and]
  simp only [BitVec.and_allOnes]
  simp [zeroOperand]

end Sys2Proof
end

