-- ==== Sys2Proof/Laws/Operands.lean ====
section
/-! SUPPORT. What the resolver can do, once for each of its operations: what it changes, what it answers and how it can
end early. -/

namespace Sys2Proof.Machine

/-! ## What a resolution changes -/

theorem SameControl.refl (s : State) : SameControl s s := by simp [SameControl]

theorem SameControl.trans {s t u : State} (h₁ : SameControl s t) (h₂ : SameControl t u) : SameControl s u := by
  simp_all [SameControl]

theorem SameControl.setReg (s : State) (i : GrsIndex) (v : Word) : SameControl s (s.setReg i v) := by
  simp [SameControl]

/-- States with the same designator register have the same index registers. -/
theorem SameControl.isIndexRegister {s t : State} (h : SameControl s t) (k : GrsIndex) :
    t.isIndexRegister k ↔ s.isIndexRegister k := by
  have hx : t.xIndex = s.xIndex := by
    funext x
    have he : t.execSet = s.execSet := by rw [State.execSet, State.execSet, h.2.1]
    rw [State.xIndex, State.xIndex, he]
  unfold State.isIndexRegister
  rw [hx]

theorem SameControl.base {s t : State} (h : SameControl s t) (k : BaseIndex) : t.base k = s.base k := by
  simp [State.base, h.1]

theorem IndexedFrom.refl (s : State) : IndexedFrom s s := by
  simp [IndexedFrom, SameControl.refl]

theorem IndexedFrom.trans {s t u : State} (h₁ : IndexedFrom s t) (h₂ : IndexedFrom t u) : IndexedFrom s u := by
  obtain ⟨c₁, p₁, m₁, r₁⟩ := h₁
  obtain ⟨c₂, p₂, m₂, r₂⟩ := h₂
  refine ⟨c₁.trans c₂, p₂.trans p₁, m₂.trans m₁, fun k => ⟨(r₂ k).1.trans (r₁ k).1, fun hk => ?_⟩⟩
  rw [(r₂ k).2 (by rwa [c₁.isIndexRegister]), (r₁ k).2 hk]

/-- Setting the modifier of an index register is such a change. -/
theorem IndexedFrom.setRegLow (s : State) (x : BitVec 4) (hx : x ≠ 0) (v : RelAddr) :
    IndexedFrom s (s.setRegLow (s.xIndex x) v) := by
  refine ⟨by simp [SameControl], rfl, rfl, fun k => ⟨s.high_setRegLow _ _ _, fun hk => ?_⟩⟩
  rw [State.reg_setRegLow, if_neg fun h => hk ⟨x, hx, h⟩]

/-- Indexing changes at most one index register's modifier. -/
theorem index_indexedFrom (x : BitVec 4) (h : Bool) (d : RelAddr) (s : State) : IndexedFrom s (index x h d s).2 := by
  unfold index
  split
  · exact .refl s
  · next hx =>
    cases h
    · exact .refl s
    · exact .setRegLow s x hx _

theorem immediate_indexedFrom (j : BitVec 4) (o : Operand) (s : State) : IndexedFrom s (immediate j o s).2 := by
  unfold immediate
  by_cases h : o.x = 0
  · simp [h, IndexedFrom.refl]
  · dsimp only
    rw [if_neg h]
    exact index_indexedFrom o.x o.h (o.u.setWidth 18) s

theorem chase_indexedFrom {n : Nat} {o : Operand} {s t : State} {u : RelAddr} (h : chase n o s = .ok (u, t)) :
    IndexedFrom s t := by
  induction n generalizing o s with
  | zero =>
    have h' := Except.ok.inj h
    have := index_indexedFrom o.x o.h (o.u.setWidth 18) s
    rwa [h'] at this
  | succ n ih =>
    have hi := index_indexedFrom o.x o.h (o.u.setWidth 18) s
    rw [chase] at h
    revert h hi
    generalize index o.x o.h (o.u.setWidth 18) s = r
    obtain ⟨u₁, t₁⟩ := r
    intro h hi
    dsimp only at h hi
    split at h
    · split at h
      · exact hi.trans (ih h)
      · cases h
    · cases h
      exact hi

/-- Resolving an address changes only index registers' modifiers. -/
theorem resolveAddress_indexedFrom {o : Operand} {s t : State} {u : RelAddr} (h : resolveAddress o s = .ok (u, t)) :
    IndexedFrom s t := by
  unfold resolveAddress at h
  split at h
  · exact chase_indexedFrom h
  · have := index_indexedFrom o.x o.h (o.d.setWidth 18) s
    rwa [Except.ok.inj h] at this

/-! ## What a reference is -/

/-- A resolution answers the reference of the address it resolved. -/
theorem resolve_eq_ok {kind : Access} {n : Nat} {o : Operand} {s t : State} {r : Ref} :
    resolve kind n o s = .ok (r, t) ↔ ∃ u, resolveAddress o s = .ok (u, t) ∧ t.reference kind n o u = .ok r := by
  unfold resolve
  rw [Attempt.bind_eq_ok]
  constructor
  · rintro ⟨⟨u, t'⟩, h₁, h₂⟩
    obtain ⟨r', h₂, h₃⟩ := Attempt.bind_eq_ok.1 h₂
    cases h₃
    exact ⟨u, h₁, h₂⟩
  · rintro ⟨u, h₁, h₂⟩
    exact ⟨(u, t), h₁, Attempt.bind_eq_ok.2 ⟨r, h₂, rfl⟩⟩

/-- A resolution fails with the failure of its address, or of the reference of the address it resolved. -/
theorem resolve_eq_error {kind : Access} {n : Nat} {o : Operand} {s : State} {e : Abort} :
    resolve kind n o s = .error e ↔
      resolveAddress o s = .error e ∨ ∃ u t, resolveAddress o s = .ok (u, t) ∧ t.reference kind n o u = .error e := by
  unfold resolve
  rw [Attempt.bind_eq_error]
  simp [Attempt.bind_eq_error]

theorem resolve_indexedFrom {kind : Access} {n : Nat} {o : Operand} {s t : State} {r : Ref}
    (h : resolve kind n o s = .ok (r, t)) : IndexedFrom s t := by
  obtain ⟨u, h, -⟩ := resolve_eq_ok.1 h
  exact resolveAddress_indexedFrom h

theorem grsPrivilege_eq_ok {s : State} {is : List GrsIndex} : s.grsPrivilege is = .ok () ↔ s.firstForbidden is = none := by
  unfold State.grsPrivilege
  split <;> simp_all

theorem grsPrivilege_eq_error {s : State} {is : List GrsIndex} {e : Abort} :
    s.grsPrivilege is = .error e ↔
      ∃ i, s.firstForbidden is = some i ∧ e = .interrupt (referenceViolation 5 (i.setWidth 36) 0) := by
  unfold State.grsPrivilege
  split
  · next h => simp [h]
  · next i h => simp [h, eq_comm (a := e)]

/-- No address of a reference fails the limit test when the first is covered and the last is not above the upper
limit. -/
theorem Descriptor.limitFailure_eq_none {d : Descriptor} {u : RelAddr} {n : Nat} :
    d.limitFailure u n = none ↔ d.covers u = true ∧ u.toNat + n - 1 ≤ d.upper.toNat := by
  unfold Descriptor.limitFailure
  split
  · next h => simp_all
  · next h =>
    split
    · simp_all
      omega
    · simp_all

/-- What a reference that passes its tests is: a GRS register of the window, or a storage address that its base
register's limits and lock admit. -/
theorem reference_eq_ok {s : State} {kind : Access} {n : Nat} {o : Operand} {u : RelAddr} {r : Ref} :
    s.reference kind n o u = .ok r ↔
      (s.inWindow o u = true ∧ s.firstForbidden (grsRange (u.setWidth 7) n) = none ∧ r = .grs (u.setWidth 7)) ∨
        (s.inWindow o u = false ∧
          ∃ k, s.selectBase o u = some k ∧ (s.base k).limitFailure u n = none ∧
            s.lockFailure (s.base k) kind = none ∧ r = .mem k u) := by
  unfold State.reference
  split
  · next hw =>
    simp only [hw, Attempt.bind_eq_ok, true_and, Bool.true_eq_false, false_and, or_false]
    constructor
    · rintro ⟨⟨⟩, h, hr⟩
      exact ⟨grsPrivilege_eq_ok.1 h, (Except.ok.inj hr).symm⟩
    · rintro ⟨h, rfl⟩
      exact ⟨(), grsPrivilege_eq_ok.2 h, rfl⟩
  · next hw =>
    simp only [hw, Bool.false_eq_true, false_and, false_or, true_and]
    split
    · next h => simp [h]
    · next k h =>
      split
      · next a hl => simp [h, hl]
      · next hl =>
        split
        · next e hk => simp [h, hl, hk]
        · next hk => simp [h, hl, hk, eq_comm]

/-- A reference that fails a test raises class 8. -/
theorem reference_eq_error {s : State} {kind : Access} {n : Nat} {o : Operand} {u : RelAddr} {e : Abort}
    (h : s.reference kind n o u = .error e) : ∃ ssf a b, e = .interrupt (referenceViolation ssf a b) := by
  unfold State.reference at h
  split at h
  · rcases Attempt.bind_eq_error.1 h with h | ⟨_, _, h⟩
    · obtain ⟨i, -, rfl⟩ := grsPrivilege_eq_error.1 h
      exact ⟨_, _, _, rfl⟩
    · cases h
  · split at h
    · cases h; exact ⟨_, _, _, rfl⟩
    · split at h
      · cases h; exact ⟨_, _, _, rfl⟩
      · split at h
        · cases h; exact ⟨_, _, _, rfl⟩
        · cases h

/-- The words that a valid descriptor's limits admit exist. -/
theorem Descriptor.translate_lt {d : Descriptor} {m a : Nat} (hd : d.valid m = true) (hv : d.isVoid = false)
    (hl : d.lower.toNat ≤ a) (hu : a ≤ d.upper.toNat) : d.translate a < m := by
  simp only [Descriptor.valid, hv, Bool.false_or, Bool.and_eq_true, Bool.or_eq_true, decide_eq_true_eq] at hd
  unfold Descriptor.translate
  omega

/-- The void descriptor is valid where there is storage. -/
theorem Descriptor.void_valid {m : Nat} (h : 0 < m) : Descriptor.void.valid m = true := by
  simp [Descriptor.valid, Descriptor.void, h]

theorem Descriptor.covers_eq_true {d : Descriptor} {u : RelAddr} :
    d.covers u = true ↔ d.isVoid = false ∧ d.lower.toNat ≤ u.toNat ∧ u.toNat ≤ d.upper.toNat := by
  simp [Descriptor.covers, and_assoc]

/-- A resolved reference of a state with valid descriptors is backed by storage. -/
theorem reference_hasStorage {s : State} (hs : s.DescriptorsValid) {kind : Access} {n : Nat} {o : Operand} {u : RelAddr}
    {r : Ref} (h : s.reference kind n o u = .ok r) : s.HasStorage r n := by
  rcases reference_eq_ok.1 h with ⟨-, -, rfl⟩ | ⟨-, k, -, hl, -, rfl⟩
  · trivial
  · obtain ⟨hc, hn⟩ := Descriptor.limitFailure_eq_none.1 hl
    obtain ⟨hv, h₁, h₂⟩ := Descriptor.covers_eq_true.1 hc
    intro i hi
    exact Descriptor.translate_lt (hs.1 k) hv (by omega) (by omega)

/-! ## Reading and writing a reference -/

theorem readRef_eq_ok {s : State} {r : Ref} {k : Nat} {w : Word} :
    s.readRef r k = .ok w ↔
      (∃ i, r = .grs i ∧ w = s.reg (i + BitVec.ofNat 7 k)) ∨
        ∃ br u, r = .mem br u ∧ s.absolute br u k < s.params.memSize ∧ w = s.mem.read (s.absolute br u k) := by
  cases r with
  | grs i => simp [State.readRef, eq_comm]
  | mem br u => simp [State.readRef, State.memRead_eq_ok]

theorem readRef_ok {s : State} {r : Ref} {n k : Nat} (h : s.HasStorage r n) (hk : k < n) :
    ∃ w, s.readRef r k = .ok w := by
  cases r with
  | grs i => exact ⟨_, rfl⟩
  | mem br u => exact ⟨_, State.memRead_eq_ok.2 ⟨h k hk, rfl⟩⟩

theorem readRef_eq_error {s : State} {r : Ref} {k : Nat} {e : Abort} (h : s.readRef r k = .error e) :
    ∃ a, s.params.memSize ≤ a ∧ e = .absentStorage a := by
  cases r with
  | grs i => cases h
  | mem br u => exact ⟨_, State.memRead_eq_error.1 h⟩

theorem writeRef_eq_ok {s t : State} {r : Ref} {k : Nat} {v : Word} :
    s.writeRef r k v = .ok t ↔
      (∃ i, r = .grs i ∧ t = s.setReg (i + BitVec.ofNat 7 k) v) ∨
        ∃ br u, r = .mem br u ∧ s.absolute br u k < s.params.memSize ∧
          t = { s with mem := s.mem.write (s.absolute br u k) v } := by
  cases r with
  | grs i => simp [State.writeRef, eq_comm]
  | mem br u => simp [State.writeRef, State.memWrite_eq_ok]

theorem writeRef_ok {s : State} {r : Ref} {n k : Nat} (v : Word) (h : s.HasStorage r n) (hk : k < n) :
    ∃ t, s.writeRef r k v = .ok t := by
  cases r with
  | grs i => exact ⟨_, rfl⟩
  | mem br u => exact ⟨_, State.memWrite_eq_ok.2 ⟨h k hk, rfl⟩⟩

theorem writeRef_eq_error {s : State} {r : Ref} {k : Nat} {v : Word} {e : Abort} (h : s.writeRef r k v = .error e) :
    ∃ a, s.params.memSize ≤ a ∧ e = .absentStorage a := by
  cases r with
  | grs i => cases h
  | mem br u => exact ⟨_, State.memWrite_eq_error.1 h⟩

/-- A write to a reference changes registers or storage only. -/
theorem writeRef_sameControl {s t : State} {r : Ref} {k : Nat} {v : Word} (h : s.writeRef r k v = .ok t) :
    SameControl s t ∧ t.par = s.par := by
  rcases writeRef_eq_ok.1 h with ⟨i, -, rfl⟩ | ⟨br, u, -, -, rfl⟩ <;> simp [SameControl]

theorem writeField_eq_ok {s t : State} {r : Ref} {d : WordField} {v : Word} :
    s.writeField r d v = .ok t ↔ ∃ w, s.readRef r 0 = .ok w ∧ s.writeRef r 0 (insertField w d v) = .ok t := by
  unfold State.writeField
  rw [Attempt.bind_eq_ok]

theorem writeBlock_cons_eq_ok {s t : State} {r : Ref} {k : Nat} {w : Word} {ws : List Word} :
    s.writeBlock r k (w :: ws) = .ok t ↔ ∃ s', s.writeRef r k w = .ok s' ∧ s'.writeBlock r (k + 1) ws = .ok t := by
  rw [State.writeBlock, Attempt.bind_eq_ok]

/-- Writing a block changes registers or storage only. -/
theorem writeBlock_sameControl {s t : State} {r : Ref} {k : Nat} {ws : List Word}
    (h : s.writeBlock r k ws = .ok t) : SameControl s t ∧ t.par = s.par := by
  induction ws generalizing s k with
  | nil => cases h; simp [SameControl.refl]
  | cons w ws ih =>
    obtain ⟨s', h₁, h₂⟩ := writeBlock_cons_eq_ok.1 h
    obtain ⟨c₁, p₁⟩ := writeRef_sameControl h₁
    obtain ⟨c₂, p₂⟩ := ih h₂
    exact ⟨c₁.trans c₂, p₂.trans p₁⟩

/-- Loading registers changes registers only. -/
theorem loadRegs_sameControl (s : State) (is : List GrsIndex) (ws : List Word) :
    SameControl s (s.loadRegs is ws) ∧ (s.loadRegs is ws).par = s.par ∧ (s.loadRegs is ws).mem = s.mem := by
  induction is generalizing s ws with
  | nil => simp [State.loadRegs, SameControl.refl]
  | cons i is ih =>
    cases ws with
    | nil => simp [State.loadRegs, SameControl.refl]
    | cons w ws =>
      obtain ⟨c, p, m⟩ := ih (s.setReg i w) ws
      exact ⟨(SameControl.setReg s i w).trans c, p, m⟩

/-- A register that a list does not name keeps its value. -/
theorem loadRegs_reg_of_not_mem {s : State} {is : List GrsIndex} {ws : List Word} {k : GrsIndex} (h : k ∉ is) :
    (s.loadRegs is ws).reg k = s.reg k := by
  induction is generalizing s ws with
  | nil => simp [State.loadRegs]
  | cons i is ih =>
    cases ws with
    | nil => simp [State.loadRegs]
    | cons w ws =>
      rw [State.loadRegs, ih (fun hk => h (List.mem_cons_of_mem _ hk)),
        State.reg_setReg_ne fun hk => h (by rw [hk]; exact List.mem_cons_self)]

/-! ## Operand reads -/

theorem readFullWord_eq_ok {o : Operand} {s t : State} {w : Word} :
    readFullWord o s = .ok (w, t) ↔ ∃ r, resolve .read 1 o s = .ok (r, t) ∧ t.readRef r 0 = .ok w := by
  unfold readFullWord
  rw [Attempt.bind_eq_ok]
  constructor
  · rintro ⟨⟨r, t'⟩, h₁, h₂⟩
    obtain ⟨w', h₂, h₃⟩ := Attempt.bind_eq_ok.1 h₂
    cases h₃
    exact ⟨r, h₁, h₂⟩
  · rintro ⟨r, h₁, h₂⟩
    exact ⟨(r, t), h₁, Attempt.bind_eq_ok.2 ⟨w, h₂, rfl⟩⟩

theorem readDoubleWord_eq_ok {o : Operand} {s t : State} {w₀ w₁ : Word} :
    readDoubleWord o s = .ok ((w₀, w₁), t) ↔
      ∃ r, resolve .read 2 o s = .ok (r, t) ∧ t.readRef r 0 = .ok w₀ ∧ t.readRef r 1 = .ok w₁ := by
  unfold readDoubleWord
  rw [Attempt.bind_eq_ok]
  constructor
  · rintro ⟨⟨r, t'⟩, h₁, h₂⟩
    obtain ⟨a, h₂, h₃⟩ := Attempt.bind_eq_ok.1 h₂
    obtain ⟨b, h₃, h₄⟩ := Attempt.bind_eq_ok.1 h₃
    cases h₄
    exact ⟨r, h₁, h₂, h₃⟩
  · rintro ⟨r, h₁, h₂, h₃⟩
    exact ⟨(r, t), h₁, Attempt.bind_eq_ok.2 ⟨w₀, h₂, Attempt.bind_eq_ok.2 ⟨w₁, h₃, rfl⟩⟩⟩

theorem readFullWord_indexedFrom {o : Operand} {s t : State} {w : Word} (h : readFullWord o s = .ok (w, t)) :
    IndexedFrom s t := by
  obtain ⟨r, h, -⟩ := readFullWord_eq_ok.1 h
  exact resolve_indexedFrom h

theorem readDoubleWord_indexedFrom {o : Operand} {s t : State} {p : Word × Word}
    (h : readDoubleWord o s = .ok (p, t)) : IndexedFrom s t := by
  obtain ⟨w₀, w₁⟩ := p
  obtain ⟨r, h, -, -⟩ := readDoubleWord_eq_ok.1 h
  exact resolve_indexedFrom h

/-- An operand read changes only index registers' modifiers. -/
theorem readOperand_indexedFrom {j : BitVec 4} {o : Operand} {s t : State} {w : Word}
    (h : readOperand j o s = .ok (w, t)) : IndexedFrom s t := by
  unfold readOperand at h
  split at h
  · obtain ⟨⟨v, t'⟩, h₁, h₂⟩ := Attempt.bind_eq_ok.1 h
    cases h₂
    exact readFullWord_indexedFrom h₁
  · have := immediate_indexedFrom j o s
    rwa [Except.ok.inj h] at this

/-! ## The Return Control Stack -/

/-- A push that does not overflow writes the frame's two words and moves the pointer down. -/
theorem push_eq_ok {s t : State} {w : Word × Word} (h : s.push w = .ok t) :
    s.canPush = true ∧ SameControl s t ∧ t.par = s.par ∧
      t = (({ s with
        mem := (s.mem.write ((s.base Config.rcsBase).translate (s.rcsPointer.toNat - 2)) w.1).write
          ((s.base Config.rcsBase).translate (s.rcsPointer.toNat - 1)) w.2 } : State)).setRegLow
            Config.rcsPointer (s.rcsPointer - 2) := by
  unfold State.push at h
  split at h
  · next hp =>
    obtain ⟨t₁, h₁, h⟩ := Attempt.bind_eq_ok.1 h
    obtain ⟨t₂, h₂, h⟩ := Attempt.bind_eq_ok.1 h
    obtain ⟨-, rfl⟩ := State.memWrite_eq_ok.1 h₁
    obtain ⟨-, rfl⟩ := State.memWrite_eq_ok.1 h₂
    cases h
    exact ⟨hp, by simp [SameControl], rfl, rfl⟩
  · cases h

/-- A pop that does not underflow answers the frame's two words and moves the pointer up. -/
theorem pop_eq_ok {s t : State} {w : Word × Word} (h : s.pop = .ok (w, t)) :
    s.canPop = true ∧ w.1 = s.mem.read ((s.base Config.rcsBase).translate s.rcsPointer.toNat) ∧
      w.2 = s.mem.read ((s.base Config.rcsBase).translate (s.rcsPointer.toNat + 1)) ∧
      t = s.setRegLow Config.rcsPointer (s.rcsPointer + 2) := by
  unfold State.pop at h
  split at h
  · next hp =>
    obtain ⟨w₀, h₀, h⟩ := Attempt.bind_eq_ok.1 h
    obtain ⟨w₁, h₁, h⟩ := Attempt.bind_eq_ok.1 h
    cases h
    exact ⟨hp, (State.memRead_eq_ok.1 h₀).2, (State.memRead_eq_ok.1 h₁).2, rfl⟩
  · cases h

end Sys2Proof.Machine
end

