-- ==== Sys2Proof/Laws/Instructions.lean ====
section
/-! SUPPORT. What the shared templates of the instructions can do, and how an instruction that completes is shown to
complete with nothing else changed. -/

namespace Sys2Proof.Machine

/-! ## Reading and writing the words of a reference -/

/-- A word of a backed reference reads as the word there. -/
theorem readRef_wordAt {t : State} {r : Ref} {n k : Nat} (h : t.HasStorage r n) (hk : k < n) :
    t.readRef r k = .ok (t.wordAt r k) := by
  cases r with
  | grs g => rfl
  | mem br u => exact State.memRead_eq_ok.2 ⟨h k hk, rfl⟩

/-- A read that succeeds is of a word that exists. -/
theorem hasStorage_of_readRef {t : State} {r : Ref} {w : Word} (h : t.readRef r 0 = .ok w) :
    t.HasStorage r 1 ∧ w = t.wordAt r 0 := by
  rcases readRef_eq_ok.1 h with ⟨i, rfl, rfl⟩ | ⟨br, u, rfl, ha, rfl⟩
  · exact ⟨trivial, rfl⟩
  · refine ⟨fun k hk => ?_, rfl⟩
    obtain rfl : k = 0 := by omega
    exact ha

/-- A full-word read of a backed reference. -/
theorem readFullWord_wordAt {o : Operand} {s t : State} {r : Ref} (h : resolve .read 1 o s = .ok (r, t))
    (hr : t.HasStorage r 1) : readFullWord o s = .ok (t.wordAt r 0, t) :=
  readFullWord_eq_ok.2 ⟨r, h, readRef_wordAt hr (by omega)⟩

/-- A double-word read of a backed reference. -/
theorem readDoubleWord_wordAt {o : Operand} {s t : State} {r : Ref} (h : resolve .read 2 o s = .ok (r, t))
    (hr : t.HasStorage r 2) : readDoubleWord o s = .ok ((t.wordAt r 0, t.wordAt r 1), t) :=
  readDoubleWord_eq_ok.2 ⟨r, h, readRef_wordAt hr (by omega), readRef_wordAt hr (by omega)⟩

/-- A block read of a backed reference. -/
theorem readBlock_wordAt {t : State} {r : Ref} {n : Nat} (h : t.HasStorage r n) (k m : Nat) (hk : k + m ≤ n) :
    t.readBlock r k m = .ok ((List.range m).map fun i => t.wordAt r (k + i)) := by
  induction m generalizing k with
  | zero => rfl
  | succ m ih =>
    rw [State.readBlock, readRef_wordAt h (by omega), Attempt.ok_bind, ih (k + 1) (by omega), Attempt.ok_bind,
      List.range_succ_eq_map, List.map_cons, List.map_map]
    simp only [Nat.add_zero, Except.ok.injEq, List.cons.injEq, true_and]
    exact List.map_congr_left fun i _ => by simp [Nat.add_right_comm, Nat.add_assoc]

/-- The state with a word stored as word `k` of a reference. -/
def State.storeWord (t : State) (r : Ref) (k : Nat) (w : Word) : State :=
  match r with
  | .grs g => t.setReg (g + BitVec.ofNat 7 k) w
  | .mem br u => { t with mem := t.mem.write (t.absolute br u k) w }

/-- The state with the words stored from word `k` of a reference on. -/
def State.store (t : State) (r : Ref) (k : Nat) : List Word → State
  | [] => t
  | w :: ws => State.store (t.storeWord r k w) r (k + 1) ws

/-- Everything but registers and storage is untouched by a store, and one of the two is. -/
theorem store_same (t : State) (r : Ref) (k : Nat) (ws : List Word) :
    SameControl t (t.store r k ws) ∧ (t.store r k ws).par = t.par := by
  induction ws generalizing t k with
  | nil => exact ⟨.refl t, rfl⟩
  | cons w ws ih =>
    rw [State.store]
    obtain ⟨c, p⟩ := ih (t.storeWord r k w) (k + 1)
    refine ⟨SameControl.trans ?_ c, p.trans ?_⟩ <;> cases r <;> simp [SameControl, State.storeWord]

/-- A block write to a backed reference completes. -/
theorem writeBlock_store {t : State} {r : Ref} {n : Nat} (h : t.HasStorage r n) (k : Nat) (ws : List Word)
    (hk : k + ws.length ≤ n) : t.writeBlock r k ws = .ok (t.store r k ws) := by
  induction ws generalizing t k with
  | nil => rfl
  | cons w ws ih =>
    rw [List.length_cons] at hk
    rw [State.writeBlock]
    cases r with
    | grs g => exact ih (t := t.setReg (g + BitVec.ofNat 7 k) w) trivial (k + 1) (by omega)
    | mem br u =>
      have hw : t.writeRef (.mem br u) k w = .ok { t with mem := t.mem.write (t.absolute br u k) w } :=
        State.memWrite_eq_ok.2 ⟨h k (by omega), rfl⟩
      rw [hw, Attempt.ok_bind]
      exact ih (t := { t with mem := t.mem.write (t.absolute br u k) w }) h (k + 1) (by omega)

/-- A block write that completes is that store. -/
theorem writeBlock_eq_store {t t' : State} {r : Ref} {k : Nat} {ws : List Word} (h : t.writeBlock r k ws = .ok t') :
    t' = t.store r k ws := by
  induction ws generalizing t k with
  | nil => cases h; rfl
  | cons w ws ih =>
    obtain ⟨s', h₁, h₂⟩ := writeBlock_cons_eq_ok.1 h
    rcases writeRef_eq_ok.1 h₁ with ⟨i, rfl, rfl⟩ | ⟨br, u, rfl, -, rfl⟩ <;> exact ih h₂

/-- A field write to a backed reference completes with the word replaced. -/
theorem writeField_store {t : State} {r : Ref} (h : t.HasStorage r 1) (d : WordField) (v : Word) :
    t.writeField r d v = .ok (t.store r 0 [insertField (t.wordAt r 0) d v]) := by
  refine writeField_eq_ok.2 ⟨_, readRef_wordAt h (by omega), ?_⟩
  have := writeBlock_store h 0 [insertField (t.wordAt r 0) d v] (by simp)
  obtain ⟨s', h₁, h₂⟩ := writeBlock_cons_eq_ok.1 this
  rw [h₁]
  exact h₂

/-- A register store, read back. -/
theorem store_grs_reg (t : State) (g i : GrsIndex) (k : Nat) (ws : List Word) :
    ((t.store (.grs g) k ws).reg i =
        if ∃ m, m < ws.length ∧ i = g + BitVec.ofNat 7 (k + m) then (t.store (.grs g) k ws).reg i else t.reg i) ∧
      ∀ m, m < ws.length → (∀ m', m < m' → m' < ws.length → g + BitVec.ofNat 7 (k + m') ≠ g + BitVec.ofNat 7 (k + m)) →
        (t.store (.grs g) k ws).reg (g + BitVec.ofNat 7 (k + m)) = ws.getD m 0 := by
  induction ws generalizing t k i with
  | nil => simp [State.store]
  | cons w ws ih =>
    obtain ⟨h₁, h₂⟩ := ih (t.setReg (g + BitVec.ofNat 7 k) w) i (k + 1)
    refine ⟨?_, ?_⟩
    · split
      · rfl
      · next hn =>
        have hn' : ¬∃ m, m < ws.length ∧ i = g + BitVec.ofNat 7 (k + 1 + m) := by
          rintro ⟨m, hm, rfl⟩
          exact hn ⟨m + 1, by simpa using hm, by rw [Nat.add_assoc, Nat.add_comm 1]⟩
        rw [if_neg hn'] at h₁
        rw [State.store]
        refine h₁.trans ?_
        exact State.reg_setReg_ne fun h => hn ⟨0, by simp, by simpa using h⟩
    · intro m hm hlast
      rw [State.store]
      cases m with
      | zero =>
        have h' : ¬∃ m, m < ws.length ∧ g + BitVec.ofNat 7 (k + 0) = g + BitVec.ofNat 7 (k + 1 + m) := by
          rintro ⟨m, hm', h⟩
          have h0 := hlast (m + 1) (by omega) (by simpa using hm')
          rw [← Nat.add_assoc, Nat.add_right_comm] at h0
          exact h0 h.symm
        have h₃ := (ih (t.setReg (g + BitVec.ofNat 7 k) w) (g + BitVec.ofNat 7 (k + 0)) (k + 1)).1
        rw [if_neg h'] at h₃
        refine h₃.trans ?_
        simp
      | succ m =>
        have := h₂ m (by simpa using hm) fun m' h h' => by
          have := hlast (m' + 1) (by omega) (by simpa using h')
          rwa [show k + 1 + m' = k + (m' + 1) by omega, show k + 1 + m = k + (m + 1) by omega]
        rwa [show k + 1 + m = k + (m + 1) by omega] at this

/-- A storage store, read back: each word at its own address, every other address as before. -/
theorem store_mem_read {t : State} (br : BaseIndex) (u : RelAddr) (k : Nat) (ws : List Word) (ht : t.mem.wf = true)
    (hu : (t.base br).lower.toNat ≤ u.toNat) :
    (t.store (.mem br u) k ws).mem.wf = true ∧ (t.store (.mem br u) k ws).grs = t.grs ∧
      (∀ m, m < ws.length → (t.store (.mem br u) k ws).mem.read (t.absolute br u (k + m)) = ws.getD m 0) ∧
      ∀ a : Nat, (∀ m, m < ws.length → a ≠ t.absolute br u (k + m)) →
        (t.store (.mem br u) k ws).mem.read a = t.mem.read a := by
  induction ws generalizing t k with
  | nil => simp [State.store, ht]
  | cons w ws ih =>
    obtain ⟨h₀, hg, h₁, h₂⟩ := ih (t := { t with mem := t.mem.write (t.absolute br u k) w }) (k + 1)
      (Memory.write_wf _ _ ht) hu
    have habs : ∀ m, ({ t with mem := t.mem.write (t.absolute br u k) w } : State).absolute br u m =
        t.absolute br u m := fun _ => rfl
    simp only [habs] at h₁ h₂
    refine ⟨h₀, hg, ?_, ?_⟩
    · intro m hm
      rw [State.store]
      cases m with
      | zero =>
        rw [Nat.add_zero]
        refine (h₂ _ fun m _ => ?_).trans ((Memory.read_write ht _ _ _).trans (if_pos rfl))
        simp only [State.absolute, Descriptor.translate]; omega
      | succ m =>
        have := h₁ m (by simpa using hm)
        rwa [show k + 1 + m = k + (m + 1) by omega] at this
    · intro a ha
      rw [State.store]
      refine (h₂ a fun m hm => ?_).trans ((Memory.read_write ht _ _ _).trans (if_neg (by simpa using ha 0 (by simp))))
      have := ha (m + 1) (by simpa using hm)
      rwa [show k + 1 + m = k + (m + 1) by omega]

/-- The lower limit of a resolved storage reference. -/
theorem resolve_lower {kind : Access} {n : Nat} {o : Operand} {s t : State} {br : BaseIndex} {u : RelAddr}
    (h : resolve kind n o s = .ok (.mem br u, t)) : (t.base br).lower.toNat ≤ u.toNat := by
  obtain ⟨v, -, h⟩ := resolve_eq_ok.1 h
  rcases reference_eq_ok.1 h with ⟨-, -, h⟩ | ⟨-, k, -, hl, -, h⟩
  · cases h
  · cases h
    exact (Descriptor.covers_eq_true.1 (Descriptor.limitFailure_eq_none.1 hl).1).2.1

/-- A store at a resolved reference is what `StoredAt` says. -/
theorem store_storedAt {kind : Access} {n : Nat} {o : Operand} {s t : State} {r : Ref} (ws : List Word)
    (h : resolve kind n o s = .ok (r, t)) (hm : s.mem.wf = true) : StoredAt t (t.store r 0 ws).advance r ws := by
  cases r with
  | grs g =>
    refine ⟨?_, ?_, ?_⟩
    · have : ∀ (t : State) k ws, (t.store (.grs g) k ws).mem = t.mem := by
        intro t k ws
        induction ws generalizing t k with
        | nil => rfl
        | cons w ws ih => exact ih (t.setReg _ w) (k + 1)
      exact (this t 0 ws).symm
    · intro k hk hl
      have := (store_grs_reg t g 0 0 ws).2 k hk (by simpa using hl)
      simpa using this
    · intro i hi
      have := (store_grs_reg t g i 0 ws).1
      rw [if_neg (by rintro ⟨m, hm', rfl⟩; exact hi m hm' (by simp))] at this
      exact this
  | mem br u =>
    have ht : t.mem.wf = true := by rw [(resolve_indexedFrom h).2.2.1]; exact hm
    obtain ⟨-, hg, h₁, h₂⟩ := store_mem_read br u 0 ws ht (resolve_lower h)
    simp only [Nat.zero_add] at h₁ h₂
    exact ⟨hg.symm, h₁, h₂⟩

/-- An instruction that ends with a store at its resolved reference completes with that store alone. -/
theorem completesInStore {i : Instr} {kind : Access} {n : Nat} {o : Operand} {s t : State} {r : Ref} {ws : List Word}
    (h : resolve kind n o s = .ok (r, t)) (hm : s.mem.wf = true) (he : exec i s = .next (t.store r 0 ws).advance) :
    CompletesInStore i s t r ws := by
  have hi := resolve_indexedFrom h
  obtain ⟨c, p⟩ := store_same t r 0 ws
  refine ⟨_, he, hi, ?_, (hi.1.trans c).trans (by simp [SameControl]), store_storedAt ws h hm⟩
  simp [Advanced, State.advance, p, hi.2.1]

/-! ## Completing in registers -/

/-- An instruction that ends with registers set, one after another, completes with those registers alone. -/
theorem completesInRegisters {i : Instr} {s t : State} {ws : List (GrsIndex × Word)} (hi : IndexedFrom s t)
    (hd : (ws.map Prod.fst).Nodup)
    (he : exec i s = .next (ws.foldl (fun s w => s.setReg w.1 w.2) t).advance) :
    CompletesInRegisters i s t ws := by
  have key : ∀ (ws : List (GrsIndex × Word)) (t : State), (ws.map Prod.fst).Nodup →
      SameControl t (ws.foldl (fun s w => s.setReg w.1 w.2) t) ∧
      (ws.foldl (fun s w => s.setReg w.1 w.2) t).par = t.par ∧
      (ws.foldl (fun s w => s.setReg w.1 w.2) t).mem = t.mem ∧
      (∀ p ∈ ws, (ws.foldl (fun s w => s.setReg w.1 w.2) t).reg p.1 = p.2) ∧
      ∀ k, k ∉ ws.map Prod.fst → (ws.foldl (fun s w => s.setReg w.1 w.2) t).reg k = t.reg k := by
    intro ws
    induction ws with
    | nil => intro t _; simp [SameControl.refl]
    | cons w ws ih =>
      intro t hd
      rw [List.map_cons, List.nodup_cons] at hd
      obtain ⟨c, p, m, h₁, h₂⟩ := ih (t.setReg w.1 w.2) hd.2
      rw [List.foldl_cons]
      refine ⟨(SameControl.setReg t w.1 w.2).trans c, p, m, ?_, ?_⟩
      · intro q hq
        rcases List.mem_cons.1 hq with rfl | hq
        · rw [h₂ _ hd.1, State.reg_setReg_self]
        · exact h₁ q hq
      · intro k hk
        rw [List.map_cons, List.mem_cons, not_or] at hk
        rw [h₂ k hk.2, State.reg_setReg_ne hk.1]
  obtain ⟨c, p, m, h₁, h₂⟩ := key ws t hd
  refine ⟨_, he, hi, ?_, fun a => ?_, (hi.1.trans c).trans (by simp [SameControl]), h₁, h₂⟩
  · simp [Advanced, State.advance, p, hi.2.1]
  · rw [State.advance_mem, m, hi.2.2.1]

/-! ## The templates -/

theorem loadOperand_eq_ok {j : BitVec 4} {o : Operand} {s t : State} {put : State → Word → State} :
    loadOperand j o s put = .ok t ↔ ∃ op u, readOperand j o s = .ok (op, u) ∧ t = (put u op).advance := by
  unfold loadOperand
  rw [Attempt.bind_eq_ok]
  constructor
  · rintro ⟨⟨op, u⟩, h, h'⟩; cases h'; exact ⟨op, u, h, rfl⟩
  · rintro ⟨op, u, h, rfl⟩; exact ⟨(op, u), h, rfl⟩

theorem loadOperand_eq_error {j : BitVec 4} {o : Operand} {s : State} {put : State → Word → State} {e : Abort} :
    loadOperand j o s put = .error e ↔ readOperand j o s = .error e := by
  unfold loadOperand
  rw [Attempt.bind_eq_error]
  simp

/-- A store that completes names a field, resolves its reference and replaces the field there. -/
theorem storeOperand_eq_ok {iw : Word} {j : BitVec 4} {o : Operand} {s t : State} {value : State → Word}
    (h : storeOperand iw j o s value = .ok t) :
    namesStorageField j = true ∧ ∃ r u, resolve .write 1 o s = .ok (r, u) ∧ u.HasStorage r 1 ∧
      t = (u.store r 0 [insertField (u.wordAt r 0) (wordField j u.quarterMode) (value u)]).advance := by
  unfold storeOperand at h
  obtain ⟨_, h₁, h⟩ := Attempt.bind_eq_ok.1 h
  obtain ⟨⟨r, u⟩, h₂, h⟩ := Attempt.bind_eq_ok.1 h
  obtain ⟨t', h₃, h⟩ := Attempt.bind_eq_ok.1 h
  cases h
  obtain ⟨w, h₄, -⟩ := writeField_eq_ok.1 h₃
  have hs := (hasStorage_of_readRef h₄).1
  rw [writeField_store hs] at h₃
  cases h₃
  exact ⟨requireField_eq_ok.1 h₁, r, u, h₂, hs, rfl⟩

/-- A store of a field at a backed reference completes. -/
theorem storeOperand_ok {iw : Word} {j : BitVec 4} {o : Operand} {s t : State} {r : Ref} (value : State → Word)
    (hj : namesStorageField j = true) (h : resolve .write 1 o s = .ok (r, t)) (hr : t.HasStorage r 1) :
    storeOperand iw j o s value =
      .ok (t.store r 0 [insertField (t.wordAt r 0) (wordField j t.quarterMode) (value t)]).advance := by
  unfold storeOperand
  rw [requireField_eq_ok.2 hj, Attempt.ok_bind, h, Attempt.ok_bind]
  dsimp only
  rw [writeField_store hr]
  rfl

theorem shiftSingle_eq_ok {a : BitVec 4} {o : Operand} {s t : State} {f : Word → Nat → Word} :
    shiftSingle a o s f = .ok t ↔ ∃ u t', resolveAddress o s = .ok (u, t') ∧
      t = (t'.setReg (t'.aIndex a) (f (t'.reg (t'.aIndex a)) (u.extractLsb' 0 7).toNat)).advance := by
  unfold shiftSingle
  rw [Attempt.bind_eq_ok]
  constructor
  · rintro ⟨⟨u, t'⟩, h, h'⟩; cases h'; exact ⟨u, t', h, rfl⟩
  · rintro ⟨u, t', h, rfl⟩; exact ⟨(u, t'), h, rfl⟩

theorem shiftDouble_eq_ok {a : BitVec 4} {o : Operand} {s t : State} {f : BitVec 72 → Nat → BitVec 72} :
    shiftDouble a o s f = .ok t ↔ ∃ u t', resolveAddress o s = .ok (u, t') ∧
      t = (t'.setPair a (f (t'.pair a) (u.extractLsb' 0 7).toNat)).advance := by
  unfold shiftDouble
  rw [Attempt.bind_eq_ok]
  constructor
  · rintro ⟨⟨u, t'⟩, h, h'⟩; cases h'; exact ⟨u, t', h, rfl⟩
  · rintro ⟨u, t', h, rfl⟩; exact ⟨(u, t'), h, rfl⟩

theorem signalling_eq_ok {ssf : BitVec 6} {o : Operand} {s t : State} :
    signalling ssf o s = .ok t ↔ ∃ u t', resolveAddress o s = .ok (u, t') ∧ t = t'.advance.enqueue (signal ssf u) := by
  unfold signalling
  rw [Attempt.bind_eq_ok]
  constructor
  · rintro ⟨⟨u, t'⟩, h, h'⟩; cases h'; exact ⟨u, t', h, rfl⟩
  · rintro ⟨u, t', h, rfl⟩; exact ⟨(u, t'), h, rfl⟩

theorem checkOperand_eq_ok {o : Operand} {s t : State} :
    checkOperand o s = .ok t ↔ ∃ r t', resolve .check 1 o s = .ok (r, t') ∧ t = t'.advance := by
  unfold checkOperand
  rw [Attempt.bind_eq_ok]
  constructor
  · rintro ⟨⟨r, t'⟩, h, h'⟩; cases h'; exact ⟨r, t', h, rfl⟩
  · rintro ⟨r, t', h, rfl⟩; exact ⟨(r, t'), h, rfl⟩

theorem setDeferrableAndJump_eq_ok {iw : Word} {o : Operand} {s t : State} {enabled : Bool} :
    setDeferrableAndJump iw o s enabled = .ok t ↔ s.pp = 0 ∧ ∃ u t', resolveAddress o s = .ok (u, t') ∧
      t = { t'.jump u with dr := withDesignatorBit t'.dr 13 enabled } := by
  unfold setDeferrableAndJump
  rw [Attempt.bind_eq_ok]
  constructor
  · rintro ⟨_, h₀, h⟩
    obtain ⟨⟨u, t'⟩, h₁, h'⟩ := Attempt.bind_eq_ok.1 h
    cases h'
    exact ⟨requirePrivilege_eq_ok.1 h₀, u, t', h₁, rfl⟩
  · rintro ⟨h₀, u, t', h, rfl⟩
    exact ⟨(), requirePrivilege_eq_ok.2 h₀, Attempt.bind_eq_ok.2 ⟨(u, t'), h, rfl⟩⟩

/-! ## Register numbers under a resolution -/

theorem SameControl.aIndex {s t : State} (h : SameControl s t) (n : BitVec 4) : t.aIndex n = s.aIndex n := by
  rw [State.aIndex, State.aIndex, State.execSet, State.execSet, h.2.1]

theorem SameControl.xIndex {s t : State} (h : SameControl s t) (n : BitVec 4) : t.xIndex n = s.xIndex n := by
  rw [State.xIndex, State.xIndex, State.execSet, State.execSet, h.2.1]

theorem SameControl.rIndex {s t : State} (h : SameControl s t) (n : BitVec 4) : t.rIndex n = s.rIndex n := by
  rw [State.rIndex, State.rIndex, State.execSet, State.execSet, h.2.1]

theorem SameControl.quarterMode {s t : State} (h : SameControl s t) : t.quarterMode = s.quarterMode := by
  simp [State.quarterMode, h.2.1]

/-- EX0 never indexes. -/
theorem not_isIndexRegister_rcsPointer (s : State) : ¬s.isIndexRegister Config.rcsPointer := by
  rintro ⟨x, hx, h⟩
  rw [Config.rcsPointer, State.xIndex] at h
  revert x
  split <;> decide

/-- A resolution leaves the Return Control Stack pointer as it is. -/
theorem IndexedFrom.rcsPointer {s t : State} (h : IndexedFrom s t) :
    t.reg Config.rcsPointer = s.reg Config.rcsPointer :=
  (h.2.2.2 Config.rcsPointer).2 (not_isIndexRegister_rcsPointer s)

end Sys2Proof.Machine
end

