-- ==== Sys2Proof/Laws/Effects.lean ====
section
/-! SUPPORT. What executing an instruction can do, said once: the ways it can be abandoned and the ways it can complete.
Whole-machine statements follow from `exec_cases`. -/

namespace Sys2Proof.Machine

/-! ## How an instruction is abandoned -/

/-- Class 8 with an SSF that a reference or a register set raises. -/
def OperandViolation (c : Cause) : Prop := c.cls = 8 ∧ (c.ssf = 1 ∨ c.ssf = 2 ∨ c.ssf = 3 ∨ c.ssf = 5)

/-- An attempt that ends early, if at all, in a violation of its operand or in an absent word. -/
def EndsInViolation {α : Type} (x : Attempt α) : Prop :=
  ∀ e, x = .error e → (∃ c, e = .interrupt c ∧ OperandViolation c) ∨ ∃ a, e = .absentStorage a

theorem EndsInViolation.bind {α β : Type} {x : Attempt α} {f : α → Attempt β} (hx : EndsInViolation x)
    (hf : ∀ a, x = .ok a → EndsInViolation (f a)) : EndsInViolation (x >>= f) := by
  intro e h
  rcases Attempt.bind_eq_error.1 h with h | ⟨a, h₁, h₂⟩
  · exact hx e h
  · exact hf a h₁ e h₂

theorem EndsInViolation.ok {α : Type} (a : α) : EndsInViolation (.ok a : Attempt α) := nofun

theorem endsInViolation_grsPrivilege (s : State) (is : List GrsIndex) : EndsInViolation (s.grsPrivilege is) := by
  intro e h
  obtain ⟨i, -, rfl⟩ := grsPrivilege_eq_error.1 h
  exact .inl ⟨_, rfl, rfl, by simp [referenceViolation]⟩

theorem endsInViolation_reference (s : State) (kind : Access) (n : Nat) (o : Operand) (u : RelAddr) :
    EndsInViolation (s.reference kind n o u) := by
  unfold State.reference
  split
  · exact (endsInViolation_grsPrivilege _ _).bind fun _ _ => .ok _
  · intro e h
    split at h
    · cases h; exact .inl ⟨_, rfl, rfl, by simp [referenceViolation]⟩
    · split at h
      · cases h; exact .inl ⟨_, rfl, rfl, by simp [referenceViolation]⟩
      · split at h
        · next ssf hs =>
          cases h
          refine .inl ⟨_, rfl, rfl, ?_⟩
          unfold State.lockFailure at hs
          cases kind <;> dsimp only at hs <;> (try split at hs) <;> simp_all [referenceViolation]
        · cases h

theorem endsInViolation_memRead (s : State) (a : Nat) : EndsInViolation (s.memRead a) := by
  intro e h
  exact .inr ⟨a, (State.memRead_eq_error.1 h).2⟩

theorem endsInViolation_readRef (s : State) (r : Ref) (k : Nat) : EndsInViolation (s.readRef r k) := by
  cases r with
  | grs i => exact .ok _
  | mem br u => exact endsInViolation_memRead _ _

theorem endsInViolation_writeRef (s : State) (r : Ref) (k : Nat) (v : Word) : EndsInViolation (s.writeRef r k v) := by
  intro e h
  obtain ⟨a, -, rfl⟩ := writeRef_eq_error h
  exact .inr ⟨a, rfl⟩

theorem endsInViolation_writeField (s : State) (r : Ref) (d : WordField) (v : Word) :
    EndsInViolation (s.writeField r d v) :=
  (endsInViolation_readRef _ _ _).bind fun _ _ => endsInViolation_writeRef _ _ _ _

theorem endsInViolation_writeBlock (s : State) (r : Ref) (k : Nat) (ws : List Word) :
    EndsInViolation (s.writeBlock r k ws) := by
  induction ws generalizing s k with
  | nil => exact .ok _
  | cons w ws ih => exact (endsInViolation_writeRef _ _ _ _).bind fun t _ => ih t (k + 1)

theorem endsInViolation_readBlock (s : State) (r : Ref) (k n : Nat) : EndsInViolation (s.readBlock r k n) := by
  induction n generalizing k with
  | zero => exact .ok _
  | succ n ih =>
    exact (endsInViolation_readRef _ _ _).bind fun _ _ => (ih (k + 1)).bind fun _ _ => .ok _

theorem endsInViolation_chase (n : Nat) (o : Operand) (s : State) : EndsInViolation (chase n o s) := by
  induction n generalizing o s with
  | zero => exact .ok _
  | succ n ih =>
    rw [chase]
    generalize index o.x o.h (o.u.setWidth 18) s = p
    obtain ⟨u, t⟩ := p
    dsimp only
    split
    · split
      · exact ih _ _
      · next e' h =>
        intro e h'
        cases h'
        exact (endsInViolation_reference t .read 1 o u).bind (fun r _ => endsInViolation_readRef t r 0) e' h
    · exact .ok _

theorem endsInViolation_resolveAddress (o : Operand) (s : State) : EndsInViolation (resolveAddress o s) := by
  unfold resolveAddress
  split
  · exact endsInViolation_chase _ _ _
  · exact .ok _

theorem endsInViolation_resolve (kind : Access) (n : Nat) (o : Operand) (s : State) :
    EndsInViolation (resolve kind n o s) :=
  (endsInViolation_resolveAddress o s).bind fun _ _ => (endsInViolation_reference _ _ _ _ _).bind fun _ _ => .ok _

theorem endsInViolation_readFullWord (o : Operand) (s : State) : EndsInViolation (readFullWord o s) :=
  (endsInViolation_resolve _ _ _ _).bind fun _ _ => (endsInViolation_readRef _ _ _).bind fun _ _ => .ok _

theorem endsInViolation_readDoubleWord (o : Operand) (s : State) : EndsInViolation (readDoubleWord o s) :=
  (endsInViolation_resolve _ _ _ _).bind fun _ _ => (endsInViolation_readRef _ _ _).bind fun _ _ =>
    (endsInViolation_readRef _ _ _).bind fun _ _ => .ok _

theorem endsInViolation_readOperand (j : BitVec 4) (o : Operand) (s : State) : EndsInViolation (readOperand j o s) := by
  unfold readOperand
  split
  · exact (endsInViolation_readFullWord o s).bind fun _ _ => .ok _
  · exact .ok _

/-- The causes that an instruction can be abandoned with. -/
def Raised (i : Instr) (s : State) (c : Cause) : Prop :=
  OperandViolation c ∨
  (c.cls = 9 ∧ c.ssf = 0 ∧ c.isw1 = 0 ∧ ∃ o, i = .call o ∨ i = .goto o ∨ i = .rtn o) ∨
  (c = rcsFault 0 s.rcsPointer ∧ ∃ o, i = .call o ∨ i = .locl o) ∨
  (c = rcsFault 1 s.rcsPointer ∧ ∃ o, i = .rtn o) ∨
  (c = invalidInstruction 1 (encode i) ∧ i.privileged = true ∧ s.pp ≠ 0) ∨
  (c = invalidInstruction 2 (encode i) ∧
    (i.operandFormOk = false ∨ (s.params.upiAbsentTarget = .fault ∧ ∃ o, i = .send o)))

/-! ## How an instruction completes -/

/-- Registers set one after another. -/
def State.setAll (t : State) (ws : List (GrsIndex × Word)) : State := ws.foldl (fun s w => s.setReg w.1 w.2) t

/-- A register that an instruction may name as a target at the state's privilege: below 0120, unless PP is 0 or 1 or the
exec set is selected. -/
def State.Nameable (s : State) (k : GrsIndex) : Prop := k.toNat < 0o120 ∨ s.pp.toNat < 2 ∨ s.execSet = true

/-- The ways an instruction completes, from the state `t` that its address resolution leaves. -/
def Completed (i : Instr) (s t u : State) : Prop :=
  (∃ ws : List (GrsIndex × Word), u = (t.setAll ws).advance ∧ ∀ w ∈ ws, s.Nameable w.1) ∨
  (∃ (n : Nat) (o : Operand) (r : Ref) (ws : List Word), resolve .write n o s = .ok (r, t) ∧ t.HasStorage r n ∧ ws.length = n ∧ u = (t.store r 0 ws).advance) ∨
  (∃ (o : Operand) (w : Word) (d : Descriptor) (t' : State), i = .call o ∧ findBank w.high s.bdt = some d ∧ t.push t.frame = .ok t' ∧
    u = t'.transfer d w.high w.low) ∨
  (∃ (o : Operand) (v : RelAddr) (t' : State), i = .locl o ∧ t.push t.frame = .ok t' ∧ u = t'.jump v) ∨
  (∃ (o : Operand) (w : Word) (d : Descriptor), i = .goto o ∧ findBank w.high s.bdt = some d ∧ u = t.transfer d w.high w.low) ∨
  (∃ (o : Operand) (w₀ w₁ : Word) (d : Descriptor) (t' : State), i = .rtn o ∧ t.pop = .ok ((w₀, w₁), t') ∧ findBank w₀.high s.bdt = some d ∧
    u = { t'.transfer d w₀.high w₀.low with dr := restoredDesignators t.dr w₁ }) ∨
  (∃ (o : Operand) (v : RelAddr) (enabled : Bool), ((∃ a, i = .aaijB a o) ∨ i = .aaijE o ∨ i = .paij o) ∧ s.pp = 0 ∧
    u = { t.jump v with dr := withDesignatorBit t.dr 13 enabled }) ∨
  (∃ (o : Operand) (v : RelAddr) (ssf : BitVec 6), ((∃ a, i = .er a o) ∨ i = .sgnl o) ∧ u = t.advance.enqueue (signal ssf v)) ∨
  (∃ (o : Operand) (v : RelAddr), i = .send o ∧ u = t.advance.deliver v (upiSignal t.params.upiIndex)) ∨
  (∃ (o : Operand) (v : RelAddr), i = .halt o ∧ s.pp = 0 ∧ u = t.advance.stop .debug v)

theorem State.nameable_aIndex (s : State) (n : BitVec 4) (k : Nat) (hk : k ≤ 2) :
    s.Nameable (s.aIndex n + BitVec.ofNat 7 k) := by
  cases he : s.execSet
  · refine .inl ?_
    rw [State.aIndex, he]
    have := n.isLt
    have : (12 : GrsIndex).toNat = 12 := rfl
    simp only [Bool.false_eq_true, if_false, BitVec.toNat_add, BitVec.toNat_setWidth, BitVec.toNat_ofNat]
    omega
  · exact .inr (.inr he)

theorem State.nameable_aIndex_zero (s : State) (n : BitVec 4) : s.Nameable (s.aIndex n) := by
  simpa using s.nameable_aIndex n 0 (by omega)

theorem State.nameable_xIndex (s : State) (n : BitVec 4) : s.Nameable (s.xIndex n) := by
  cases he : s.execSet
  · refine .inl ?_
    rw [State.xIndex, he]
    have := n.isLt
    have : (0 : GrsIndex).toNat = 0 := rfl
    simp only [Bool.false_eq_true, if_false, BitVec.toNat_add, BitVec.toNat_setWidth]
    omega
  · exact .inr (.inr he)

theorem State.nameable_rIndex (s : State) (n : BitVec 4) : s.Nameable (s.rIndex n) := by
  cases he : s.execSet
  · refine .inl ?_
    rw [State.rIndex, he]
    have := n.isLt
    have : (64 : GrsIndex).toNat = 64 := rfl
    simp only [Bool.false_eq_true, if_false, BitVec.toNat_add, BitVec.toNat_setWidth]
    omega
  · exact .inr (.inr he)

/-- A register that passes the privilege test may be a target. -/
theorem State.nameable_of_firstForbidden {s : State} {is : List GrsIndex} (h : s.firstForbidden is = none)
    {k : GrsIndex} (hk : k ∈ is) : s.Nameable k := by
  unfold State.firstForbidden at h
  split at h
  · have := List.find?_eq_none.1 h k hk
    refine .inl ?_
    by_contra hc
    exact this (decide_eq_true (Nat.le_of_not_lt hc))
  · exact .inr (.inl (by omega))

/-- Loading a list of registers is setting them one after another. -/
theorem loadRegs_eq_setAll (t : State) (is : List GrsIndex) (ws : List Word) : t.loadRegs is ws = t.setAll (is.zip ws) := by
  induction is generalizing t ws with
  | nil => simp [State.loadRegs, State.setAll]
  | cons i is ih =>
    cases ws with
    | nil => simp [State.loadRegs, State.setAll]
    | cons w ws => exact ih (t.setReg i w) ws

/-! ## The templates -/

/-- What an attempt at an instruction comes to. -/
def Comes (i : Instr) (s : State) (x : Attempt State) : Prop :=
  (∀ u, x = .ok u → ∃ t, IndexedFrom s t ∧ Completed i s t u) ∧
    ∀ e, x = .error e → (∃ c, e = .interrupt c ∧ Raised i s c) ∨ ∃ a, e = .absentStorage a

theorem Comes.bind {i : Instr} {s : State} {α : Type} {x : Attempt α} {f : α → Attempt State} (hx : EndsInViolation x)
    (hf : ∀ a, x = .ok a → Comes i s (f a)) : Comes i s (x >>= f) := by
  constructor
  · intro u h
    obtain ⟨a, h₁, h₂⟩ := Attempt.bind_eq_ok.1 h
    exact (hf a h₁).1 u h₂
  · intro e h
    rcases Attempt.bind_eq_error.1 h with h | ⟨a, h₁, h₂⟩
    · exact (hx e h).imp (fun ⟨c, hc, hv⟩ => ⟨c, hc, .inl hv⟩) id
    · exact (hf a h₁).2 e h₂

theorem Comes.bindRaise {i : Instr} {s : State} {α : Type} {x : Attempt α} {f : α → Attempt State} {c : Cause}
    (hx : ∀ e, x = .error e → e = .interrupt c ∧ Raised i s c) (hf : ∀ a, x = .ok a → Comes i s (f a)) :
    Comes i s (x >>= f) := by
  constructor
  · intro u h
    obtain ⟨a, h₁, h₂⟩ := Attempt.bind_eq_ok.1 h
    exact (hf a h₁).1 u h₂
  · intro e h
    rcases Attempt.bind_eq_error.1 h with h | ⟨a, h₁, h₂⟩
    · exact .inl ⟨c, hx e h⟩
    · exact (hf a h₁).2 e h₂

theorem Comes.ok {i : Instr} {s t u : State} (ht : IndexedFrom s t) (h : Completed i s t u) : Comes i s (.ok u) := by
  refine ⟨fun u' h' => ?_, nofun⟩
  cases h'
  exact ⟨t, ht, h⟩

theorem Comes.raise {i : Instr} {s : State} {c : Cause} (h : Raised i s c) : Comes i s (.error (.interrupt c)) :=
  ⟨fun _ h' => (by cases h'), fun e h' => .inl ⟨c, (Except.error.inj h').symm, h⟩⟩

theorem comes_registers {i : Instr} {s t : State} (ws : List (GrsIndex × Word)) (ht : IndexedFrom s t)
    (hn : ∀ w ∈ ws, t.Nameable w.1) : Comes i s (.ok (t.setAll ws).advance) := by
  refine .ok ht (.inl ⟨ws, rfl, fun w hw => ?_⟩)
  have := hn w hw
  unfold State.Nameable State.pp State.execSet at *
  rwa [ht.1.2.1] at this

theorem comes_load {i : Instr} (s : State) (j : BitVec 4) (o : Operand) (k : State → GrsIndex)
    (v : State → Word → Word) (hk : ∀ t : State, t.Nameable (k t)) :
    Comes i s (loadOperand j o s fun t op => t.setReg (k t) (v t op)) :=
  .bind (endsInViolation_readOperand j o s) fun ⟨op, t⟩ h =>
    comes_registers [(k t, v t op)] (readOperand_indexedFrom h) (by simpa using hk t)

theorem comes_store {i : Instr} (s : State) (j : BitVec 4) (o : Operand) (v : State → Word)
    (hi : i.operandFormOk = namesStorageField j) : Comes i s (storeOperand (encode i) j o s v) := by
  constructor
  · intro u h
    obtain ⟨-, r, t, h₁, h₂, rfl⟩ := storeOperand_eq_ok h
    exact ⟨t, resolve_indexedFrom h₁, .inr (.inl ⟨1, o, r, _, h₁, h₂, rfl, rfl⟩)⟩
  · intro e h
    unfold storeOperand at h
    rcases Attempt.bind_eq_error.1 h with h | ⟨_, -, h⟩
    · obtain ⟨hj, rfl⟩ := requireField_eq_error.1 h
      exact .inl ⟨_, rfl, by simp [Raised, hi, hj]⟩
    · have : EndsInViolation (resolve .write 1 o s >>= fun (r, t) =>
          t.writeField r (wordField j t.quarterMode) (v t) >>= fun t' => (.ok t'.advance : Attempt State)) :=
        (endsInViolation_resolve _ _ _ _).bind fun _ _ => (endsInViolation_writeField _ _ _ _).bind fun _ _ => .ok _
      exact (this e h).imp (fun ⟨c, hc, hv⟩ => ⟨c, hc, .inl hv⟩) id

theorem comes_shiftSingle {i : Instr} (s : State) (a : BitVec 4) (o : Operand) (f : Word → Nat → Word) :
    Comes i s (shiftSingle a o s f) :=
  .bind (endsInViolation_resolveAddress o s) fun ⟨_, t⟩ h =>
    comes_registers [(t.aIndex a, _)] (resolveAddress_indexedFrom h) (by simpa using t.nameable_aIndex_zero a)

theorem comes_shiftDouble {i : Instr} (s : State) (a : BitVec 4) (o : Operand) (f : BitVec 72 → Nat → BitVec 72) :
    Comes i s (shiftDouble a o s f) :=
  .bind (endsInViolation_resolveAddress o s) fun ⟨_, t⟩ h =>
    comes_registers [(t.aIndex a, _), (t.aIndex a + 1, _)] (resolveAddress_indexedFrom h)
      (by simpa using ⟨t.nameable_aIndex_zero a, t.nameable_aIndex a 1 (by omega)⟩)

theorem comes_check {i : Instr} (s : State) (o : Operand) : Comes i s (checkOperand o s) :=
  .bind (endsInViolation_resolve _ _ _ _) fun ⟨_, _⟩ h => comes_registers [] (resolve_indexedFrom h) (by simp)

/-- A block stored at a resolved reference. -/
theorem comes_block {i : Instr} {s t : State} {n : Nat} {o : Operand} {r : Ref} (ws : List Word) (hn : ws.length = n)
    (h : resolve .write n o s = .ok (r, t)) :
    Comes i s (t.writeBlock r 0 ws >>= fun t' => (.ok t'.advance : Attempt State)) := by
  have hs : ∀ (ws : List Word) (t t' : State) (k : Nat), t.writeBlock r k ws = .ok t' →
      ∀ m, k ≤ m → m < k + ws.length → ∀ br u, r = .mem br u → t.absolute br u m < t.params.memSize := by
    intro ws
    induction ws with
    | nil => intro t t' k _ m h₁ h₂; simp at h₂; omega
    | cons w ws ih =>
      intro t t' k hw m h₁ h₂ br u hr
      obtain ⟨s', h₃, h₄⟩ := writeBlock_cons_eq_ok.1 hw
      subst hr
      rcases writeRef_eq_ok.1 h₃ with ⟨_, hc, -⟩ | ⟨br', u', hc, h₅, rfl⟩
      · cases hc
      · cases hc
        rcases Nat.eq_or_lt_of_le h₁ with rfl | h₁
        · exact h₅
        · exact ih _ _ (k + 1) h₄ m h₁ (by rw [List.length_cons] at h₂; omega) br u rfl
  refine .bind (endsInViolation_writeBlock _ _ _ _) fun t' h' => .ok (resolve_indexedFrom h) (.inr (.inl ?_))
  refine ⟨n, o, r, ws, h, ?_, hn, by rw [writeBlock_eq_store h']⟩
  cases hr : r with
  | grs g => trivial
  | mem br u => exact fun k hk => hs ws t t' 0 h' k (by omega) (by omega) br u hr

/-- AAIJ and PAIJ. -/
theorem comes_jump {i : Instr} (s : State) (o : Operand) (enabled : Bool) (hp : i.privileged = true)
    (hi : (∃ a, i = .aaijB a o) ∨ i = .aaijE o ∨ i = .paij o) :
    Comes i s (setDeferrableAndJump (encode i) o s enabled) := by
  refine .bindRaise (c := invalidInstruction 1 (encode i)) (fun e h => ?_) fun _ h₀ =>
    .bind (endsInViolation_resolveAddress o s) fun ⟨v, t⟩ h => ?_
  · obtain ⟨h₁, rfl⟩ := requirePrivilege_eq_error.1 h
    exact ⟨rfl, .inr (.inr (.inr (.inr (.inl ⟨rfl, hp, h₁⟩))))⟩
  · exact .ok (resolveAddress_indexedFrom h)
      (.inr (.inr (.inr (.inr (.inr (.inr (.inl ⟨o, v, enabled, hi, requirePrivilege_eq_ok.1 h₀, rfl⟩)))))))

theorem comes_signal {i : Instr} (s : State) (o : Operand) (ssf : BitVec 6) (hi : (∃ a, i = .er a o) ∨ i = .sgnl o) :
    Comes i s (signalling ssf o s) :=
  .bind (endsInViolation_resolveAddress o s) fun ⟨v, _⟩ h =>
    .ok (resolveAddress_indexedFrom h) (.inr (.inr (.inr (.inr (.inr (.inr (.inr (.inl ⟨o, v, ssf, hi, rfl⟩))))))))

/-- A push from a state that a resolution leaves overflows with the pointer of the state before. -/
theorem push_raises {i : Instr} {s t : State} (ht : IndexedFrom s t) (hi : ∃ o, i = .call o ∨ i = .locl o)
    {f : State → Attempt State} (hf : ∀ t', t.push t.frame = .ok t' → Comes i s (f t')) :
    Comes i s (t.push t.frame >>= f) := by
  constructor
  · intro u h
    obtain ⟨t', h₁, h₂⟩ := Attempt.bind_eq_ok.1 h
    exact (hf t' h₁).1 u h₂
  · intro e h
    rcases Attempt.bind_eq_error.1 h with h | ⟨t', h₁, h₂⟩
    · unfold State.push at h
      split at h
      · rcases Attempt.bind_eq_error.1 h with h | ⟨_, -, h⟩
        · exact .inr ⟨_, (State.memWrite_eq_error.1 h).2⟩
        · rcases Attempt.bind_eq_error.1 h with h | ⟨_, -, h⟩
          · exact .inr ⟨_, (State.memWrite_eq_error.1 h).2⟩
          · cases h
      · cases h
        refine .inl ⟨_, rfl, .inr (.inr (.inl ⟨?_, hi⟩))⟩
        rw [State.rcsPointer, State.rcsPointer, ht.rcsPointer]
    · exact (hf t' h₁).2 e h₂

/-- A lookup in a state that a resolution leaves raises class 9. -/
theorem lookup_raises {i : Instr} {s t : State} {n : BankName} (hb : t.bdt = s.bdt)
    (hi : ∃ o, i = .call o ∨ i = .goto o ∨ i = .rtn o) {f : Descriptor → Attempt State}
    (hf : ∀ d, findBank n s.bdt = some d → Comes i s (f d)) : Comes i s (t.lookup n >>= f) := by
  refine .bindRaise (c := addressingException n) (fun e h => ?_) fun d h => hf d ?_
  · exact ⟨(State.lookup_eq_error.1 h).2, .inr (.inl ⟨rfl, rfl, rfl, hi⟩)⟩
  · rw [← hb]; exact State.lookup_eq_ok.1 h

theorem SameControl.bdt {s t : State} (h : SameControl s t) : t.bdt = s.bdt := h.2.2.2.2.2.2.2.2.2.2.1

theorem SameControl.dr {s t : State} (h : SameControl s t) : t.dr = s.dr := h.2.1

theorem SameControl.params {s t : State} (h : SameControl s t) : t.params = s.params := h.2.2.2.2.2.2.2.2.2.2.2.2

/-- A pop underflows with the pointer. -/
theorem pop_raises {i : Instr} {s : State} (hi : ∃ o, i = .rtn o) {f : (Word × Word) × State → Attempt State}
    (hf : ∀ w t, s.pop = .ok (w, t) → Comes i s (f (w, t))) : Comes i s (s.pop >>= f) := by
  constructor
  · intro u h
    obtain ⟨⟨w, t⟩, h₁, h₂⟩ := Attempt.bind_eq_ok.1 h
    exact (hf w t h₁).1 u h₂
  · intro e h
    rcases Attempt.bind_eq_error.1 h with h | ⟨⟨w, t⟩, h₁, h₂⟩
    · unfold State.pop at h
      split at h
      · rcases Attempt.bind_eq_error.1 h with h | ⟨_, -, h⟩
        · exact .inr ⟨_, (State.memRead_eq_error.1 h).2⟩
        · rcases Attempt.bind_eq_error.1 h with h | ⟨_, -, h⟩
          · exact .inr ⟨_, (State.memRead_eq_error.1 h).2⟩
          · cases h
      · cases h
        exact .inl ⟨_, rfl, .inr (.inr (.inr (.inl ⟨rfl, hi⟩)))⟩
    · exact (hf w t h₁).2 e h₂

theorem pop_sameControl {s t : State} {w : Word × Word} (h : s.pop = .ok (w, t)) : SameControl s t := by
  rw [(pop_eq_ok h).2.2.2]
  exact SameControl.setReg _ _ _

/-! ## Every instruction -/

/-- LAQW. -/
theorem comes_laqw (a : BitVec 4) (o : Operand) (s : State) :
    ∃ x, exec (.laqw a o) s = conclude s x ∧ Comes (.laqw a o) s x := by
  refine ⟨_, rfl, .bindRaise (c := invalidInstruction 2 (encode (.laqw a o))) (fun e h => ?_) fun _ _ =>
    .bind (endsInViolation_readFullWord o s) fun ⟨w, t⟩ h => ?_⟩
  · obtain ⟨h₁, rfl⟩ := requireIndex_eq_error.1 h
    exact ⟨rfl, .inr (.inr (.inr (.inr (.inr ⟨rfl, .inl (by simp [Instr.operandFormOk, h₁])⟩))))⟩
  · exact comes_registers [(t.aIndex a, _)] (readFullWord_indexedFrom h) (by simpa using t.nameable_aIndex_zero a)

/-- SAQW. -/
theorem comes_saqw (a : BitVec 4) (o : Operand) (s : State) :
    ∃ x, exec (.saqw a o) s = conclude s x ∧ Comes (.saqw a o) s x := by
  refine ⟨_, rfl, .bindRaise (c := invalidInstruction 2 (encode (.saqw a o))) (fun e h => ?_) fun _ _ =>
    .bind (endsInViolation_resolve _ _ o s) fun ⟨r, t⟩ h =>
    .bind (endsInViolation_writeField _ _ _ _) fun t' h' => ?_⟩
  · obtain ⟨h₁, rfl⟩ := requireIndex_eq_error.1 h
    exact ⟨rfl, .inr (.inr (.inr (.inr (.inr ⟨rfl, .inl (by simp [Instr.operandFormOk, h₁])⟩))))⟩
  · obtain ⟨w, h₄, -⟩ := writeField_eq_ok.1 h'
    have hs := (hasStorage_of_readRef h₄).1
    rw [writeField_store hs] at h'
    cases h'
    exact .ok (resolve_indexedFrom h) (.inr (.inl ⟨1, o, r, [_], h, hs, rfl, rfl⟩))

/-- LOCL. -/
theorem comes_locl (o : Operand) (s : State) :
    ∃ x, exec (.locl o) s = conclude s x ∧ Comes (.locl o) s x := by
  refine ⟨_, rfl, .bind (endsInViolation_resolveAddress o s) fun ⟨u, t⟩ h =>
    push_raises (resolveAddress_indexedFrom h) ⟨o, .inr rfl⟩ fun t' h' => ?_⟩
  exact .ok (resolveAddress_indexedFrom h) (.inr (.inr (.inr (.inl ⟨o, u, t', rfl, h', rfl⟩))))

/-- CALL. -/
theorem comes_call (o : Operand) (s : State) :
    ∃ x, exec (.call o) s = conclude s x ∧ Comes (.call o) s x := by
  refine ⟨_, rfl, .bind (endsInViolation_readFullWord o s) fun ⟨w, t⟩ h =>
    lookup_raises (readFullWord_indexedFrom h).1.bdt ⟨o, .inl rfl⟩ fun d hd =>
    push_raises (readFullWord_indexedFrom h) ⟨o, .inl rfl⟩ fun t' h' => ?_⟩
  exact .ok (readFullWord_indexedFrom h) (.inr (.inr (.inl ⟨o, w, d, t', rfl, hd, h', rfl⟩)))

/-- GOTO. -/
theorem comes_goto (o : Operand) (s : State) :
    ∃ x, exec (.goto o) s = conclude s x ∧ Comes (.goto o) s x := by
  refine ⟨_, rfl, .bind (endsInViolation_readFullWord o s) fun ⟨w, t⟩ h =>
    lookup_raises (readFullWord_indexedFrom h).1.bdt ⟨o, .inr (.inl rfl)⟩ fun d hd => ?_⟩
  exact .ok (readFullWord_indexedFrom h) (.inr (.inr (.inr (.inr (.inl ⟨o, w, d, rfl, hd, rfl⟩)))))

/-- DL. -/
theorem comes_dl (a : BitVec 4) (o : Operand) (s : State) :
    ∃ x, exec (.dl a o) s = conclude s x ∧ Comes (.dl a o) s x := by
  exact ⟨_, rfl, .bind (endsInViolation_readDoubleWord o s) fun ⟨(w0, w1), t⟩ h =>
    comes_registers [(t.aIndex a, w0), (t.aIndex a + 1, w1)] (readDoubleWord_indexedFrom h)
      (by simpa using ⟨t.nameable_aIndex_zero a, t.nameable_aIndex a 1 (by omega)⟩)⟩

/-- SRS. -/
theorem comes_srs (a : BitVec 4) (o : Operand) (s : State) :
    ∃ x, exec (.srs a o) s = conclude s x ∧ Comes (.srs a o) s x := by
  refine ⟨_, rfl, ?_⟩
  dsimp only
  split
  · exact comes_registers [] (IndexedFrom.refl s) (by simp)
  · exact .bind (endsInViolation_grsPrivilege _ _) fun _ _ =>
      .bind (endsInViolation_resolve _ _ o s) fun ⟨r, t⟩ h => comes_block _ (by simp) h

/-- LRS. -/
theorem comes_lrs (a : BitVec 4) (o : Operand) (s : State) :
    ∃ x, exec (.lrs a o) s = conclude s x ∧ Comes (.lrs a o) s x := by
  refine ⟨_, rfl, ?_⟩
  dsimp only
  split
  · exact comes_registers [] (IndexedFrom.refl s) (by simp)
  · refine .bind (endsInViolation_grsPrivilege _ _) fun _ hp =>
      .bind (endsInViolation_resolve _ _ o s) fun ⟨r, t⟩ h =>
      .bind (endsInViolation_readBlock _ _ _ _) fun ws _ => ?_
    rw [loadRegs_eq_setAll]
    refine comes_registers _ (resolve_indexedFrom h) fun w hw => ?_
    have := State.nameable_of_firstForbidden (grsPrivilege_eq_ok.1 hp) (List.of_mem_zip hw).1
    unfold State.Nameable State.pp State.execSet at *
    rwa [(resolve_indexedFrom h).1.2.1]

/-- LSC. -/
theorem comes_lsc (a : BitVec 4) (o : Operand) (s : State) :
    ∃ x, exec (.lsc a o) s = conclude s x ∧ Comes (.lsc a o) s x := by
  exact ⟨_, rfl, .bind (endsInViolation_readFullWord o s) fun ⟨w, t⟩ h =>
    comes_registers [(t.aIndex a, _), (t.aIndex a + 1, _)] (readFullWord_indexedFrom h)
      (by simpa using ⟨t.nameable_aIndex_zero a, t.nameable_aIndex a 1 (by omega)⟩)⟩

/-- DLSC. -/
theorem comes_dlsc (a : BitVec 4) (o : Operand) (s : State) :
    ∃ x, exec (.dlsc a o) s = conclude s x ∧ Comes (.dlsc a o) s x := by
  exact ⟨_, rfl, .bind (endsInViolation_readDoubleWord o s) fun ⟨(w0, w1), t⟩ h =>
    comes_registers [(t.aIndex a, _), (t.aIndex a + 1, _), (t.aIndex a + 2, _)] (readDoubleWord_indexedFrom h)
      (by simpa using ⟨t.nameable_aIndex_zero a, t.nameable_aIndex a 1 (by omega), t.nameable_aIndex a 2 (by omega)⟩)⟩

/-- SEND. -/
theorem comes_send (o : Operand) (s : State) :
    ∃ x, exec (.send o) s = conclude s x ∧ Comes (.send o) s x := by
  refine ⟨_, rfl, .bind (endsInViolation_resolveAddress o s) fun ⟨u, t⟩ h => ?_⟩
  have ht := resolveAddress_indexedFrom h
  dsimp only
  split
  · exact comes_registers [] ht (by simp)
  · split
    · exact .ok ht (.inr (.inr (.inr (.inr (.inr (.inr (.inr (.inr (.inl ⟨o, u, rfl, rfl⟩)))))))))
    · split
      · exact comes_registers [] ht (by simp)
      · next hf =>
        rw [ht.1.params] at hf
        exact .raise (.inr (.inr (.inr (.inr (.inr ⟨rfl, .inr ⟨hf, o, rfl⟩⟩)))))

/-- RTN. -/
theorem comes_rtn (o : Operand) (s : State) :
    ∃ x, exec (.rtn o) s = conclude s x ∧ Comes (.rtn o) s x := by
  exact ⟨_, rfl, pop_raises ⟨o, rfl⟩ fun w t h => lookup_raises (pop_sameControl h).bdt ⟨o, .inr (.inr rfl)⟩ fun d hd =>
    .ok (IndexedFrom.refl s) (.inr (.inr (.inr (.inr (.inr (.inl ⟨o, w.1, w.2, d, t, rfl, h, hd,
      by rw [← (pop_sameControl h).dr]⟩))))))⟩

/-- HALT. -/
theorem comes_halt (o : Operand) (s : State) :
    ∃ x, exec (.halt o) s = conclude s x ∧ Comes (.halt o) s x := by
  refine ⟨_, rfl, .bindRaise (c := invalidInstruction 1 (encode (.halt o))) (fun e h => ?_) fun _ h₀ =>
    .bind (endsInViolation_resolveAddress o s) fun ⟨v, t⟩ h => ?_⟩
  · obtain ⟨h₁, rfl⟩ := requirePrivilege_eq_error.1 h
    exact ⟨rfl, .inr (.inr (.inr (.inr (.inl ⟨rfl, rfl, h₁⟩))))⟩
  · exact .ok (resolveAddress_indexedFrom h)
      (.inr (.inr (.inr (.inr (.inr (.inr (.inr (.inr (.inr ⟨o, v, rfl, requirePrivilege_eq_ok.1 h₀, rfl⟩)))))))))

/-- Every instruction's meaning is the conclusion of an attempt that comes to one of these ends. -/
theorem exec_comes (i : Instr) (s : State) : ∃ x, exec i s = conclude s x ∧ Comes i s x := by
  cases i
  case sa j a o => exact ⟨_, rfl, comes_store s j o _ rfl⟩
  case sna j a o => exact ⟨_, rfl, comes_store s j o _ rfl⟩
  case sma j a o => exact ⟨_, rfl, comes_store s j o _ rfl⟩
  case sr j a o => exact ⟨_, rfl, comes_store s j o _ rfl⟩
  case sz j o => exact ⟨_, rfl, comes_store s j o _ rfl⟩
  case snz j o => exact ⟨_, rfl, comes_store s j o _ rfl⟩
  case sp1 j o => exact ⟨_, rfl, comes_store s j o _ rfl⟩
  case sn1 j o => exact ⟨_, rfl, comes_store s j o _ rfl⟩
  case sfs j o => exact ⟨_, rfl, comes_store s j o _ rfl⟩
  case sfz j o => exact ⟨_, rfl, comes_store s j o _ rfl⟩
  case sas j o => exact ⟨_, rfl, comes_store s j o _ rfl⟩
  case saz j o => exact ⟨_, rfl, comes_store s j o _ rfl⟩
  case sx j a o => exact ⟨_, rfl, comes_store s j o _ rfl⟩
  case laqw a o => exact comes_laqw a o s
  case saqw a o => exact comes_saqw a o s
  case locl o => exact comes_locl o s
  case call o => exact comes_call o s
  case goto o => exact comes_goto o s
  case la j a o => exact ⟨_, rfl, comes_load s j o _ _ fun t => t.nameable_aIndex_zero a⟩
  case lna j a o => exact ⟨_, rfl, comes_load s j o _ _ fun t => t.nameable_aIndex_zero a⟩
  case lma j a o => exact ⟨_, rfl, comes_load s j o _ _ fun t => t.nameable_aIndex_zero a⟩
  case lnma j a o => exact ⟨_, rfl, comes_load s j o _ _ fun t => t.nameable_aIndex_zero a⟩
  case lr j a o => exact ⟨_, rfl, comes_load s j o _ _ fun t => t.nameable_rIndex a⟩
  case lxm j a o => exact ⟨_, rfl, comes_load s j o _ _ fun t => t.nameable_xIndex a⟩
  case lx j a o => exact ⟨_, rfl, comes_load s j o _ _ fun t => t.nameable_xIndex a⟩
  case orA j a o => exact ⟨_, rfl, comes_load s j o _ _ fun t => t.nameable_aIndex a 1 (by omega)⟩
  case xorA j a o => exact ⟨_, rfl, comes_load s j o _ _ fun t => t.nameable_aIndex a 1 (by omega)⟩
  case andA j a o => exact ⟨_, rfl, comes_load s j o _ _ fun t => t.nameable_aIndex a 1 (by omega)⟩
  case mlu j a o => exact ⟨_, rfl, comes_load s j o _ _ fun t => t.nameable_aIndex a 1 (by omega)⟩
  case lxi j a o => exact ⟨_, rfl, comes_load s j o _ _ fun t => t.nameable_xIndex a⟩
  case ds a o =>
    exact ⟨_, rfl, .bind (endsInViolation_resolve _ _ o s) fun ⟨r, t⟩ h => comes_block _ rfl h⟩
  case dl a o => exact comes_dl a o s
  case er a o => exact ⟨_, rfl, comes_signal s o 0 (.inl ⟨a, rfl⟩)⟩
  case srs a o => exact comes_srs a o s
  case lrs a o => exact comes_lrs a o s
  case ssc a o => exact ⟨_, rfl, comes_shiftSingle s a o _⟩
  case dsc a o => exact ⟨_, rfl, comes_shiftDouble s a o _⟩
  case ssl a o => exact ⟨_, rfl, comes_shiftSingle s a o _⟩
  case dsl a o => exact ⟨_, rfl, comes_shiftDouble s a o _⟩
  case ssa a o => exact ⟨_, rfl, comes_shiftSingle s a o _⟩
  case dsa a o => exact ⟨_, rfl, comes_shiftDouble s a o _⟩
  case lsc a o => exact comes_lsc a o s
  case dlsc a o => exact comes_dlsc a o s
  case lssc a o => exact ⟨_, rfl, comes_shiftSingle s a o _⟩
  case ldsc a o => exact ⟨_, rfl, comes_shiftDouble s a o _⟩
  case lssl a o => exact ⟨_, rfl, comes_shiftSingle s a o _⟩
  case ldsl a o => exact ⟨_, rfl, comes_shiftDouble s a o _⟩
  case nopE o => exact ⟨_, rfl, comes_check s o⟩
  case send o => exact comes_send o s
  case sgnl o => exact ⟨_, rfl, comes_signal s o 1 (.inr rfl)⟩
  case rtn o => exact comes_rtn o s
  case halt o => exact comes_halt o s
  case nopB a o => exact ⟨_, rfl, comes_check s o⟩
  case aaijB a o => exact ⟨_, rfl, comes_jump s o true rfl (.inl ⟨a, rfl⟩)⟩
  case aaijE o => exact ⟨_, rfl, comes_jump s o true rfl (.inr (.inl rfl))⟩
  case paij o => exact ⟨_, rfl, comes_jump s o false rfl (.inr (.inr rfl))⟩

/-- What an instruction that answers a next state has done: it was abandoned with a cause it can raise, or it completed
from the state of its address resolution. -/
theorem exec_cases {i : Instr} {s u : State} (h : exec i s = .next u) :
    (∃ c, u = s.enqueue c ∧ Raised i s c) ∨ ∃ t, IndexedFrom s t ∧ Completed i s t u := by
  obtain ⟨x, hx, hc⟩ := exec_comes i s
  rw [hx] at h
  cases x with
  | ok v => cases h; exact .inr (hc.1 u rfl)
  | error e =>
    rcases hc.2 e rfl with ⟨c, rfl, hr⟩ | ⟨a, rfl⟩
    · cases h; exact .inl ⟨c, rfl, hr⟩
    · cases h

/-! ## What a completion leaves -/

theorem SameControl.setAll (t : State) (ws : List (GrsIndex × Word)) : SameControl t (t.setAll ws) := by
  induction ws generalizing t with
  | nil => exact .refl t
  | cons w ws ih => exact (SameControl.setReg t w.1 w.2).trans (ih _)

theorem SameControl.advance (t : State) : SameControl t t.advance := by simp [SameControl]

theorem SameControl.jump (t : State) (v : RelAddr) : SameControl t (t.jump v) := by simp [SameControl]

/-- What an instruction's completion does to everything but registers, PAR and storage. -/
theorem Completed.control {i : Instr} {s t u : State} (ht : IndexedFrom s t) (h : Completed i s t u) :
    SameControl s u ∨
    (∃ (o : Operand) (n : BankName) (d : Descriptor), (i = .call o ∨ i = .goto o) ∧ findBank n s.bdt = some d ∧
      SameControl (s.setBase 0 d) u) ∨
    (∃ (o : Operand) (n : BankName) (d : Descriptor) (w : Word), i = .rtn o ∧ findBank n s.bdt = some d ∧
      SameControl { s.setBase 0 d with dr := restoredDesignators s.dr w } u) ∨
    (∃ (o : Operand) (e : Bool), ((∃ a, i = .aaijB a o) ∨ i = .aaijE o ∨ i = .paij o) ∧ s.pp = 0 ∧
      SameControl { s with dr := withDesignatorBit s.dr 13 e } u) ∨
    (∃ (o : Operand) (v : RelAddr) (ssf : BitVec 6), ((∃ a, i = .er a o) ∨ i = .sgnl o) ∧
      SameControl (s.enqueue (signal ssf v)) u) ∨
    (∃ (o : Operand) (v : RelAddr), i = .send o ∧ SameControl (s.deliver v (upiSignal s.params.upiIndex)) u) ∨
    ∃ (o : Operand) (v : RelAddr), i = .halt o ∧ s.pp = 0 ∧ SameControl (s.stop .debug v) u := by
  have hc := ht.1
  rcases h with ⟨ws, rfl, -⟩ | ⟨n, o, r, ws, -, -, -, rfl⟩ | ⟨o, w, d, t', rfl, hd, hp, rfl⟩ | ⟨o, v, t', rfl, hp, rfl⟩ |
    ⟨o, w, d, rfl, hd, rfl⟩ | ⟨o, w₀, w₁, d, t', rfl, hp, hd, rfl⟩ | ⟨o, v, e, hi, h0, rfl⟩ | ⟨o, v, ssf, hi, rfl⟩ |
    ⟨o, v, rfl, rfl⟩ | ⟨o, v, rfl, h0, rfl⟩
  · exact .inl ((hc.trans (.setAll t ws)).trans (.advance _))
  · exact .inl ((hc.trans (store_same t r 0 ws).1).trans (.advance _))
  · have := hc.trans (push_eq_ok hp).2.1
    refine .inr (.inl ⟨o, _, d, .inl rfl, hd, ?_⟩)
    simp_all [SameControl, State.transfer, State.setBase]
  · exact .inl ((hc.trans (push_eq_ok hp).2.1).trans (.jump _ _))
  · refine .inr (.inl ⟨o, _, d, .inr rfl, hd, ?_⟩)
    simp_all [SameControl, State.transfer, State.setBase]
  · have := hc.trans (pop_sameControl hp)
    refine .inr (.inr (.inl ⟨o, _, d, w₁, rfl, hd, ?_⟩))
    simp_all [SameControl, State.transfer, State.setBase]
  · refine .inr (.inr (.inr (.inl ⟨o, e, hi, h0, ?_⟩)))
    simp_all [SameControl]
  · refine .inr (.inr (.inr (.inr (.inl ⟨o, v, ssf, hi, ?_⟩))))
    simp_all [SameControl]
  · refine .inr (.inr (.inr (.inr (.inr (.inl ⟨o, v, rfl, ?_⟩)))))
    simp_all [SameControl, State.deliver]
  · refine .inr (.inr (.inr (.inr (.inr (.inr ⟨o, v, rfl, h0, ?_⟩)))))
    simp_all [SameControl]

/-- No cause that abandons an instruction is a signal. -/
theorem Raised.cls_ne {i : Instr} {s : State} {c : Cause} (h : Raised i s c) : c.cls ≠ 12 := by
  rcases h with ⟨h, -⟩ | ⟨h, -⟩ | ⟨rfl, -⟩ | ⟨rfl, -⟩ | ⟨rfl, -⟩ | ⟨rfl, -⟩ <;> simp_all [rcsFault, invalidInstruction]

/-! ## A step -/

/-- What a step of a running processor can do: dispatch a request, run an instruction, or raise an undefined word or a
fetch fault. -/
theorem step_cases {s t : State} (hr : s.run = .running) (h : step s = .next t) :
    (∃ q, s.selected = some q ∧ t = s.dispatch q) ∨
    (s.selected = none ∧ ∃ w i, s.fetchWord = .ok w ∧ decode s.mode w = some i ∧ exec i s.fetched = .next t) ∨
    (s.selected = none ∧ ∃ w, s.fetchWord = .ok w ∧ t = s.fetched.enqueue (invalidInstruction 0 w)) ∨
    (s.selected = none ∧ ∃ c, s.fetchWord = .error (.interrupt c) ∧ t = s.fetchFault c) := by
  simp only [step, hr, cycle] at h
  split at h
  · cases h; exact .inl ⟨_, ‹_›, rfl⟩
  · split at h
    · simp only [runWord] at h
      split at h
      · exact .inr (.inl ⟨‹_›, _, _, ‹_›, ‹_›, h⟩)
      · cases h; exact .inr (.inr (.inl ⟨‹_›, _, ‹_›, rfl⟩))
    · cases h; exact .inr (.inr (.inr ⟨‹_›, _, ‹_›, rfl⟩))
    · cases h

end Sys2Proof.Machine
end

