-- ==== Sys2Proof/Laws/HostCalls.lean ====
section
/-! SUPPORT. What the host's load does, once for each of its operations: which images it accepts, and the storage,
registers and base registers that it leaves. -/

namespace Sys2Proof.Machine

/-! ## Which images are accepted -/

theorem distinctNames_iff {bs : List LoadBank} : distinctNames bs = true ↔ (bs.map LoadBank.name).Nodup := by
  induction bs with
  | nil => simp [distinctNames]
  | cons b bs ih => simp [distinctNames, ih]

/-- The table of a load has an entry for a name when some bank has the name. -/
theorem LoadImage.findBank_isSome {l : LoadImage} {n : BankName} :
    (findBank n l.table).isSome = true ↔ ∃ b ∈ l.banks, b.name = n := by
  unfold LoadImage.table
  generalize l.banks = bs
  induction bs with
  | nil => simp [findBank]
  | cons b bs ih =>
    simp only [List.map_cons, findBank, List.exists_mem_cons_iff]
    split
    · next h => simp [h]
    · next h => simp [h, ih]

/-- A bank is acceptable when its base is below MEM_SIZE and its words are as many as its limits cover and exist. -/
theorem LoadBank.acceptable_iff {m : Nat} {b : LoadBank} :
    b.acceptable m = true ↔
      b.descriptor.base < m ∧ (b.descriptor.isVoid = true → b.words = []) ∧
        (b.descriptor.isVoid = false →
          b.descriptor.lower.toNat + b.words.length = b.descriptor.upper.toNat + 1 ∧
          (b.descriptor.lower.toNat ≤ b.descriptor.upper.toNat →
            b.descriptor.base + (b.descriptor.upper.toNat - b.descriptor.lower.toNat) < m)) := by
  unfold LoadBank.acceptable Descriptor.valid
  cases hv : b.descriptor.isVoid
  · simp only [Bool.and_eq_true, decide_eq_true_eq, Bool.or_eq_true, Bool.false_eq_true, false_or, if_false,
      beq_iff_eq, false_imp_iff, true_and, true_imp_iff]
    constructor
    · rintro ⟨⟨h₁, -, h₂⟩, h₃⟩
      exact ⟨h₁, h₃, fun h => by omega⟩
    · rintro ⟨h₁, h₂, h₃⟩
      exact ⟨⟨h₁, by omega, (Nat.lt_or_ge _ _).imp id h₃⟩, h₂⟩
  · simp

/-- A base register with one assignment is assigned that bank. -/
theorem assignedBank_of_mem {l : List (BaseIndex × BankName)} {p : BaseIndex × BankName} (hp : p ∈ l)
    (h : ∀ p' ∈ l, p'.1 = p.1 → p' = p) : assignedBank p.1 l = some p.2 := by
  induction l with
  | nil => cases hp
  | cons q l ih =>
    obtain ⟨i, n⟩ := q
    rw [assignedBank]
    split
    · next hi => rw [← h _ List.mem_cons_self hi]
    · next hi =>
      rcases List.mem_cons.1 hp with rfl | hp
      · exact absurd rfl hi
      · exact ih hp fun q hq => h q (List.mem_cons_of_mem _ hq)

/-- A base register is assigned no bank when the list does not name it. -/
theorem assignedBank_eq_none {l : List (BaseIndex × BankName)} {k : BaseIndex} :
    assignedBank k l = none ↔ ∀ p ∈ l, p.1 ≠ k := by
  induction l with
  | nil => simp [assignedBank]
  | cons q l ih =>
    obtain ⟨i, n⟩ := q
    rw [assignedBank]
    split <;> simp_all

/-! ## Registers and storage -/

theorem setRegs_sameControl (s : State) (gs : List (GrsIndex × Word)) :
    SameControl s (s.setRegs gs) ∧ (s.setRegs gs).mem = s.mem := by
  induction gs generalizing s with
  | nil => exact ⟨.refl _, rfl⟩
  | cons g gs ih => exact ⟨(SameControl.setReg s _ _).trans (ih _).1, (ih _).2⟩

/-- A register that the list does not name keeps its value. -/
theorem setRegs_reg_of_not_mem {s : State} {gs : List (GrsIndex × Word)} {k : GrsIndex} (h : ∀ p ∈ gs, p.1 ≠ k) :
    (s.setRegs gs).reg k = s.reg k := by
  induction gs generalizing s with
  | nil => rfl
  | cons g gs ih =>
    rw [State.setRegs, List.foldl_cons, ← State.setRegs, ih fun p hp => h p (List.mem_cons_of_mem _ hp),
      State.reg_setReg_ne fun hk => h g List.mem_cons_self hk.symm]

/-- A register that the list names with one value holds that value. -/
theorem setRegs_reg_of_mem {s : State} {gs : List (GrsIndex × Word)} {p : GrsIndex × Word} (hp : p ∈ gs)
    (h : ∀ p' ∈ gs, p'.1 = p.1 → p' = p) : (s.setRegs gs).reg p.1 = p.2 := by
  induction gs generalizing s with
  | nil => cases hp
  | cons g gs ih =>
    rw [State.setRegs, List.foldl_cons, ← State.setRegs]
    by_cases hm : p ∈ gs
    · exact ih hm fun p' hp' => h p' (List.mem_cons_of_mem _ hp')
    · obtain rfl : p = g := (List.mem_cons.1 hp).resolve_right hm
      rw [setRegs_reg_of_not_mem, State.reg_setReg_self]
      exact fun p' hp' he => hm (h p' (List.mem_cons_of_mem _ hp') he ▸ hp')

/-- Storage after a block of words is written. -/
theorem Memory.read_writeAll {m : Memory} (h : m.wf = true) (a : Nat) (ws : List Word) (x : Nat) :
    (m.writeAll a ws).read x = if a ≤ x ∧ x < a + ws.length then ws.getD (x - a) 0 else m.read x := by
  induction ws generalizing m a with
  | nil => rw [if_neg (by simp)]; rfl
  | cons w ws ih =>
    rw [Memory.writeAll, ih (Memory.write_wf _ _ h), Memory.read_write h, List.length_cons]
    by_cases hx : x = a
    · subst hx
      rw [if_neg (by omega), if_pos rfl, if_pos (by omega)]
      simp
    · by_cases hw : a + 1 ≤ x ∧ x < a + 1 + ws.length
      · obtain ⟨j, rfl⟩ : ∃ j, x = a + 1 + j := ⟨x - (a + 1), by omega⟩
        rw [if_pos hw, if_pos (by omega), show a + 1 + j - (a + 1) = j by omega,
          show a + 1 + j - a = j + 1 by omega]
        rfl
      · rw [if_neg hw, if_neg hx, if_neg (by omega)]

theorem loadBanks_wf {m : Memory} (h : m.wf = true) (bs : List LoadBank) : (loadBanks m bs).wf = true := by
  induction bs generalizing m with
  | nil => exact h
  | cons b bs ih => exact ih (Memory.writeAll_wf _ _ h)

/-- A word outside every bank of a load keeps its value. -/
theorem loadBanks_read_outside {m : Memory} (h : m.wf = true) {bs : List LoadBank} {x : Nat}
    (hx : ∀ b ∈ bs, ∀ n : Nat, n < b.words.length → b.descriptor.base + n ≠ x) :
    (loadBanks m bs).read x = m.read x := by
  induction bs generalizing m with
  | nil => rfl
  | cons b bs ih =>
    rw [loadBanks, List.foldl_cons, ← loadBanks,
      ih (Memory.writeAll_wf _ _ h) fun b' hb => hx b' (List.mem_cons_of_mem _ hb), Memory.read_writeAll h, if_neg]
    exact fun hr => hx b List.mem_cons_self (x - b.descriptor.base) (by omega) (by omega)

/-! ## The whole load -/

/-- A load that is not refused: its conditions, and the state that it leaves. -/
theorem State.load_eq_some {s t : State} {l : LoadImage} :
    s.load l = some t ↔
      s.run ≠ .running ∧ l.acceptable s.params.memSize = true ∧ (findBank l.entry.bank l.table).isSome = true ∧
      { (s.setRegs l.initialGrs).setRegLow Config.rcsPointer l.rcsPointer with
        mem := loadBanks s.mem l.banks, bdt := l.table
        b := Vector.ofFn fun k => l.descriptorFor (BitVec.ofFin k)
        dr := l.initialDr, key := l.initialKey, par := l.entry, pending := { s.pending with requests := [] }
        save := none, lastInterrupt := none, entry := false
        run := .idle, stopReason := .none, stopDetail := 0 } = t := by
  unfold State.load
  by_cases hr : s.run = .running
  · simp [hr]
  · cases ha : l.acceptable s.params.memSize <;> cases hf : (findBank l.entry.bank l.table).isSome <;> simp [hr]

end Sys2Proof.Machine
end

