-- ==== Sys2Proof/Laws/PerInstr.lean ====
section
/-! SUPPORT. The family `EncodingMatchesRow`: for each instruction, its encoding has its row's pattern under its row's
mask (R147, R148). -/

namespace Sys2Proof.Laws.EncodingMatchesRow

/-- The word of the instruction matches its row of the opcode table. -/
def Statement (i : Instr) : Prop := encode i &&& i.row.mask = i.row.pattern

theorem sa (j a : BitVec 4) (o : Operand) : Statement (.sa j a o) :=
  (pack_and_maskF _ _ _ _).trans rfl

theorem sna (j a : BitVec 4) (o : Operand) : Statement (.sna j a o) :=
  (pack_and_maskF _ _ _ _).trans rfl

theorem sma (j a : BitVec 4) (o : Operand) : Statement (.sma j a o) :=
  (pack_and_maskF _ _ _ _).trans rfl

theorem sr (j a : BitVec 4) (o : Operand) : Statement (.sr j a o) :=
  (pack_and_maskF _ _ _ _).trans rfl

theorem sz (j : BitVec 4) (o : Operand) : Statement (.sz j o) :=
  (pack_and_maskFA _ _ _ _).trans rfl

theorem snz (j : BitVec 4) (o : Operand) : Statement (.snz j o) :=
  (pack_and_maskFA _ _ _ _).trans rfl

theorem sp1 (j : BitVec 4) (o : Operand) : Statement (.sp1 j o) :=
  (pack_and_maskFA _ _ _ _).trans rfl

theorem sn1 (j : BitVec 4) (o : Operand) : Statement (.sn1 j o) :=
  (pack_and_maskFA _ _ _ _).trans rfl

theorem sfs (j : BitVec 4) (o : Operand) : Statement (.sfs j o) :=
  (pack_and_maskFA _ _ _ _).trans rfl

theorem sfz (j : BitVec 4) (o : Operand) : Statement (.sfz j o) :=
  (pack_and_maskFA _ _ _ _).trans rfl

theorem sas (j : BitVec 4) (o : Operand) : Statement (.sas j o) :=
  (pack_and_maskFA _ _ _ _).trans rfl

theorem saz (j : BitVec 4) (o : Operand) : Statement (.saz j o) :=
  (pack_and_maskFA _ _ _ _).trans rfl

theorem sx (j a : BitVec 4) (o : Operand) : Statement (.sx j a o) :=
  (pack_and_maskF _ _ _ _).trans rfl

theorem laqw (a : BitVec 4) (o : Operand) : Statement (.laqw a o) :=
  (pack_and_maskFJ _ _ _ _).trans rfl

theorem saqw (a : BitVec 4) (o : Operand) : Statement (.saqw a o) :=
  (pack_and_maskFJ _ _ _ _).trans rfl

theorem locl (o : Operand) : Statement (.locl o) :=
  (pack_and_maskFJA _ _ _ _).trans rfl

theorem call (o : Operand) : Statement (.call o) :=
  (pack_and_maskFJA _ _ _ _).trans rfl

theorem goto (o : Operand) : Statement (.goto o) :=
  (pack_and_maskFJA _ _ _ _).trans rfl

theorem la (j a : BitVec 4) (o : Operand) : Statement (.la j a o) :=
  (pack_and_maskF _ _ _ _).trans rfl

theorem lna (j a : BitVec 4) (o : Operand) : Statement (.lna j a o) :=
  (pack_and_maskF _ _ _ _).trans rfl

theorem lma (j a : BitVec 4) (o : Operand) : Statement (.lma j a o) :=
  (pack_and_maskF _ _ _ _).trans rfl

theorem lnma (j a : BitVec 4) (o : Operand) : Statement (.lnma j a o) :=
  (pack_and_maskF _ _ _ _).trans rfl

theorem lr (j a : BitVec 4) (o : Operand) : Statement (.lr j a o) :=
  (pack_and_maskF _ _ _ _).trans rfl

theorem lxm (j a : BitVec 4) (o : Operand) : Statement (.lxm j a o) :=
  (pack_and_maskF _ _ _ _).trans rfl

theorem lx (j a : BitVec 4) (o : Operand) : Statement (.lx j a o) :=
  (pack_and_maskF _ _ _ _).trans rfl

theorem orA (j a : BitVec 4) (o : Operand) : Statement (.orA j a o) :=
  (pack_and_maskF _ _ _ _).trans rfl

theorem xorA (j a : BitVec 4) (o : Operand) : Statement (.xorA j a o) :=
  (pack_and_maskF _ _ _ _).trans rfl

theorem andA (j a : BitVec 4) (o : Operand) : Statement (.andA j a o) :=
  (pack_and_maskF _ _ _ _).trans rfl

theorem mlu (j a : BitVec 4) (o : Operand) : Statement (.mlu j a o) :=
  (pack_and_maskF _ _ _ _).trans rfl

theorem lxi (j a : BitVec 4) (o : Operand) : Statement (.lxi j a o) :=
  (pack_and_maskF _ _ _ _).trans rfl

theorem ds (a : BitVec 4) (o : Operand) : Statement (.ds a o) :=
  (pack_and_maskFJ _ _ _ _).trans rfl

theorem dl (a : BitVec 4) (o : Operand) : Statement (.dl a o) :=
  (pack_and_maskFJ _ _ _ _).trans rfl

theorem er (a : BitVec 4) (o : Operand) : Statement (.er a o) :=
  (pack_and_maskFJ _ _ _ _).trans rfl

theorem srs (a : BitVec 4) (o : Operand) : Statement (.srs a o) :=
  (pack_and_maskFJ _ _ _ _).trans rfl

theorem lrs (a : BitVec 4) (o : Operand) : Statement (.lrs a o) :=
  (pack_and_maskFJ _ _ _ _).trans rfl

theorem ssc (a : BitVec 4) (o : Operand) : Statement (.ssc a o) :=
  (pack_and_maskFJ _ _ _ _).trans rfl

theorem dsc (a : BitVec 4) (o : Operand) : Statement (.dsc a o) :=
  (pack_and_maskFJ _ _ _ _).trans rfl

theorem ssl (a : BitVec 4) (o : Operand) : Statement (.ssl a o) :=
  (pack_and_maskFJ _ _ _ _).trans rfl

theorem dsl (a : BitVec 4) (o : Operand) : Statement (.dsl a o) :=
  (pack_and_maskFJ _ _ _ _).trans rfl

theorem ssa (a : BitVec 4) (o : Operand) : Statement (.ssa a o) :=
  (pack_and_maskFJ _ _ _ _).trans rfl

theorem dsa (a : BitVec 4) (o : Operand) : Statement (.dsa a o) :=
  (pack_and_maskFJ _ _ _ _).trans rfl

theorem lsc (a : BitVec 4) (o : Operand) : Statement (.lsc a o) :=
  (pack_and_maskFJ _ _ _ _).trans rfl

theorem dlsc (a : BitVec 4) (o : Operand) : Statement (.dlsc a o) :=
  (pack_and_maskFJ _ _ _ _).trans rfl

theorem lssc (a : BitVec 4) (o : Operand) : Statement (.lssc a o) :=
  (pack_and_maskFJ _ _ _ _).trans rfl

theorem ldsc (a : BitVec 4) (o : Operand) : Statement (.ldsc a o) :=
  (pack_and_maskFJ _ _ _ _).trans rfl

theorem lssl (a : BitVec 4) (o : Operand) : Statement (.lssl a o) :=
  (pack_and_maskFJ _ _ _ _).trans rfl

theorem ldsl (a : BitVec 4) (o : Operand) : Statement (.ldsl a o) :=
  (pack_and_maskFJ _ _ _ _).trans rfl

theorem nopE (o : Operand) : Statement (.nopE o) :=
  (pack_and_maskFJA _ _ _ _).trans rfl

theorem send (o : Operand) : Statement (.send o) :=
  (pack_and_maskFJA _ _ _ _).trans rfl

theorem sgnl (o : Operand) : Statement (.sgnl o) :=
  (pack_and_maskFJA _ _ _ _).trans rfl

theorem rtn (o : Operand) : Statement (.rtn o) :=
  (pack_and_maskFJA _ _ _ _).trans rfl

theorem halt (o : Operand) : Statement (.halt o) :=
  (pack_and_maskFJA _ _ _ _).trans rfl

theorem nopB (a : BitVec 4) (o : Operand) : Statement (.nopB a o) :=
  (pack_and_maskFJ _ _ _ _).trans rfl

theorem aaijB (a : BitVec 4) (o : Operand) : Statement (.aaijB a o) :=
  (pack_and_maskFJ _ _ _ _).trans rfl

theorem aaijE (o : Operand) : Statement (.aaijE o) :=
  (pack_and_maskFJA _ _ _ _).trans rfl

theorem paij (o : Operand) : Statement (.paij o) :=
  (pack_and_maskFJA _ _ _ _).trans rfl

end Sys2Proof.Laws.EncodingMatchesRow
end

