-- ==== Sys2Proof/Laws/Rules.lean ====
section
/-! SUPPORT. The model's operations in the words of the claims: encodings, the base-register search, quarter-word fields,
shifts, designator bits and the Return Control Stack. -/

namespace Sys2Proof.Machine

/-! ## Encodings -/

/-- The operand fields of a packed word. -/
theorem operandOf_pack (f : BitVec 6) (j a : BitVec 4) (o : Operand) : operandOf (pack f j a o) = o := by
  have e := pack_toNat f j a o
  have hf := f.isLt; have hj := j.isLt; have ha := a.isLt; have hx := o.x.isLt; have hu := o.u.isLt
  have hh := ofBool_toNat_lt o.h; have hi := ofBool_toNat_lt o.i
  obtain ⟨x, h, i, u⟩ := o
  simp only [operandOf, Operand.mk.injEq]
  refine ⟨?_, ?_, ?_, ?_⟩
  · apply BitVec.eq_of_toNat_eq
    rw [BitVec.extractLsb'_toNat, e, Nat.shiftRight_eq_div_pow]; dsimp only at *; omega
  · rw [BitVec.getLsbD, Nat.testBit_eq_decide_div_mod_eq, e]; cases h <;> simp at * <;> omega
  · rw [BitVec.getLsbD, Nat.testBit_eq_decide_div_mod_eq, e]; cases i <;> simp at * <;> omega
  · apply BitVec.eq_of_toNat_eq
    rw [BitVec.extractLsb'_toNat, e, Nat.shiftRight_eq_div_pow]; dsimp only at *; omega

/-- A word is packed from its fields. -/
theorem pack_fields (w : Word) : pack (fieldF w) (fieldJ w) (fieldA w) (operandOf w) = w := by
  apply BitVec.eq_of_toNat_eq
  rw [pack_toNat]
  have hw := w.isLt
  simp only [fieldF, fieldJ, fieldA, operandOf, BitVec.extractLsb'_toNat, Nat.shiftRight_eq_div_pow]
  have e1 : (BitVec.ofBool (w.getLsbD 17)).toNat = w.toNat / 2^17 % 2 := by
    rw [BitVec.toNat_ofBool, BitVec.getLsbD, Nat.testBit_eq_decide_div_mod_eq]
    rcases Nat.mod_two_eq_zero_or_one (w.toNat / 2 ^ 17) with h | h <;> rw [h] <;> rfl
  have e2 : (BitVec.ofBool (w.getLsbD 16)).toNat = w.toNat / 2^16 % 2 := by
    rw [BitVec.toNat_ofBool, BitVec.getLsbD, Nat.testBit_eq_decide_div_mod_eq]
    rcases Nat.mod_two_eq_zero_or_one (w.toNat / 2 ^ 16) with h | h <;> rw [h] <;> rfl
  rw [e1, e2]
  omega

/-! ## Base registers and indexing -/

/-- `covers` in the words of the claims. -/
theorem Descriptor.covers_iff {d : Descriptor} {u : RelAddr} : d.covers u = true ↔ d.Holds u.toNat := by
  rw [Descriptor.covers_eq_true]; rfl

/-- The permissions that R108 grants are those that `permissions` computes. -/
theorem State.Granted.eq_permissions {s : State} {d p} (h : s.Granted d p) : p = s.permissions d := by
  unfold State.permissions
  obtain ⟨h1, h2⟩ := h
  by_cases hh : (s.key.ring < d.lock.ring ∨ s.key.domain = d.lock.domain)
  · rw [h1 hh, if_pos]; simpa [BitVec.lt_def] using hh
  · rw [h2 hh, if_neg]; simpa [BitVec.lt_def] using hh

/-- R104's search is `basicBase`. -/
theorem State.searchTakes_iff {s : State} {u k} : s.SearchTakes u k ↔ s.basicBase u = some k := by
  unfold State.SearchTakes State.basicBase State.basicOrder State.alternateOrder
  rw [List.find?_eq_some_iff_append]
  constructor
  · rintro ⟨b, a, h1, h2, h3⟩
    refine ⟨Descriptor.covers_iff.2 h2, b, a, h1, fun x hx => ?_⟩
    have := h3 x hx
    rw [← Descriptor.covers_iff] at this; simpa using this
  · rintro ⟨h2, b, a, h1, h3⟩
    refine ⟨b, a, h1, Descriptor.covers_iff.1 h2, fun x hx => ?_⟩
    have := h3 x hx
    rw [← Descriptor.covers_iff]; simpa using this

/-- R104's search fails exactly when no register of the four holds the address. -/
theorem State.basicBase_eq_none {s : State} {u : RelAddr} :
    (∀ k ∈ [12, 13, 14, 15], ¬(s.base k).Holds u.toNat) ↔ s.basicBase u = none := by
  unfold State.basicBase State.basicOrder State.alternateOrder
  simp only [← Descriptor.covers_iff]
  split <;> simp <;> tauto

/-- What indexing by X1 to X15 answers and leaves (R91, R93). -/
theorem index_of_ne_zero (x : BitVec 4) (h : Bool) (d : RelAddr) (s : State) (hx : x ≠ 0) :
   ∃ t, index x h d s = (add18 d (s.reg (s.xIndex x)).low, t) ∧ IndexedFrom s t ∧
      (∀ k : GrsIndex, k ≠ s.xIndex x → t.reg k = s.reg k) ∧
      (t.reg (s.xIndex x)).high = (s.reg (s.xIndex x)).high ∧
      (t.reg (s.xIndex x)).low =
        if h then add18 (s.reg (s.xIndex x)).low (s.reg (s.xIndex x)).high
        else (s.reg (s.xIndex x)).low := by
  have hi := index_indexedFrom x h d s
  unfold index at *
  rw [if_neg hx] at hi ⊢
  refine ⟨_, rfl, hi, ?_, ?_, ?_⟩
  · intro k hk
    cases h <;> simp [State.reg_setRegLow, hk]
  · cases h <;> simp [State.reg_setRegLow]
  · cases h <;> simp [State.reg_setRegLow]

/-- The registers of a range. -/
theorem mem_grsRange {g k : GrsIndex} {n} : k ∈ grsRange g n ↔ ∃ m < n, k = g + BitVec.ofNat 7 m := by
  simp [grsRange, eq_comm]

/-! ## Quarter-word fields -/

/-- Inserting a quarter, by masks. -/
theorem insertField_quarter (w v : Word) (q : Nat) (hq : q < 4) :
    insertField w ([WordField.q1, .q2, .q3, .q4].getD q .q1) v =
      (w &&& ~~~((0o777 : Word) <<< (27 - 9 * q))) ||| ((v &&& 0o777) <<< (27 - 9 * q)) := by
  have : q = 0 ∨ q = 1 ∨ q = 2 ∨ q = 3 := by omega
  have e : ∀ n : Nat, v <<< n &&& (511#36 <<< n) = (v &&& 511#36) <<< n := by
    intro n; ext i hi; simp; grind
  rcases this with rfl | rfl | rfl | rfl <;> simp [insertField, WordField.mask, WordField.lo, WordField.width, ← e]

/-- Extracting a quarter, by masks. -/
theorem extractField_quarter (w : Word) (q : Nat) (hq : q < 4) :
    extractField w ([WordField.q1, .q2, .q3, .q4].getD q .q1) = (w >>> (27 - 9 * q)) &&& 0o777 := by
  have e : ∀ n : Nat, (w.extractLsb' n 9).setWidth 36 = (w >>> n) &&& 511#36 := by
    intro n
    apply BitVec.eq_of_toNat_eq
    simp [BitVec.extractLsb'_toNat, Nat.mod_eq_of_lt]
    rw [show (511 : Nat) = 2 ^ 9 - 1 by rfl, Nat.and_two_pow_sub_one_eq_mod]
    omega
  have : q = 0 ∨ q = 1 ∨ q = 2 ∨ q = 3 := by omega
  rcases this with rfl | rfl | rfl | rfl
  exacts [e 27, e 18, e 9, e 0]

/-- The quarter that the two top index bits select. -/
theorem quarterField_eq (w : Word) :
    quarterField w = [WordField.q1, .q2, .q3, .q4].getD (w.extractLsb' 30 2).toNat .q1 := by
  unfold quarterField
  generalize w.extractLsb' 30 2 = b
  revert b; decide

/-! ## Shifts -/

/-- A circular right shift is a rotation. -/
theorem circularRight_eq_rotateRight {n : Nat} (v : BitVec n) (c : Nat) : circularRight v c = v.rotateRight c := by
  simp [circularRight, BitVec.rotateRight_def]

/-- A circular left shift is a rotation. -/
theorem circularLeft_eq_rotateLeft {n : Nat} (v : BitVec n) (c : Nat) : circularLeft v c = v.rotateLeft c := by
  simp [circularLeft, BitVec.rotateLeft_def]

/-- A logical right shift divides. -/
theorem ushiftRight_eq_div {n : Nat} (v : BitVec n) (c : Nat) : v >>> c = BitVec.ofNat n (v.toNat / 2 ^ c) := by
  apply BitVec.eq_of_toNat_eq
  rw [BitVec.toNat_ushiftRight, BitVec.toNat_ofNat, Nat.shiftRight_eq_div_pow, Nat.mod_eq_of_lt]
  exact lt_of_le_of_lt (Nat.div_le_self _ _) v.isLt

/-- A logical left shift multiplies. -/
theorem shiftLeft_eq_mul {n : Nat} (v : BitVec n) (c : Nat) : v <<< c = BitVec.ofNat n (v.toNat * 2 ^ c) := by
  apply BitVec.eq_of_toNat_eq
  rw [BitVec.toNat_shiftLeft, BitVec.toNat_ofNat, Nat.shiftLeft_eq]

/-- An algebraic right shift divides, rounding down. -/
theorem sshiftRight_eq_div {n : Nat} (v : BitVec n) (c : Nat) : v.sshiftRight c = BitVec.ofInt n (v.toInt / 2 ^ c) := by
  rw [BitVec.sshiftRight, Int.shiftRight_eq_div_pow]; norm_cast

/-- `normalise` rotates by the least count that makes the two top bits differ (R291, R292). -/
theorem normalise_spec {n : Nat} (v : BitVec (n + 2)) (h0 : v ≠ 0) (h1 : v ≠ BitVec.allOnes (n+2)) :
   ∃ k, k ≤ n ∧ (v.rotateLeft k).getLsbD (n+1) ≠ (v.rotateLeft k).getLsbD n ∧
     (∀ m, m < k → (v.rotateLeft m).getLsbD (n+1) = (v.rotateLeft m).getLsbD n) ∧ normalise v = (v.rotateLeft k, k) := by
  have rotL : ∀ k, circularLeft v k = v.rotateLeft k := by
    intro k; simp [circularLeft, BitVec.rotateLeft_def]
  have hbit : ∀ k, k ≤ n + 1 → ∀ i, i < n + 2 → (v.rotateLeft k).getLsbD i = v.getLsbD ((i + (n + 2) - k) % (n + 2)) := by
    intro k hk i hi
    rw [BitVec.getLsbD_rotateLeft]
    by_cases hik : i < k % (n+2)
    · rw [Nat.mod_eq_of_lt (by omega)] at hik
      simp [Nat.mod_eq_of_lt (show k < n+2 by omega), hik]
      congr 1; rw [Nat.mod_eq_of_lt (by omega)]; omega
    · rw [Nat.mod_eq_of_lt (by omega)] at hik
      simp [Nat.mod_eq_of_lt (show k < n+2 by omega), hik, hi]
      congr 1
      have : i + (n+2) - k = (i - k) + (n+2) := by omega
      rw [this, Nat.add_mod_right, Nat.mod_eq_of_lt (by omega)]
  have hex : ∃ k, k ≤ n ∧ (v.rotateLeft k).getLsbD (n+1) ≠ (v.rotateLeft k).getLsbD n := by
    by_contra hc
    push Not at hc
    have : ∀ i, i ≤ n + 1 → v.getLsbD i = v.getLsbD (n+1) := by
      intro i hi
      have : ∀ d, d ≤ n + 1 → v.getLsbD (n + 1 - d) = v.getLsbD (n + 1) := by
        intro d hd
        induction d with
        | zero => rfl
        | succ d ih =>
          have h := hc d (by omega)
          rw [hbit d (by omega) _ (by omega), hbit d (by omega) _ (by omega)] at h
          rw [← ih (by omega)]
          have e1 : (n + 1 + (n + 2) - d) % (n + 2) = n + 1 - d := by
            rw [show n + 1 + (n + 2) - d = (n + 1 - d) + (n + 2) by omega, Nat.add_mod_right, Nat.mod_eq_of_lt (by omega)]
          have e2 : (n + (n + 2) - d) % (n + 2) = n + 1 - (d + 1) := by
            rw [show n + (n + 2) - d = (n - d) + (n + 2) by omega, Nat.add_mod_right, Nat.mod_eq_of_lt (by omega)]; omega
          rw [e1, e2] at h
          exact h.symm
      have := this (n + 1 - i) (by omega)
      rwa [show n + 1 - (n + 1 - i) = i by omega] at this
    cases hb : v.getLsbD (n+1)
    · apply h0; apply BitVec.eq_of_getLsbD_eq; intro i hi; rw [this i (by omega), hb]; simp
    · apply h1; apply BitVec.eq_of_getLsbD_eq; intro i hi; rw [this i (by omega), hb]; simp; omega
  classical
  let P := fun k => (v.rotateLeft k).getLsbD (n+1) ≠ (v.rotateLeft k).getLsbD n
  have hex' : ∃ k, P k := let ⟨k, _, h⟩ := hex; ⟨k, h⟩
  refine ⟨Nat.find hex', ?_, Nat.find_spec hex', ?_, ?_⟩
  · obtain ⟨k, hk, h⟩ := hex
    exact le_trans (Nat.find_min' hex' h) hk
  · intro m hm
    have := Nat.find_min hex' hm
    simpa [P] using this
  · have hle : Nat.find hex' ≤ n := by
      obtain ⟨k, hk, h⟩ := hex
      exact le_trans (Nat.find_min' hex' h) hk
    unfold normalise
    rw [if_neg (by simp only [not_or]; exact ⟨h0, h1⟩)]
    simp only [rotL]
    have : (List.range (n + 2)).find? (fun k => (v.rotateLeft k).getLsbD (n + 1) != (v.rotateLeft k).getLsbD n) =
        some (Nat.find hex') := by
      rw [List.find?_range_eq_some]
      refine ⟨by simpa [P] using Nat.find_spec hex', List.mem_range.2 (by omega), ?_⟩
      intro j hj
      have := Nat.find_min hex' hj
      simpa [P] using this
    rw [this]; rfl

/-! ## Designator bits -/

/-- Setting one designator bit. -/
theorem designatorBit_withDesignatorBit (dr : Word) (m n : Nat) (hm : m < 36) (hn : n < 36) (v : Bool) :
    designatorBit (withDesignatorBit dr m v) n = if n = m then v else designatorBit dr n := by
  unfold designatorBit withDesignatorBit
  by_cases h : n = m
  · subst h; cases v <;> simp; omega
  · have : 35 - m ≠ 35 - n := by omega
    cases v <;> simp [h]
    · intro _; constructor <;> omega
    · omega

/-- RTN's designator register, bit by bit (R323). -/
theorem designatorBit_restoredDesignators (dr w : Word) (n : Nat) (hn : n < 36) :
    designatorBit (restoredDesignators dr w) n =
      if 12 ≤ n ∧ n ≤ 17 then designatorBit w n else designatorBit dr n := by
  have : ∀ k : Nat, k < 36 → frameDesignators.getLsbD k = decide (18 ≤ k ∧ k ≤ 23) := by decide
  unfold designatorBit restoredDesignators
  simp only [BitVec.getLsbD_or, BitVec.getLsbD_and, BitVec.getLsbD_not, this (35 - n) (by omega)]
  by_cases h : 12 ≤ n ∧ n ≤ 17
  · have h' : 18 ≤ 35 - n ∧ 35 - n ≤ 23 := by omega
    simp [h, h']
  · have h' : ¬ (18 ≤ 35 - n ∧ 35 - n ≤ 23) := by omega
    have : decide (18 ≤ 35 - n ∧ 35 - n ≤ 23) = false := decide_eq_false h'
    rw [this, if_neg h]; simp; omega

/-! ## The Return Control Stack -/

/-- When a push does not overflow (R312). -/
theorem State.canPush_iff {s : State} :
    s.canPush = true ↔ (s.base 25).isVoid = false ∧
      (s.base 25).lower.toNat + 2 ≤ (s.reg 0o140).low.toNat ∧ (s.reg 0o140).low.toNat ≤ (s.base 25).upper.toNat + 1 := by
  unfold State.canPush
  dsimp only
  rw [Bool.and_eq_true, Bool.and_eq_true, Bool.not_eq_true', and_assoc]
  exact and_congr_right fun _ => and_congr decide_eq_true_iff decide_eq_true_iff

/-- When a pop does not underflow (R313). -/
theorem State.canPop_iff {s : State} :
    s.canPop = true ↔ (s.base 25).isVoid = false ∧
      (s.base 25).lower.toNat ≤ (s.reg 0o140).low.toNat ∧ (s.reg 0o140).low.toNat + 1 ≤ (s.base 25).upper.toNat := by
  unfold State.canPop
  dsimp only
  rw [Bool.and_eq_true, Bool.and_eq_true, Bool.not_eq_true', and_assoc]
  exact and_congr_right fun _ => and_congr decide_eq_true_iff decide_eq_true_iff

/-- A push with room completes. -/
theorem State.push_ok {s : State} (w : Word × Word) (hp : s.canPush = true)
  (hm : (s.base 25).base + ((s.reg 0o140).low.toNat - 2 - (s.base 25).lower.toNat) + 1 < s.params.memSize) :
  s.push w = .ok ((({ s with
        mem := (s.mem.write ((s.base 25).base + ((s.reg 0o140).low.toNat - 2 - (s.base 25).lower.toNat)) w.1).write
          ((s.base 25).base + ((s.reg 0o140).low.toNat - 2 - (s.base 25).lower.toNat) + 1) w.2 } : State)).setRegLow
            0o140 ((s.reg 0o140).low - 2)) := by
  have h := State.canPush_iff.1 hp
  unfold State.push
  rw [if_pos hp]
  have e1 : (s.base Config.rcsBase).translate (s.rcsPointer.toNat - 2) =
      (s.base 25).base + ((s.reg 0o140).low.toNat - 2 - (s.base 25).lower.toNat) := rfl
  have e2 : (s.base Config.rcsBase).translate (s.rcsPointer.toNat - 1) =
      (s.base 25).base + ((s.reg 0o140).low.toNat - 2 - (s.base 25).lower.toNat) + 1 := by
    show (s.base 25).base + ((s.reg 0o140).low.toNat - 1 - (s.base 25).lower.toNat) = _
    omega
  simp only [e1, e2]
  rw [State.memWrite_eq_ok.2 ⟨by omega, rfl⟩, Attempt.ok_bind, State.memWrite_eq_ok.2 ⟨by simpa using hm, rfl⟩]
  rfl

/-- What the state after a push holds. -/
theorem pushed_facts {t : State} {w : Word × Word} {top p} (hw : t.mem.wf = true) (u : State)
  (hu : u = (({ t with mem := (t.mem.write top w.1).write (top + 1) w.2 } : State)).setRegLow 0o140 p) :
  SameControl t u ∧ u.par = t.par ∧ PointerMoved t u p ∧ u.mem.read top = w.1 ∧ u.mem.read (top + 1) = w.2 ∧
      ∀ x : Nat, x ≠ top → x ≠ top + 1 → u.mem.read x = t.mem.read x := by
  subst hu
  have h1 := Memory.write_wf top w.1 hw
  refine ⟨by simp [SameControl], rfl, ⟨?_, ?_⟩, ?_, ?_, ?_⟩
  · exact (State.reg_setRegLow _ _ _ _).trans (if_pos rfl)
  · intro k hk; exact (State.reg_setRegLow _ _ _ _).trans (if_neg hk)
  · show ((t.mem.write top w.1).write (top + 1) w.2).read top = _
    rw [Memory.read_write h1, if_neg (by omega), Memory.read_write hw, if_pos rfl]
  · show ((t.mem.write top w.1).write (top + 1) w.2).read (top+1) = _
    rw [Memory.read_write h1, if_pos rfl]
  · intro x h2 h3
    show ((t.mem.write top w.1).write (top + 1) w.2).read x = _
    rw [Memory.read_write h1, if_neg h3, Memory.read_write hw, if_neg h2]

/-- A pop with a frame completes. -/
theorem State.pop_ok {s : State} (hp : s.canPop = true)
  (hm : (s.base 25).base + ((s.reg 0o140).low.toNat - (s.base 25).lower.toNat) + 1 < s.params.memSize) :
  s.pop = .ok ((s.mem.read ((s.base 25).base + ((s.reg 0o140).low.toNat - (s.base 25).lower.toNat)),
     s.mem.read ((s.base 25).base + ((s.reg 0o140).low.toNat - (s.base 25).lower.toNat) + 1)),
     s.setRegLow 0o140 ((s.reg 0o140).low + 2)) := by
  have h := State.canPop_iff.1 hp
  unfold State.pop
  rw [if_pos hp]
  have e1 : (s.base Config.rcsBase).translate (s.rcsPointer.toNat) =
      (s.base 25).base + ((s.reg 0o140).low.toNat - (s.base 25).lower.toNat) := rfl
  have e2 : (s.base Config.rcsBase).translate (s.rcsPointer.toNat + 1) =
      (s.base 25).base + ((s.reg 0o140).low.toNat - (s.base 25).lower.toNat) + 1 := by
    show (s.base 25).base + ((s.reg 0o140).low.toNat + 1 - (s.base 25).lower.toNat) = _
    omega
  simp only [e1, e2]
  rw [State.memRead_eq_ok.2 ⟨by omega, rfl⟩, Attempt.ok_bind, State.memRead_eq_ok.2 ⟨hm, rfl⟩]
  rfl

end Sys2Proof.Machine
end

