-- ==== Sys2Proof/Tests/Slice0.lean ====
section
/-! SUPPORT. The tests: the checks of WellFormed, decoding, one step of each instruction with the values of the spec's
test vectors (spec/95_test_vectors.md; the name ends in the vector's number), and, for every obligation that has
hypotheses, a state and operands that meet them. -/

set_option Elab.async false

namespace Sys2Proof.Machine

/-! ## Small states -/

/-- A bank with every permission. -/
def bank (base lower upper : Nat) : Descriptor :=
  { isVoid := false, base := base, lower := BitVec.ofNat 18 lower, upper := BitVec.ofNat 18 upper, lock := ⟨0, 0⟩,
    gap := ⟨true, true, true⟩, sap := ⟨true, true, true⟩ }

/-- Extended mode, PP 0: instructions from 010 in B0, data at 01000 in B1. -/
def extended : State :=
  { (State.reset.setBase 0 (bank 0o1000 0 0o777)).setBase 1 (bank 0o2000 0o1000 0o1777) with
    run := .running, par := ⟨4, 0o10⟩ }

/-- Basic mode, PP 0: instructions from 01000 in B12, data at 02000 in B13. -/
def basic : State :=
  { (State.reset.setBase 12 (bank 0o10000 0o1000 0o1777)).setBase 13 (bank 0o20000 0o2000 0o2777) with
    run := .running, par := ⟨4, 0o1000⟩, dr := 0o2000000 }

/-- Extended mode with a Return Control Stack in B25 and a bank table. -/
def stacked : State :=
  { (extended.setBase 25 (bank 0o4000 0 0o777)).setReg 0o140 0o1000 with
    bdt := [(4, bank 0o1000 0 0o777), (5, bank 0o2000 0o1000 0o1777), (6, bank 0o5000 0 0o177),
      (0o25, bank 0o4000 0 0o777)] }

/-- The state with a word of storage set. -/
def State.put (s : State) (a : Nat) (w : Word) : State := { s with mem := s.mem.write a w }

/-- The state with a base register's lock and permissions set. -/
def State.locked (s : State) (k : BaseIndex) (lock : RingDomain) (gap sap : Permissions) : State :=
  s.setBase k { s.base k with lock := lock, gap := gap, sap := sap }

/-- The state with a word where it fetches next. -/
def State.next (s : State) (w : Word) : State := s.put s.fetchAddress w

/-- The next state of an outcome, if it is one. -/
def answer : Host.Outcome State Fault Refusal → Option State
  | .next t => some t
  | _ => none

theorem eq_next {x : Host.Outcome State Fault Refusal} {t : State} (h : answer x = some t) : x = .next t := by
  cases x <;> simp_all [answer]

/-- The state that one step leaves when the next word is `w`. -/
def after (w : Word) (s : State) : Option State := answer (step (s.next w))

/-- The causes in PENDING. -/
def State.causes (s : State) : List Cause := s.pending.requests.map (·.cause)

/-- The step of the word `w` adds a request with this cause, and PAR, DR, B0, storage, the run state and a few registers
are as before. -/
def raises (w : Word) (s : State) (c : Cause) : Bool :=
  match after w s with
  | some t =>
    t.causes == [c] && t.par == s.par && t.dr == s.dr && t.base 0 == s.base 0 && t.mem == (s.next w).mem &&
      t.run == s.run && [0, 1, 2, 0o14, 0o15, 0o140].all fun k => t.reg k == s.reg k
  | none => false

/-! ## Well-formedness -/

theorem test_wellFormed_refuses_mode :
    Instr.wellFormed .basic (.call ⟨0, false, false, 0⟩) = false ∧
      Instr.wellFormed .basic (.laqw 0 ⟨1, false, false, 0⟩) = false ∧
      Instr.wellFormed .extended (.nopB 0 ⟨0, false, false, 0⟩) = false ∧
      Instr.wellFormed .extended (.aaijB 0 ⟨0, false, false, 0⟩) = false ∧
      Instr.wellFormed .basic (.aaijE ⟨0, false, false, 0⟩) = false := by
  decide

theorem test_wellFormed_refuses_immediate_store :
    Instr.wellFormed .basic (.sa 0o16 0 ⟨0, false, false, 0⟩) = false ∧
      Instr.wellFormed .extended (.sz 0o17 ⟨0, false, false, 0⟩) = false ∧
      Instr.wellFormed .extended (.sz 0o15 ⟨0, false, false, 0⟩) = true := by
  decide

theorem test_wellFormed_refuses_quarter_without_index :
    Instr.wellFormed .extended (.laqw 0 ⟨0, false, false, 0⟩) = false ∧
      Instr.wellFormed .extended (.saqw 0 ⟨0, true, false, 0⟩) = false ∧
      Instr.wellFormed .extended (.saqw 0 ⟨1, false, false, 0⟩) = true := by
  decide

/-! ## Decoding: words written out from the match values and the field positions of the opcode map -/

theorem test_decode_stores :
    decode .basic 0o010441071502 = some (.sa 1 2 ⟨1, false, false, 0o71502⟩) ∧
      decode .extended 0o021126473061 = some (.sna 2 5 ⟨6, true, false, 0o73061⟩) ∧
      decode .basic 0o031613274440 = some (.sma 3 0o10 ⟨0o13, false, true, 0o74440⟩) ∧
      decode .extended 0o042260676017 = some (.sr 4 0o13 ⟨0, true, true, 0o76017⟩) ∧
      decode .basic 0o052405077376 = some (.sz 5 ⟨5, false, false, 0o77376⟩) ∧
      decode .extended 0o053032500755 = some (.snz 6 ⟨0o12, true, false, 0o100755⟩) ∧
      decode .basic 0o053457302334 = some (.sp1 7 ⟨0o17, false, true, 0o102334⟩) ∧
      decode .extended 0o054064703713 = some (.sn1 0o10 ⟨4, true, true, 0o103713⟩) ∧
      decode .basic 0o054511105272 = some (.sfs 0o11 ⟨0o11, false, false, 0o105272⟩) ∧
      decode .extended 0o055136506651 = some (.sfz 0o12 ⟨0o16, true, false, 0o106651⟩) ∧
      decode .basic 0o055543310230 = some (.sas 0o13 ⟨3, false, true, 0o110230⟩) ∧
      decode .extended 0o056170711607 = some (.saz 0o14 ⟨0o10, true, true, 0o111607⟩) ∧
      decode .basic 0o066555113166 = some (.sx 0o15 6 ⟨0o15, false, false, 0o113166⟩) := by
  decide

theorem test_decode_quarter_word_and_calls :
    decode .extended 0o072222514545 = some (.laqw 0o11 ⟨2, true, false, 0o114545⟩) ∧
      decode .extended 0o072707316124 = some (.saqw 0o14 ⟨7, false, true, 0o116124⟩) ∧
      decode .extended 0o077234717503 = some (.locl ⟨0o14, true, true, 0o117503⟩) ∧
      decode .extended 0o077261121062 = some (.call ⟨1, false, false, 0o121062⟩) ∧
      decode .extended 0o077406522441 = some (.goto ⟨6, true, false, 0o122441⟩) := by
  decide

theorem test_decode_loads_and_logical :
    decode .basic 0o103213324020 = some (.la 6 0o10 ⟨0o13, false, true, 0o124020⟩) ∧
      decode .extended 0o113660725377 = some (.lna 7 0o13 ⟨0, true, true, 0o125377⟩) ∧
      decode .basic 0o124345126756 = some (.lma 0o10 0o16 ⟨5, false, false, 0o126756⟩) ∧
      decode .extended 0o134432530335 = some (.lnma 0o11 1 ⟨0o12, true, false, 0o130335⟩) ∧
      decode .basic 0o235117331714 = some (.lr 0o12 4 ⟨0o17, false, true, 0o131714⟩) ∧
      decode .extended 0o265564733273 = some (.lxm 0o13 7 ⟨4, true, true, 0o133273⟩) ∧
      decode .basic 0o276251134652 = some (.lx 0o14 0o12 ⟨0o11, false, false, 0o134652⟩) ∧
      decode .extended 0o406736536231 = some (.orA 0o15 0o15 ⟨0o16, true, false, 0o136231⟩) ∧
      decode .basic 0o410403337610 = some (.xorA 1 0 ⟨3, false, true, 0o137610⟩) ∧
      decode .extended 0o421070741167 = some (.andA 2 3 ⟨0o10, true, true, 0o141167⟩) ∧
      decode .basic 0o431555142546 = some (.mlu 3 6 ⟨0o15, false, false, 0o142546⟩) ∧
      decode .extended 0o462222544125 = some (.lxi 4 0o11 ⟨2, true, false, 0o144125⟩) := by
  decide

theorem test_decode_double_words_and_register_sets :
    decode .basic 0o715307345504 = some (.ds 0o14 ⟨7, false, true, 0o145504⟩) ∧
      decode .extended 0o715774747063 = some (.dl 0o17 ⟨0o14, true, true, 0o147063⟩) ∧
      decode .basic 0o724441150442 = some (.er 2 ⟨1, false, false, 0o150442⟩) ∧
      decode .extended 0o727126552021 = some (.srs 5 ⟨6, true, false, 0o152021⟩) ∧
      decode .basic 0o727613353400 = some (.lrs 0o10 ⟨0o13, false, true, 0o153400⟩) := by
  decide

theorem test_decode_shifts :
    decode .extended 0o730260754757 = some (.ssc 0o13 ⟨0, true, true, 0o154757⟩) ∧
      decode .basic 0o730745156336 = some (.dsc 0o16 ⟨5, false, false, 0o156336⟩) ∧
      decode .extended 0o731032557715 = some (.ssl 1 ⟨0o12, true, false, 0o157715⟩) ∧
      decode .basic 0o731517361274 = some (.dsl 4 ⟨0o17, false, true, 0o161274⟩) ∧
      decode .extended 0o732164762653 = some (.ssa 7 ⟨4, true, true, 0o162653⟩) ∧
      decode .basic 0o732651164232 = some (.dsa 0o12 ⟨0o11, false, false, 0o164232⟩) ∧
      decode .extended 0o733336565611 = some (.lsc 0o15 ⟨0o16, true, false, 0o165611⟩) ∧
      decode .basic 0o733403367170 = some (.dlsc 0 ⟨3, false, true, 0o167170⟩) ∧
      decode .extended 0o734070770547 = some (.lssc 3 ⟨0o10, true, true, 0o170547⟩) ∧
      decode .basic 0o734555172126 = some (.ldsc 6 ⟨0o15, false, false, 0o172126⟩) ∧
      decode .extended 0o735222573505 = some (.lssl 0o11 ⟨2, true, false, 0o173505⟩) ∧
      decode .basic 0o735707375064 = some (.ldsl 0o14 ⟨7, false, true, 0o175064⟩) := by
  decide

theorem test_decode_special :
    decode .extended 0o736014776443 = some (.nopE ⟨0o14, true, true, 0o176443⟩) ∧
      decode .basic 0o736501000022 = some (.send ⟨1, false, false, 0o22⟩) ∧
      decode .extended 0o736766401401 = some (.sgnl ⟨6, true, false, 0o1401⟩) ∧
      decode .extended 0o737473202760 = some (.rtn ⟨0o13, false, true, 0o2760⟩) ∧
      decode .extended 0o737540604337 = some (.halt ⟨0, true, true, 0o4337⟩) := by
  decide

theorem test_decode_mode_dependent :
    decode .basic 0o743345005716 = some (.nopB 0o16 ⟨5, false, false, 0o5716⟩) ∧
      decode .basic 0o743432407275 = some (.aaijB 1 ⟨0o12, true, false, 0o7275⟩) ∧
      decode .extended 0o746157210654 = some (.aaijE ⟨0o17, false, true, 0o10654⟩) ∧
      decode .extended 0o746164612233 = some (.paij ⟨4, true, true, 0o12233⟩) := by
  decide

/-- Words that no row of the mode lists. -/
theorem test_decode_undefined :
    decode .basic 0 = none ∧ decode .basic 0o077260011000 = none ∧ decode .extended 0o743400000300 = none ∧
      decode .extended 0o050200000000 = none ∧ decode .basic 0o777777777777 = none := by
  decide

/-- The reset state fetches the instruction that the host places, as its first. -/
theorem test_placed_word :
    decodeTableWord 36 0o010000000015 = some (.sa 0 0 ⟨0, false, false, 0o15⟩) ∧
      (answer (step (State.reset.withFetchWord 36 0o107000000005))).map
        (fun t => (t.reg 0o14, t.par.pc)) = some (5, 1) := by
  decide +kernel

/-! ## One step of each instruction -/

/-- V3.7 -/
theorem test_la_v3_7 :
    (after 0o107001400000 (extended.setReg 1 0o2000004)).map (fun t => (t.reg 0o14, t.reg 1, t.par.pc)) =
      some (4, 0o2000006, 0o11) := by
  decide +kernel

/-- V4.1 -/
theorem test_la_v4_1 :
    (after 0o100000202000 (((basic.put 0o20000 0o202001).put 0o20001 0o2002).put 0o20002 7)).map
        (fun t => (t.reg 0o14)) =
      some (7) := by
  decide +kernel

/-- V5.2 -/
theorem test_lna_v5_2 :
    (after 0o117020000005 extended).map (fun t => (t.reg 0o15, t.par.pc)) =
      some (0o777777777772, 0o11) := by
  decide +kernel

/-- V5.4 -/
theorem test_lma_v5_4 :
    (after 0o127440777776 extended).map (fun t => (t.reg 0o16, t.par.pc)) =
      some (1, 0o11) := by
  decide +kernel

/-- V5.5 -/
theorem test_lma_v5_5 :
    (after 0o120000011000 (extended.put 0o2000 0o777777777777)).map (fun t => (t.reg 0o14, t.par.pc)) =
      some (0, 0o11) := by
  decide +kernel

/-- V5.6 -/
theorem test_lnma_v5_6 :
    (after 0o137000000003 extended).map (fun t => (t.reg 0o14, t.par.pc)) =
      some (0o777777777774, 0o11) := by
  decide +kernel

/-- V5.7 -/
theorem test_lnma_v5_7 :
    (after 0o130000011000 (extended.put 0o2000 0o777777777777)).map (fun t => (t.reg 0o14, t.par.pc)) =
      some (0o777777777777, 0o11) := by
  decide +kernel

/-- V5.8 -/
theorem test_lr_v5_8 :
    (after 0o237040000777 extended).map (fun t => (t.reg 0o102, t.par.pc)) =
      some (0o777, 0o11) := by
  decide +kernel

/-- V5.9 -/
theorem test_lr_v5_9 :
    (after 0o237040000777 { extended with dr := 0o1000000 }).map (fun t => (t.reg 0o122, t.par.pc)) =
      some (0o777, 0o11) := by
  decide +kernel

/-- V5.10 -/
theorem test_lx_v5_10 :
    (after 0o277120001234 extended).map (fun t => (t.reg 5, t.par.pc)) =
      some (0o1234, 0o11) := by
  decide +kernel

/-- V5.11 -/
theorem test_lxm_v5_11 :
    (after 0o267020000004 (extended.setReg 1 0o2000000)).map (fun t => (t.reg 1, t.par.pc)) =
      some (0o2000004, 0o11) := by
  decide +kernel

/-- V5.12 -/
theorem test_lxi_v5_12 :
    (after 0o467020000002 extended).map (fun t => (t.reg 1, t.par.pc)) =
      some (0o2000000, 0o11) := by
  decide +kernel

/-- V5.13 -/
theorem test_dl_v5_13 :
    (after 0o715500011000 ((extended.put 0o2000 5).put 0o2001 7)).map (fun t => (t.reg 0o20, t.reg 0o21, t.par.pc)) =
      some (5, 7, 0o11) := by
  decide +kernel

/-- V5.14 -/
theorem test_dl_v5_14 :
    raises 0o715500011777 extended ⟨0o10, 1, 0o2000, 1⟩ = true := by
  decide +kernel

/-- V5.16 -/
theorem test_laqw_v5_16 :
    (after 0o72001011000 ((extended.setReg 1 0o20000000000).put 0o2000 0o111222333444)).map
        (fun t => (t.reg 0o14, t.par.pc)) =
      some (0o333, 0o11) := by
  decide +kernel

/-- V5.17 -/
theorem test_laqw_v5_17 :
    raises 0o72000011000 extended ⟨0o16, 2, 0o72000011000, 0⟩ = true := by
  decide +kernel

/-- V5.19 -/
theorem test_lrs_v5_19 :
    (after 0o727400011000 (((extended.setReg 0o14 0o1030001020).put 0o2000 5).put 0o2001 6)).map
        (fun t => (t.reg 0o20, t.reg 0o30, t.par.pc)) =
      some (5, 6, 0o11) := by
  decide +kernel

/-- V5.20 -/
theorem test_lrs_v5_20 :
    raises 0o727400011000 { extended.setReg 0o14 0o1120 with dr := 0o10000000 } ⟨0o10, 5, 0o120, 0⟩ = true := by
  decide +kernel

/-- V6.1 -/
theorem test_sa_v6_1 :
    (after 0o10400011000 (extended.setReg 0o14 0o123456765432)).map (fun t => (t.mem.read 0o2000, t.par.pc)) =
      some (0o765432, 0o11) := by
  decide +kernel

/-- V6.2 -/
theorem test_sa_v6_2 :
    raises 0o17000011000 (extended.setReg 0o14 1) ⟨0o16, 2, 0o17000011000, 0⟩ = true := by
  decide +kernel

/-- V6.3 -/
theorem test_sna_v6_3 :
    (after 0o20000011000 (extended.setReg 0o14 1)).map (fun t => (t.mem.read 0o2000, t.par.pc)) =
      some (0o777777777776, 0o11) := by
  decide +kernel

/-- V6.5 -/
theorem test_sma_v6_5 :
    (after 0o30000011000 (extended.setReg 0o14 0o777777777775)).map (fun t => (t.mem.read 0o2000, t.par.pc)) =
      some (2, 0o11) := by
  decide +kernel

/-- V6.7 -/
theorem test_sr_v6_7 :
    (after 0o40060011000 (extended.setReg 0o103 7)).map (fun t => (t.mem.read 0o2000, t.par.pc)) =
      some (7, 0o11) := by
  decide +kernel

/-- V6.8 -/
theorem test_sx_v6_8 :
    (after 0o60040011000 (extended.setReg 2 0o1000010)).map (fun t => (t.mem.read 0o2000, t.par.pc)) =
      some (0o1000010, 0o11) := by
  decide +kernel

/-- V6.9 -/
theorem test_sx_v6_9 :
    raises 0o60042410777 (extended.setReg 2 0o1000000) ⟨0o10, 1, 0o777, 1⟩ = true := by
  decide +kernel

/-- V6.10 -/
theorem test_sz_v6_10 :
    (after 0o51000011000 (extended.put 0o2000 0o777777777777)).map (fun t => (t.mem.read 0o2000, t.par.pc)) =
      some (0o777777, 0o11) := by
  decide +kernel

/-- V6.11 -/
theorem test_snz_v6_11 :
    (after 0o54020011000 extended).map (fun t => (t.mem.read 0o2000, t.par.pc)) =
      some (0o77, 0o11) := by
  decide +kernel

/-- V6.12 -/
theorem test_sp1_v6_12 :
    (after 0o51040011000 extended).map (fun t => (t.mem.read 0o2000, t.par.pc)) =
      some (0o1000000, 0o11) := by
  decide +kernel

/-- V6.14 -/
theorem test_sn1_v6_14 :
    (after 0o50060011000 extended).map (fun t => (t.mem.read 0o2000, t.par.pc)) =
      some (0o777777777776, 0o11) := by
  decide +kernel

/-- V6.15 -/
theorem test_sfs_v6_15 :
    (after 0o50100011000 extended).map (fun t => (t.mem.read 0o2000, t.par.pc)) =
      some (0o50505050505, 0o11) := by
  decide +kernel

/-- V6.16 -/
theorem test_sfz_v6_16 :
    (after 0o50120011000 extended).map (fun t => (t.mem.read 0o2000, t.par.pc)) =
      some (0o606060606060, 0o11) := by
  decide +kernel

/-- V6.17 -/
theorem test_sas_v6_17 :
    (after 0o50140011000 extended).map (fun t => (t.mem.read 0o2000, t.par.pc)) =
      some (0o40040040040, 0o11) := by
  decide +kernel

/-- V6.18 -/
theorem test_saz_v6_18 :
    (after 0o50160011000 extended).map (fun t => (t.mem.read 0o2000, t.par.pc)) =
      some (0o60060060060, 0o11) := by
  decide +kernel

/-- V6.20; and with A0 as its own index register, A0 as it was before the increment: the order of R233's pseudocode. -/
theorem test_ds_v6_20 :
    (after 0o715000011000 ((extended.setReg 0o14 1).setReg 0o15 2)).map
        (fun t => (t.mem.read 0o2000, t.mem.read 0o2001, t.par.pc)) =
      some (1, 2, 0o11) ∧
    (after 0o715014411000 ((extended.setReg 0o14 0o1000000).setReg 0o15 2)).map
        (fun t => (t.mem.read 0o2000, t.mem.read 0o2001, t.reg 0o14)) =
      some (0o1000000, 2, 0o1000001) := by
  decide +kernel

/-- V6.21 -/
theorem test_ds_v6_21 :
    raises 0o715000011777 ((extended.setReg 0o14 1).setReg 0o15 2) ⟨0o10, 1, 0o2000, 1⟩ = true := by
  decide +kernel

/-- V6.22 -/
theorem test_saqw_v6_22 :
    (after 0o72401011000 ((extended.setReg 0o14 0o777).setReg 1 0o30000000000)).map
        (fun t => (t.mem.read 0o2000, t.par.pc)) =
      some (0o777, 0o11) := by
  decide +kernel

/-- V6.23 -/
theorem test_saqw_v6_23 :
    (after 0o72401011000 ((extended.setReg 0o14 0o123).put 0o2000 0o777777777777)).map
        (fun t => (t.mem.read 0o2000, t.par.pc)) =
      some (0o123777777777, 0o11) := by
  decide +kernel

/-- SRS of X1 through X1, in the order of R235's pseudocode. -/
theorem test_srs_reads_before_the_increment :
    (after 0o727001411000 ((extended.setReg 0o14 0o1001).setReg 1 0o1000000)).map
        (fun t => (t.mem.read 0o2000, t.reg 1)) =
      some (0o1000000, 0o1000001) := by
  decide +kernel

/-- V6.24 -/
theorem test_srs_v6_24 :
    (after 0o727000011000 ((extended.setReg 0o14 0o2014).setReg 0o15 0o55)).map
        (fun t => (t.mem.read 0o2000, t.mem.read 0o2001, t.par.pc)) =
      some (0o2014, 0o55, 0o11) := by
  decide +kernel

/-- V7.1 -/
theorem test_or_v7_1 :
    (after 0o407000000777 (extended.setReg 0o14 0o123000000000)).map (fun t => (t.reg 0o15, t.reg 0o14, t.par.pc)) =
      some (0o123000000777, 0o123000000000, 0o11) := by
  decide +kernel

/-- V7.2 -/
theorem test_xor_v7_2 :
    (after 0o410000011000 ((extended.setReg 0o14 0o777777000000).put 0o2000 0o707070707070)).map
        (fun t => (t.reg 0o15, t.par.pc)) =
      some (0o70707707070, 0o11) := by
  decide +kernel

/-- V7.3 -/
theorem test_and_v7_3 :
    (after 0o427000777777 (extended.setReg 0o14 0o123456765432)).map (fun t => (t.reg 0o15, t.par.pc)) =
      some (0o765432, 0o11) := by
  decide +kernel

/-- V7.5 -/
theorem test_mlu_v7_5 :
    (after 0o430000011000 (((extended.setReg 0o102 0o777777).setReg 0o14 0o111111111111).put 0o2000 0o222222222222)).map
        (fun t => (t.reg 0o15, t.par.pc)) =
      some (0o111111222222, 0o11) := by
  decide +kernel

/-- V8.1 -/
theorem test_ssc_v8_1 :
    (after 0o730000000003 ((extended.setReg 0o14 0o17).setReg 0o15 0)).map
        (fun t => (t.reg 0o14, t.reg 0o15, t.par.pc)) =
      some (0o700000000001, 0, 0o11) := by
  decide +kernel

/-- V8.3 -/
theorem test_ssc_v8_3 :
    (after 0o730000000177 ((extended.setReg 0o14 0o17).setReg 0o15 0)).map
        (fun t => (t.reg 0o14, t.reg 0o15, t.par.pc)) =
      some (0o7400000, 0, 0o11) := by
  decide +kernel

/-- V8.6 -/
theorem test_dsc_v8_6 :
    (after 0o730400000001 ((extended.setReg 0o14 1).setReg 0o15 2)).map (fun t => (t.reg 0o14, t.reg 0o15, t.par.pc)) =
      some (0, 0o400000000001, 0o11) := by
  decide +kernel

/-- V8.7 -/
theorem test_ssl_v8_7 :
    (after 0o731000000006 ((extended.setReg 0o14 0o777777777777).setReg 0o15 0)).map
        (fun t => (t.reg 0o14, t.reg 0o15, t.par.pc)) =
      some (0o7777777777, 0, 0o11) := by
  decide +kernel

/-- V8.9 -/
theorem test_dsl_v8_9 :
    (after 0o731400000003 ((extended.setReg 0o14 7).setReg 0o15 0)).map (fun t => (t.reg 0o14, t.reg 0o15, t.par.pc)) =
      some (0, 0o700000000000, 0o11) := by
  decide +kernel

/-- V8.12 -/
theorem test_ssa_v8_12 :
    (after 0o732000000044 ((extended.setReg 0o14 0o400000000000).setReg 0o15 0)).map
        (fun t => (t.reg 0o14, t.reg 0o15, t.par.pc)) =
      some (0o777777777777, 0, 0o11) := by
  decide +kernel

/-- V8.14 -/
theorem test_ssa_v8_14 :
    (after 0o732000000001 ((extended.setReg 0o14 0o777777777776).setReg 0o15 0)).map
        (fun t => (t.reg 0o14, t.reg 0o15, t.par.pc)) =
      some (0o777777777777, 0, 0o11) := by
  decide +kernel

/-- V8.16 -/
theorem test_dsa_v8_16 :
    (after 0o732400000044 ((extended.setReg 0o14 0o400000000000).setReg 0o15 1)).map
        (fun t => (t.reg 0o14, t.reg 0o15, t.par.pc)) =
      some (0o777777777777, 0o400000000000, 0o11) := by
  decide +kernel

/-- V8.18 -/
theorem test_lssc_v8_18 :
    (after 0o734000000003 ((extended.setReg 0o14 0o700000000001).setReg 0o15 0)).map
        (fun t => (t.reg 0o14, t.reg 0o15, t.par.pc)) =
      some (0o17, 0, 0o11) := by
  decide +kernel

/-- V8.19 -/
theorem test_ldsc_v8_19 :
    (after 0o734400000001 ((extended.setReg 0o14 0o400000000000).setReg 0o15 0)).map
        (fun t => (t.reg 0o14, t.reg 0o15, t.par.pc)) =
      some (0, 1, 0o11) := by
  decide +kernel

/-- V8.21 -/
theorem test_lssl_v8_21 :
    (after 0o735000000003 ((extended.setReg 0o14 0o777777777777).setReg 0o15 0)).map
        (fun t => (t.reg 0o14, t.reg 0o15, t.par.pc)) =
      some (0o777777777770, 0, 0o11) := by
  decide +kernel

/-- V8.23 -/
theorem test_ldsl_v8_23 :
    (after 0o735400000003 ((extended.setReg 0o14 0).setReg 0o15 0o700000000000)).map
        (fun t => (t.reg 0o14, t.reg 0o15, t.par.pc)) =
      some (7, 0, 0o11) := by
  decide +kernel

/-- V8.26 -/
theorem test_lsc_v8_26 :
    (after 0o733000011000 (extended.put 0o2000 1)).map (fun t => (t.reg 0o14, t.reg 0o15, t.par.pc)) =
      some (0o200000000000, 0o42, 0o11) := by
  decide +kernel

/-- V8.30 -/
theorem test_lsc_v8_30 :
    (after 0o733000011000 (extended.put 0o2000 0)).map (fun t => (t.reg 0o14, t.reg 0o15, t.par.pc)) =
      some (0, 0o43, 0o11) := by
  decide +kernel

/-- V8.33 -/
theorem test_dlsc_v8_33 :
    (after 0o733400011000 ((extended.put 0o2000 0).put 0o2001 1)).map
        (fun t => (t.reg 0o14, t.reg 0o15, t.reg 0o16, t.par.pc)) =
      some (0o200000000000, 0, 0o106, 0o11) := by
  decide +kernel

/-- V8.36 -/
theorem test_dlsc_v8_36 :
    (after 0o733400011000 ((extended.put 0o2000 0o777777777777).put 0o2001 0o777777777776)).map
        (fun t => (t.reg 0o14, t.reg 0o15, t.reg 0o16, t.par.pc)) =
      some (0o577777777777, 0o777777777777, 0o106, 0o11) := by
  decide +kernel

/-- V9.1 -/
theorem test_call_v9_1 :
    (after 0o77260011000 (stacked.put 0o2000 0o6000100)).map
        (fun t => (t.mem.read 0o4776, t.mem.read 0o4777, t.reg 0o140, (t.base 0).base, t.par.bank, t.par.pc)) =
      some (0o4000011, 0, 0o776, 0o5000, 6, 0o100) := by
  decide +kernel

/-- V9.5 -/
theorem test_call_v9_5 :
    raises 0o77260011000 ((stacked.put 0o2000 0o6000100).setReg 0o140 1) ⟨0o13, 0, 1, 0⟩ = true := by
  decide +kernel

/-- V9.6 -/
theorem test_locl_v9_6 :
    (after 0o77220000200 stacked).map
        (fun t => (t.mem.read 0o4776, t.reg 0o140, t.par.bank, t.par.pc, (t.base 0).base)) =
      some (0o4000011, 0o776, 4, 0o200, 0o1000) := by
  decide +kernel

/-- V9.7 -/
theorem test_goto_v9_7 :
    (after 0o77400011000 (stacked.put 0o2000 0o6000000)).map
        (fun t => (t.reg 0o140, (t.base 0).base, t.par.bank, t.par.pc)) =
      some (0o1000, 0o5000, 6, 0) := by
  decide +kernel

/-- V9.12 -/
theorem test_rtn_v9_12 :
    (after 0o737460000000 (((stacked.setReg 0o140 0o776).put 0o4776 0o4000020).put 0o4777 0o37000000)).map
        (fun t => (t.reg 0o140, t.par.bank, t.par.pc, t.dr)) =
      some (0o1000, 4, 0o20, 0o37000000) := by
  decide +kernel

/-- V9.3 -/
theorem test_rtn_v9_3 :
    raises 0o737460000000 stacked ⟨0o13, 1, 0o1000, 0⟩ = true := by
  decide +kernel

/-- V9.13 -/
theorem test_aaij_basic_v9_13 :
    (after 0o743400001100 basic).map (fun t => (t.dr, t.par.pc)) =
      some (0o22000000, 0o1100) := by
  decide +kernel

/-- V9.9 -/
theorem test_aaij_v9_9 :
    (after 0o746140000300 stacked).map (fun t => (t.dr, t.par.pc)) =
      some (0o20000000, 0o300) := by
  decide +kernel

/-- V9.8 -/
theorem test_aaij_v9_8 :
    raises 0o746140000300 { stacked with dr := 0o14000000 } ⟨0o16, 1, 0o746140000300, 0⟩ = true := by
  decide +kernel

/-- V9.10 -/
theorem test_paij_v9_10 :
    (after 0o746160000400 { stacked with dr := 0o20000000 }).map (fun t => (t.dr, t.par.pc)) =
      some (0, 0o400) := by
  decide +kernel

/-- V10.1 -/
theorem test_er_v10_1 :
    (after 0o724400000077 extended).map (fun t => (t.par.pc, t.causes)) =
      some (0o11, [⟨0o14, 0, 0o77, 0⟩]) := by
  decide +kernel

/-- V10.2 -/
theorem test_sgnl_v10_2 :
    (after 0o736760000005 extended).map (fun t => (t.par.pc, t.causes)) =
      some (0o11, [⟨0o14, 1, 5, 0⟩]) := by
  decide +kernel

/-- V10.4 -/
theorem test_halt_v10_4 :
    (after 0o737540001014 extended).map (fun t => (t.par.pc, t.run, t.stopReason, t.stopDetail)) =
      some (0o11, .halted, .debug, 0o1014) := by
  decide +kernel

/-- V10.3 -/
theorem test_halt_v10_3 :
    raises 0o737540001014 { extended with dr := 0o4000000 } ⟨0o16, 1, 0o737540001014, 0⟩ = true := by
  decide +kernel

/-- V4.19 -/
theorem test_nop_v4_19 :
    (after 0o736001411000 (extended.setReg 1 0o1000000)).map (fun t => (t.reg 1, t.par.pc)) =
      some (0o1000001, 0o11) := by
  decide +kernel

/-- V10.6 -/
theorem test_send_v10_6 :
    (after 0o736500000001 { extended with peers := [⟨1, ⟨[], 0⟩⟩] }).map
        (fun t => (t.peers.map fun p => p.pending.requests.map (·.cause), t.par.pc)) =
      some ([[⟨0o37, 0, 0, 0⟩]], 0o11) := by
  decide +kernel

/-- V10.8f -/
theorem test_send_v10_8f :
    raises 0o736500000011 { extended with params := { upiAbsentTarget := .fault } }
      ⟨0o16, 2, 0o736500000011, 0⟩ = true := by
  decide +kernel

/-- V4.16 -/
theorem test_fetch_v4_16 :
    raises 0 { extended with par := ⟨4, 0o1000⟩ } ⟨0o10, 0o41, 0o1000, 0⟩ = true := by
  decide +kernel

/-- V4.17 -/
theorem test_fetch_v4_17 :
    raises 0 { extended.locked 0 ⟨0, 7⟩ ⟨false, true, true⟩ ⟨false, true, true⟩ with key := ⟨1, 1⟩ }
      ⟨0o10, 0o44, 0o10, 0⟩ = true := by
  decide +kernel

/-- V9.14 -/
theorem test_undefined_v9_14 :
    raises 0o77260002000 basic ⟨0o16, 0, 0o77260002000, 0⟩ = true := by
  decide +kernel

/-- V4.5 -/
theorem test_search_v4_5 :
    (after 0o100000002000 { ((basic.setBase 0o16 (bank 0o30000 0o2000 0o2007)).put 0o30000 0o66).put 0o20000 0o55 with dr := 0o2000020 }).map
        (fun t => (t.reg 0o14)) =
      some (0o66) := by
  decide +kernel

/-- V4.6b -/
theorem test_search_v4_6b :
    (after 0o100000002000 { ((basic.setBase 0o17 (bank 0o40000 0o2000 0o2007)).put 0o40000 0o77).put 0o20000 0o55 with dr := 0o2000020 }).map
        (fun t => (t.reg 0o14)) =
      some (0o77) := by
  decide +kernel

/-- V4.12 -/
theorem test_lock_v4_12 :
    raises 0o10000011000 { extended.locked 1 ⟨0, 1⟩ ⟨false, true, false⟩ ⟨false, true, false⟩ with key := ⟨1, 2⟩ }
      ⟨0o10, 3, 0o1000, 1⟩ = true := by
  decide +kernel

/-- V4.13 -/
theorem test_lock_v4_13 :
    (after 0o100000011000 { (extended.locked 1 ⟨2, 0o11⟩ ⟨false, false, false⟩ ⟨false, true, true⟩).put 0o2000 5 with key := ⟨1, 2⟩ }).map
        (fun t => (t.reg 0o14)) =
      some (5) := by
  decide +kernel

/-! ## The hypotheses of the obligations can be met -/

/-- An operand with no index, no increment and no i bit. -/
def direct (u : BitVec 16) : Operand := ⟨0, false, false, u⟩

/-- One pending request that can be held and one that cannot. -/
def twoRequests : State :=
  { extended with pending := ⟨[⟨⟨31, 0, 1, 0⟩, true, 0⟩, ⟨⟨12, 0, 5, 0⟩, false, 1⟩], 2⟩ }

/-- A handler's first fetch, with no bank to fetch from. -/
def entered : State := { State.reset with run := .running, entry := true, save := some ⟨⟨4, 1⟩, 0, bank 0 0 0, ⟨⟨12, 0, 5, 0⟩, false, 0⟩⟩ }

/-- PP 2 with the user set. -/
def unprivileged : State := { stacked with dr := 0o10000000 }

theorem witness_DecodeReadsEveryEncoding :
    (Instr.la 0o16 0 (direct 0o1000)).definedIn .basic = true ∧
      (Instr.call (direct 0o11000)).definedIn .extended = true := by
  decide

theorem witness_EncodeRestoresEveryWord :
    decode .basic 0o107000001000 = some (.la 0o16 0 (direct 0o1000)) ∧
      decode .extended 0o050370011000 = none ∧ decode .extended 0o050160011000 = some (.saz 0 (direct 0o11000)) := by
  decide

theorem witness_StepRunsTheDecodedInstruction :
    (extended.next 0o107000000005).Fetches 0o107000000005 ∧
      decode extended.mode 0o107000000005 = some (.la 0o16 0 (direct 5)) := by
  unfold State.Fetches
  decide +kernel

theorem witness_UndefinedWordsRaiseInvalidInstruction :
    (basic.next 0o077260002000).Fetches 0o077260002000 ∧
      ∀ r ∈ opcodeTable, r.accepts basic.mode 0o077260002000 = false := by
  unfold State.Fetches
  decide +kernel

/-- The first and the last word of the instruction bank, with and without execute permission. -/
theorem witness_FetchReadsTheInstructionBank_extended :
    let s := { extended with par := ⟨4, 0⟩ }
    let t := { extended with par := ⟨4, 0o777⟩ }
    (s.mode = .extended ∧ (s.base 0).Holds s.par.pc.toNat ∧ s.Granted (s.base 0) ⟨true, true, true⟩ ∧
      (s.base 0).base + (s.par.pc.toNat - (s.base 0).lower.toNat) < s.params.memSize) ∧
    t.mode = .extended ∧ (t.base 0).Holds t.par.pc.toNat ∧ t.Granted (t.base 0) ⟨true, true, true⟩ ∧
      (t.base 0).base + (t.par.pc.toNat - (t.base 0).lower.toNat) < t.params.memSize := by
  unfold Descriptor.Holds State.Granted
  decide +kernel

theorem witness_FetchReadsTheInstructionBank_permission :
    let s := { extended.locked 0 ⟨1, 1⟩ ⟨false, true, true⟩ ⟨true, true, true⟩ with key := ⟨2, 2⟩ }
    s.mode = .extended ∧ (s.base 0).Holds s.par.pc.toNat ∧ s.Granted (s.base 0) ⟨false, true, true⟩ := by
  unfold Descriptor.Holds State.Granted
  decide +kernel

theorem witness_FetchReadsTheInstructionBank_basic :
    basic.mode = .basic ∧ basic.SearchTakes basic.par.pc 12 ∧ basic.Granted (basic.base 12) ⟨true, true, true⟩ ∧
      (basic.base 12).base + (basic.par.pc.toNat - (basic.base 12).lower.toNat) < basic.params.memSize := by
  refine ⟨by decide +kernel, ⟨[], [14, 13, 15], ?_⟩, ?_, by decide +kernel⟩
  · unfold Descriptor.Holds
    decide +kernel
  · unfold State.Granted
    decide +kernel

theorem witness_FetchReadsTheInstructionBank_limits :
    let s := { extended with par := ⟨4, 0o1000⟩ }
    let t := { basic with par := ⟨4, 0o777⟩ }
    (s.mode = .extended ∧ ¬(s.base 0).Holds s.par.pc.toNat) ∧
      t.mode = .basic ∧ ∀ k ∈ [12, 13, 14, 15], ¬(t.base k).Holds t.par.pc.toNat := by
  unfold Descriptor.Holds
  decide +kernel

theorem witness_FetchFaultsQueueOrHalt :
    let s := { extended with par := ⟨4, 0o1000⟩ }
    (s.run = .running ∧ s.selected = none ∧ s.fetchWord = .error (.interrupt ⟨8, 0o41, 0o1000, 0⟩) ∧ s.entry = false) ∧
      entered.run = .running ∧ entered.selected = none ∧
        entered.fetchWord = .error (.interrupt ⟨8, 0o41, 0, 0⟩) ∧ entered.entry = true ∧
      entered.save.isSome = true := by
  decide +kernel

/-- A lower class goes first, and an earlier arrival of the same class. -/
theorem witness_DispatchTakesTheFirstEligible_first :
    let q : InterruptRequest := ⟨⟨12, 0, 5, 0⟩, false, 1⟩
    let p : InterruptRequest := ⟨⟨12, 0, 6, 0⟩, false, 2⟩
    let r : InterruptRequest := ⟨⟨31, 0, 1, 0⟩, true, 0⟩
    let s := { extended with pending := ⟨[r, q, p], 3⟩, dr := 0o20000000 }
    s.run = .running ∧ q ∈ s.pending.requests ∧ (q.deferrable = false ∨ designatorBit s.dr 13 = true) ∧
      (r.deferrable = false ∨ designatorBit s.dr 13 = true) ∧
      ∀ p' ∈ s.pending.requests, (p'.deferrable = false ∨ designatorBit s.dr 13 = true) → p' ≠ q →
        q.cause.cls.toNat < p'.cause.cls.toNat ∨ (q.cause.cls = p'.cause.cls ∧ q.seq < p'.seq) := by
  decide +kernel

theorem witness_DispatchTakesTheFirstEligible_held :
    let s := { extended.next 0o107000000005 with pending := ⟨[⟨⟨31, 0, 1, 0⟩, true, 0⟩], 1⟩ }
    s.run = .running ∧ (∀ q ∈ s.pending.requests, q.deferrable = true ∧ designatorBit s.dr 13 = false) ∧
      (∃ t, step s = .next t) ∧ s.pending.requests ≠ [] := by
  exact ⟨by decide +kernel, by decide +kernel, ⟨_, rfl⟩, by decide +kernel⟩

theorem witness_InterruptEntryEffects :
    twoRequests.run = .running ∧ twoRequests.selected = some ⟨⟨12, 0, 5, 0⟩, false, 1⟩ := by
  decide +kernel

theorem witness_AbandonedInstructionsOnlyQueue :
    (∃ t, exec (.paij (direct 0)) unprivileged = .next t ∧ t.pending ≠ unprivileged.pending) ∧
      ∃ t, exec (.er 0 (direct 0o77)) extended = .next t ∧ t.pending ≠ extended.pending :=
  ⟨⟨unprivileged.enqueue (invalidInstruction 1 (encode (.paij (direct 0)))), rfl,
    by decide +kernel⟩, extended.advance.enqueue (signal 0 0o77), rfl, by decide +kernel⟩

/-- One cause of each class. -/
theorem witness_OnlyTabledFaultsAreRaised :
    Abandons (.la 0 0 (direct 0o11000)) { extended with b := Vector.replicate 32 Descriptor.void } ⟨8, 1, 0o1000, 1⟩ ∧
      Abandons (.goto (direct 0o11000)) (stacked.put 0o2000 0o7000100) ⟨9, 0, 7, 0⟩ ∧
      Abandons (.locl (direct 0)) (stacked.setReg 0o140 1) ⟨11, 0, 1, 0⟩ ∧
      Abandons (.rtn (direct 0)) stacked ⟨11, 1, 0o1000, 0⟩ ∧
      Abandons (.halt (direct 0)) unprivileged ⟨14, 1, encode (.halt (direct 0)), 0⟩ ∧
      Abandons (.sz 0o16 (direct 0)) extended ⟨14, 2, encode (.sz 0o16 (direct 0)), 0⟩ ∧
      Abandons (.send (direct 0o11)) { extended with params := { upiAbsentTarget := .fault } }
        ⟨14, 2, encode (.send (direct 0o11)), 0⟩ := by
  exact ⟨rfl, rfl, rfl,
    rfl, rfl, rfl, rfl⟩

/-- The reset state and a running state are well formed. -/
theorem witness_wellFormed_reset : State.reset.Wf :=
  ⟨by decide +kernel, by decide +kernel, ⟨by decide +kernel, by decide +kernel⟩,
    ⟨by decide +kernel, by decide +kernel⟩, by decide +kernel, (fun _ h => nomatch h), by decide +kernel, by decide +kernel,
    by decide +kernel⟩

theorem witness_wellFormed_running : (twoRequests.next 0o107000000005).Wf :=
  ⟨by decide +kernel, by decide +kernel, ⟨by decide +kernel, by decide +kernel⟩,
    ⟨by decide +kernel, by decide +kernel⟩, by decide +kernel, (fun _ h => nomatch h), by decide +kernel, by decide +kernel,
    by decide +kernel⟩

theorem witness_StepKeepsWellFormed :
    ∃ t, (twoRequests.next 0o107000000005).Wf ∧ step (twoRequests.next 0o107000000005) = .next t :=
  ⟨_, witness_wellFormed_running, rfl⟩

/-- The least storage that a processor can have. -/
theorem witness_CreatedStateIsWellFormed : 0 < ({ memSize := 1 } : Params).memSize := by decide

/-- PROCESSORS given with the processor's own index and a repeat. -/
theorem test_created_processors_are_distinct :
    ((State.created (Vector.replicate 128 0) {} [2, 0, 1, 2]).peers.map Peer.index) = [0o1, 0o2] := by decide +kernel

/-- A load of one bank of two words, at 010 in absolute storage, and one of one word. -/
def image : LoadImage :=
  { banks := [⟨4, [0o107000000005, 7], bank 0o10 0 1⟩, ⟨5, [1], bank 0o20 0 0⟩], entry := ⟨4, 0⟩, assign := [(25, 5)],
    initialDr := 0o20000000 }

theorem witness_HostCallsKeepWellFormed :
    State.reset.Wf ∧ (hostCall (.load image) State.reset).isSome = true ∧ hostCall .start State.reset ≠ none :=
  ⟨witness_wellFormed_reset, by decide +kernel, by decide +kernel⟩

theorem witness_ReachableStatesAlwaysStep :
    Reachable State.reset ∧ ∃ t, hostCall .start State.reset = some t ∧ Reachable t ∧ t.run = .running :=
  have h : Reachable State.reset := .created _ _ _ (by decide)
  ⟨h, State.reset.start, rfl, .host _ _ .start h rfl, by decide +kernel⟩

/-- DB13 changes by AAIJ and by interrupt entry, DB12 by RTN, and DR by a load. -/
theorem witness_DesignatorWriters :
    (after 0o746140000300 stacked).map (fun t => designatorBit t.dr 13 != designatorBit stacked.dr 13) = some true ∧
      (after 0 { twoRequests with dr := 0o20000000 }).map (fun t => designatorBit t.dr 13) = some false ∧
      (after 0o737460000000 (((stacked.setReg 0o140 0o776).put 0o4776 0o4000020).put 0o4777 0o40000000)).map
        (fun t => designatorBit t.dr 12) = some true ∧
      (hostCall (.load image) State.reset).map (·.dr) = some image.initialDr ∧ State.reset.dr ≠ image.initialDr := by
  decide +kernel

/-- B0 changes by CALL and by interrupt entry, and SAVE by the latter. -/
theorem witness_BankAndControlWriters :
    (after 0o077260011000 (stacked.put 0o2000 0o6000100)).map
        (fun t => t.base 0 != stacked.base 0 && t.par.bank != stacked.par.bank) = some true ∧
      (after 0 twoRequests).map (fun t => t.base 0 != twoRequests.base 0 && t.save != twoRequests.save) = some true ∧
      hostCall .start State.reset ≠ none ∧ ∀ l, HostCall.start ≠ .load l :=
  ⟨by decide +kernel, by decide +kernel, by decide +kernel, nofun⟩

theorem witness_ProtectedRegistersAreKept :
    ∃ t, exec (.la 0o16 0 (direct 5)) unprivileged = .next t ∧ 2 ≤ unprivileged.pp.toNat ∧
      unprivileged.execSet = false :=
  ⟨(unprivileged.setReg 0o14 5).advance, rfl, by decide +kernel⟩

theorem witness_ProtectedRegistersAreNotRead :
    let s := unprivileged
    let s' := unprivileged.setReg 0o120 7
    (2 ≤ s.pp.toNat ∧ s.execSet = false ∧ { s with grs := s'.grs } = s' ∧
      (∀ k : GrsIndex, k.toNat < 0o120 ∨ k = 0o140 → s'.reg k = s.reg k) ∧ s'.reg 0o120 ≠ s.reg 0o120) ∧
      exec (.la 0o16 0 (direct 5)) s = .next (s.setReg 0o14 5).advance :=
  ⟨⟨by decide +kernel, by decide +kernel, by decide +kernel,
    fun k hk => State.reg_setReg_ne (by rintro rfl; revert hk; decide), by decide +kernel⟩, rfl⟩

theorem witness_StoresNeedPermission :
    extended.mem.wf = true ∧
      (∃ t, exec (.snz 0 (direct 0o11000)) extended = .next t ∧ t.mem.read 0o2000 ≠ extended.mem.read 0o2000) ∧
      ∃ t, exec (.locl (direct 0)) stacked = .next t ∧ t.mem.read 0o4776 ≠ stacked.mem.read 0o4776 :=
  ⟨by decide +kernel, ⟨(extended.put 0o2000 0o777777777777).advance, rfl, by decide +kernel⟩,
    ((stacked.put 0o4776 0o4000011).setReg 0o140 0o776).jump 0, rfl, by decide +kernel⟩

theorem witness_OnlyHaltAndEntryFaultsStop :
    State.reset.run ≠ .running ∧ (∃ t, step State.reset = .next t) ∧
      (after 0o737540001014 extended).map (·.run) = some .halted ∧
      (∃ t, step entered = .next t ∧ t.run ≠ .running) :=
  ⟨by decide +kernel, ⟨State.reset, rfl⟩, by decide +kernel,
    (entered.enqueue ⟨8, 0o41, 0, 0⟩).stop .interruptEntryFault 12, rfl, by decide +kernel⟩

/-- The largest sum in range, the smallest, and the two negative zeros. -/
theorem witness_Add18IsOnesComplementAddition :
    (-(2 ^ 17 - 1) ≤ value18 0o377776 + value18 1 ∧ value18 0o377776 + value18 1 ≤ 2 ^ 17 - 1) ∧
      (-(2 ^ 17 - 1) ≤ value18 0o400001 + value18 0o777776 ∧ value18 0o400001 + value18 0o777776 ≤ 2 ^ 17 - 1) ∧
      value18 0o377776 + value18 1 = 2 ^ 17 - 1 ∧ value18 0o400001 + value18 0o777776 = -(2 ^ 17 - 1) ∧
      add18 0o777777 0o777777 = 0o777777 := by
  decide +kernel

theorem witness_ImmediateOperands :
    (direct 0o1000).x = 0 ∧ (⟨1, true, false, 5⟩ : Operand).x ≠ 0 := by
  decide

theorem witness_IndexingAndAutoIncrement :
    let o : Operand := ⟨1, true, false, 0o11000⟩
    (extended.mode = .extended ∧ o.d.setWidth 18 = (0o1000 : RelAddr)) ∧
      (basic.mode = .basic ∧ o.i = false ∧ o.u.setWidth 18 = (0o11000 : RelAddr)) ∧ o.x ≠ 0 ∧ (direct 0).x = 0 := by
  decide +kernel

/-- A chain of one level; one whose first read is a violation, and one whose second is. -/
theorem witness_BasicResolutionFollowsTheChain :
    let s := basic.put 0o20000 0o2001
    let t := basic.put 0o20000 0o203000
    let c : Cause := ⟨8, 1, 0o3000, 0⟩
    (s.mode = .basic ∧ resolveAddress ⟨0, false, true, 0o2000⟩ s = .ok (0o2001, s)) ∧
      (basic.mode = .basic ∧ resolveAddress ⟨0, false, true, 0o3000⟩ basic = .error (.interrupt c) ∧
        ChainFaults 64 ⟨0, false, true, 0o3000⟩ basic 0o3000 c) ∧
      t.mode = .basic ∧ resolveAddress ⟨0, false, true, 0o2000⟩ t = .error (.interrupt c) :=
  ⟨⟨by decide +kernel, rfl⟩, ⟨by decide +kernel, rfl, .here _ _ _ _ _ _ rfl rfl rfl⟩, by decide +kernel, rfl⟩

/-- The last register of the window and the last that PP 2 may reach; the first it may not; a pair that runs into it. -/
theorem witness_GrsWindowReferences :
    ((0o177 : RelAddr).toNat ≤ 0o177 ∧ extended.mode ≠ .basic ∧ (direct 0o177).b = 0 ∧ extended.pp.toNat < 2) ∧
      (2 ≤ unprivileged.pp.toNat ∧ ∀ k : Nat, k < 1 → ((0o117 : RelAddr).toNat + k) % 128 < 0o120) ∧
      (2 ≤ unprivileged.pp.toNat ∧ 0o120 ≤ (0o120 : RelAddr).toNat) ∧
      2 ≤ unprivileged.pp.toNat ∧ ∃ k : Nat, k < 2 ∧ 0o120 ≤ ((0o117 : RelAddr).toNat + k) % 128 :=
  ⟨by decide +kernel, by decide +kernel, by decide +kernel, by decide +kernel, 1, by decide +kernel⟩

/-- The first and the last word of a bank, one past it, and one before it. -/
theorem witness_StorageReferenceTests_limits :
    let d := extended.base 1
    let o := direct 0o11000
    ¬((0o1000 : RelAddr).toNat ≤ 0o177 ∧ (extended.mode = .basic ∨ o.b = 0)) ∧ extended.mode = .extended ∧
      extended.params.extBaseSelect = .db17 ∧ designatorBit extended.dr 17 = false ∧ o.b.toNat = 1 ∧
      d.Holds 0o1000 ∧ d.Holds 0o1777 ∧ ¬d.Holds 0o2000 ∧ ¬d.Holds 0o777 ∧
      extended.Granted d ⟨true, true, true⟩ := by
  unfold Descriptor.Holds State.Granted
  decide +kernel

/-- A bank that grants the key neither reading nor writing, and the search of Basic mode. -/
theorem witness_StorageReferenceTests_lock :
    let s := { extended.locked 1 ⟨0, 1⟩ ⟨true, false, false⟩ ⟨true, true, true⟩ with key := ⟨1, 2⟩ }
    (s.mode = .extended ∧ (∀ m : Nat, m < 2 → (s.base 1).Holds (0o1000 + m)) ∧
      s.Granted (s.base 1) ⟨true, false, false⟩) ∧
      basic.SearchTakes 0o2000 13 ∧ ∀ k ∈ [12, 13, 14, 15], ¬(basic.base k).Holds 0o3000 := by
  refine ⟨?_, ⟨[12, 14], [15], ?_⟩, ?_⟩
  · unfold Descriptor.Holds State.Granted
    decide +kernel
  · unfold Descriptor.Holds
    decide +kernel
  · unfold Descriptor.Holds
    decide +kernel

/-- A word of B1, whose address resolves and whose storage exists, for one word and for two. -/
theorem witness_resolved :
    (∃ u, resolveAddress (direct 0o11000) extended = .ok (u, extended) ∧
      extended.reference .read 1 (direct 0o11000) u = .ok (.mem 1 0o1000)) ∧
    resolve .read 1 (direct 0o11000) extended = .ok (.mem 1 0o1000, extended) ∧
    resolve .write 1 (direct 0o11000) extended = .ok (.mem 1 0o1000, extended) ∧
    resolve .check 1 (direct 0o11000) extended = .ok (.mem 1 0o1000, extended) ∧
    resolve .read 2 (direct 0o11000) extended = .ok (.mem 1 0o1000, extended) ∧
    resolve .write 2 (direct 0o11000) extended = .ok (.mem 1 0o1000, extended) ∧
    (∀ k, k < 2 → extended.absolute 1 0o1000 k < extended.params.memSize) ∧ extended.mem.wf = true :=
  ⟨⟨0o1000, rfl, rfl⟩, rfl, rfl, rfl, rfl, rfl, by decide +kernel⟩

/-- `HasStorage` of that word and of a register. -/
theorem witness_hasStorage :
    extended.HasStorage (.mem 1 0o1000) 2 ∧ extended.HasStorage (.mem 1 0o1000) 1 ∧ extended.HasStorage (.grs 0o15) 2 :=
  ⟨witness_resolved.2.2.2.2.2.2.1, fun k hk => witness_resolved.2.2.2.2.2.2.1 k (by omega), trivial⟩

theorem witness_OperandsAreFieldsOfTheWord :
    (0 : BitVec 4) ≠ 0o16 ∧ (0 : BitVec 4) ≠ 0o17 ∧ extended.HasStorage (.mem 1 0o1000) 1 ∧
      ∃ u, resolveAddress (direct 0o11000) extended = .ok (u, extended) ∧
        extended.reference .read 1 (direct 0o11000) u = .ok (.mem 1 0o1000) :=
  ⟨by decide, by decide, witness_hasStorage.2.1, witness_resolved.1⟩

/-- One word past the end of B1, and a chain that fails before there is a reference. -/
theorem witness_OperandsAreFieldsOfTheWord_fails :
    resolve .read 1 (direct 0o12000) extended = .error (.interrupt ⟨8, 1, 0o2000, 1⟩) ∧
      (resolveAddress (direct 0o12000) extended = .ok (0o2000, extended) ∧
        extended.reference .read 1 (direct 0o12000) 0o2000 = .error (.interrupt ⟨8, 1, 0o2000, 1⟩)) ∧
      resolve .check 1 ⟨0, false, true, 0o3000⟩ basic = .error (.interrupt ⟨8, 1, 0o3000, 0⟩) :=
  ⟨rfl, ⟨rfl, rfl⟩, rfl⟩

/-- An immediate, a storage word, and a register of the window. -/
theorem witness_LoadsComplete :
    readOperand 0o17 ⟨0, true, true, 0o177776⟩ extended = .ok (0o777777777776, extended) ∧
      readOperand 0 (direct 0o11000) extended = .ok (0, extended) ∧
      readOperand 1 (direct 0o14) (extended.setReg 0o14 0o7000005) = .ok (5, extended.setReg 0o14 0o7000005) :=
  ⟨rfl, rfl, rfl⟩

theorem witness_DoubleWordInstructionsComplete :
    extended.HasStorage (.mem 1 0o1000) 2 ∧
      resolve .read 2 (direct 0o11000) extended = .ok (.mem 1 0o1000, extended) ∧
      resolve .write 2 (direct 0o11000) extended = .ok (.mem 1 0o1000, extended) ∧ extended.mem.wf = true :=
  ⟨witness_hasStorage.1, witness_resolved.2.2.2.2.1, witness_resolved.2.2.2.2.2.1, by decide +kernel⟩

theorem witness_QuarterWordInstructionsComplete :
    let o : Operand := ⟨1, false, false, 0o11000⟩
    o.x ≠ 0 ∧ extended.HasStorage (.mem 1 0o1000) 1 ∧
      resolve .read 1 o extended = .ok (.mem 1 0o1000, extended) ∧
      resolve .write 1 o extended = .ok (.mem 1 0o1000, extended) ∧ extended.mem.wf = true :=
  ⟨by decide, witness_hasStorage.2.1, rfl, rfl, by decide +kernel⟩

/-- No register named; two named, the same one twice, of which the second counts. -/
theorem witness_LoadAndStoreRegisterSetComplete :
    let s := extended.setReg 0o14 0o001020001020
    let d := s.reg (s.aIndex 0)
    ((extended.reg (extended.aIndex 0)).extractLsb' 9 7).toNat + ((extended.reg (extended.aIndex 0)).extractLsb' 27 7).toNat = 0 ∧
      (d.extractLsb' 9 7).toNat + (d.extractLsb' 27 7).toNat = 2 ∧ d.extractLsb' 0 7 = d.extractLsb' 18 7 ∧
      s.pp.toNat < 2 ∧ resolve .read 2 (direct 0o11000) s = .ok (.mem 1 0o1000, s) ∧
      resolve .write 2 (direct 0o11000) s = .ok (.mem 1 0o1000, s) ∧
      (∀ k, k < 2 → s.absolute 1 0o1000 k < s.params.memSize) ∧ s.mem.wf = true :=
  ⟨by decide +kernel, by decide +kernel, by decide +kernel, by decide +kernel, rfl, rfl, by decide +kernel⟩

theorem witness_StoresComplete :
    (0o15 : BitVec 4) ≠ 0o16 ∧ (0o15 : BitVec 4) ≠ 0o17 ∧
      resolve .write 1 (direct 0o11000) extended = .ok (.mem 1 0o1000, extended) ∧
      extended.HasStorage (.mem 1 0o1000) 1 ∧ extended.mem.wf = true :=
  ⟨by decide, by decide, witness_resolved.2.2.1, witness_hasStorage.2.1, by decide +kernel⟩

theorem witness_ShiftsComplete : resolveAddress (direct 0o177) extended = .ok (0o177, extended) := rfl

/-- Zero, negative zero, and a word to shift; the words of `extended` are zeros. -/
theorem witness_LoadShiftAndCountCompletes :
    let s := extended.put 0o2000 0o777777777777
    let t := extended.put 0o2000 1
    (resolve .read 1 (direct 0o11000) extended = .ok (.mem 1 0o1000, extended) ∧
      extended.HasStorage (.mem 1 0o1000) 1 ∧ extended.wordAt (.mem 1 0o1000) 0 = 0) ∧
    (resolve .read 1 (direct 0o11000) s = .ok (.mem 1 0o1000, s) ∧ s.HasStorage (.mem 1 0o1000) 1 ∧
      s.wordAt (.mem 1 0o1000) 0 = 0o777777777777) ∧
    resolve .read 1 (direct 0o11000) t = .ok (.mem 1 0o1000, t) ∧ t.HasStorage (.mem 1 0o1000) 1 ∧
      t.wordAt (.mem 1 0o1000) 0 = 1 :=
  ⟨⟨witness_resolved.2.1, witness_hasStorage.2.1, by decide +kernel⟩,
    ⟨rfl, witness_hasStorage.2.1, by decide +kernel⟩,
    rfl, witness_hasStorage.2.1, by decide +kernel⟩

theorem witness_DoubleLoadShiftAndCountCompletes :
    let s := (extended.put 0o2000 0o777777777777).put 0o2001 0o777777777777
    let t := extended.put 0o2001 1
    (resolve .read 2 (direct 0o11000) extended = .ok (.mem 1 0o1000, extended) ∧
      extended.HasStorage (.mem 1 0o1000) 2 ∧ extended.wordAt (.mem 1 0o1000) 0 = 0 ∧
      extended.wordAt (.mem 1 0o1000) 1 = 0) ∧
    (resolve .read 2 (direct 0o11000) s = .ok (.mem 1 0o1000, s) ∧ s.HasStorage (.mem 1 0o1000) 2 ∧
      s.wordAt (.mem 1 0o1000) 0 = 0o777777777777 ∧ s.wordAt (.mem 1 0o1000) 1 = 0o777777777777) ∧
    resolve .read 2 (direct 0o11000) t = .ok (.mem 1 0o1000, t) ∧ t.HasStorage (.mem 1 0o1000) 2 ∧
      t.wordAt (.mem 1 0o1000) 0 = 0 ∧ t.wordAt (.mem 1 0o1000) 1 = 1 :=
  ⟨⟨witness_resolved.2.2.2.2.1, witness_hasStorage.1, by decide +kernel⟩,
    ⟨rfl, witness_hasStorage.1, by decide +kernel⟩,
    rfl, witness_hasStorage.1, by decide +kernel⟩

/-- A stack with room for one frame exactly, and a full bank above it. -/
theorem witness_CallCompletes_GotoCompletes :
    let s := ((stacked.put 0o2000 0o6000100).setReg 0o140 2)
    let stack := s.base 25
    let p := (s.reg 0o140).low
    resolve .read 1 (direct 0o11000) s = .ok (.mem 1 0o1000, s) ∧
      (∀ k, k < 1 → s.absolute 1 0o1000 k < s.params.memSize) ∧
      findBank (s.wordAt (.mem 1 0o1000) 0).high s.bdt = some (bank 0o5000 0 0o177) ∧ s.mem.wf = true ∧
      stack.isVoid = false ∧ stack.lower.toNat + 2 ≤ p.toNat ∧ p.toNat ≤ stack.upper.toNat + 1 ∧
      stack.base + (p.toNat - 2 - stack.lower.toNat) + 1 < s.params.memSize :=
  ⟨rfl, by decide +kernel⟩

/-- The pointer one past the stack's last word. -/
theorem witness_LocalCallCompletes :
    let stack := stacked.base 25
    let p := (stacked.reg 0o140).low
    resolveAddress (direct 0o200) stacked = .ok (0o200, stacked) ∧ stacked.mem.wf = true ∧
      stack.isVoid = false ∧ stack.lower.toNat + 2 ≤ p.toNat ∧ p.toNat = stack.upper.toNat + 1 ∧
      stack.base + (p.toNat - 2 - stack.lower.toNat) + 1 < stacked.params.memSize :=
  ⟨rfl, by decide +kernel⟩

/-- The last frame of the stack and the first. -/
theorem witness_ReturnCompletes :
    ∀ p ∈ [(0o776 : Nat), 0],
      let s := (stacked.setReg 0o140 (BitVec.ofNat 36 p)).put (0o4000 + p) 0o4000011
      let stack := s.base 25
      stack.isVoid = false ∧ (s.reg 0o140).low.toNat = p ∧ stack.lower.toNat ≤ p ∧ p + 1 ≤ stack.upper.toNat ∧
        stack.base + (p - stack.lower.toNat) + 1 < s.params.memSize ∧
        findBank (s.mem.read (stack.base + (p - stack.lower.toNat))).high s.bdt = some (bank 0o1000 0 0o777) := by
  decide +kernel

/-- A call and the return from the state that it leaves. -/
theorem witness_ReturnRestoresTheCall :
    let s := stacked
    let s' := ((stacked.put 0o4776 0o4000011).setReg 0o140 0o776).jump 0o200
    let v := { s' with par := ⟨4, 0o11⟩ }.setReg 0o140 0o1000
    exec (.locl (direct 0o200)) s = .next s' ∧ exec (.rtn (direct 0)) s' = .next v ∧ s.mem.wf = true ∧
      s'.pending = s.pending ∧ v.pending = s'.pending :=
  ⟨rfl, rfl, by decide +kernel⟩

theorem witness_StackAndBankFaults_banks :
    let s := stacked.put 0o2000 0o7000100
    let t := stacked.setReg 0o140 0o776
    (resolve .read 1 (direct 0o11000) s = .ok (.mem 1 0o1000, s) ∧
      (∀ k, k < 1 → s.absolute 1 0o1000 k < s.params.memSize) ∧
      findBank (s.wordAt (.mem 1 0o1000) 0).high s.bdt = none) ∧
    (t.base 25).upper.toNat = (t.reg 0o140).low.toNat + 1 ∧ findBank (t.mem.read 0o4776).high t.bdt = none :=
  ⟨⟨rfl, by decide +kernel⟩, by decide +kernel⟩

/-- A pointer one too low, one too high, a stack without a frame, and no stack. -/
theorem witness_StackAndBankFaults_stack :
    let s := (stacked.put 0o2000 0o6000100).setReg 0o140 1
    let t := (stacked.put 0o2000 0o6000100).setReg 0o140 0o1001
    (resolve .read 1 (direct 0o11000) s = .ok (.mem 1 0o1000, s) ∧
      findBank (s.wordAt (.mem 1 0o1000) 0).high s.bdt ≠ none ∧
      (s.reg 0o140).low.toNat + 1 = (s.base 25).lower.toNat + 2) ∧
    (resolveAddress (direct 0) t = .ok (0, t) ∧ (t.base 25).upper.toNat + 2 = (t.reg 0o140).low.toNat) ∧
    (stacked.base 25).upper.toNat < (stacked.reg 0o140).low.toNat + 1 ∧ (extended.base 25).isVoid = true :=
  ⟨⟨rfl, by decide +kernel⟩, ⟨rfl, by decide +kernel⟩, by decide +kernel⟩

theorem witness_jumps_signals_and_halt :
    extended.pp = 0 ∧ resolveAddress (direct 0o300) extended = .ok (0o300, extended) :=
  ⟨by decide +kernel, rfl⟩

theorem witness_NoOperationCompletes :
    resolve .check 1 (direct 0o11000) extended = .ok (.mem 1 0o1000, extended) ∧
      resolve .check 1 (direct 0o2000) basic = .ok (.mem 13 0o2000, basic) :=
  ⟨rfl, rfl⟩

theorem witness_SendCompletes :
    let s := { extended with peers := [⟨1, ⟨[], 0⟩⟩] }
    let f := { extended with params := { upiAbsentTarget := .fault } }
    (resolveAddress (direct 0) s = .ok (0, s) ∧ (0 : UpiIndex) = s.params.upiIndex) ∧
      (resolveAddress (direct 1) s = .ok (1, s) ∧ (1 : UpiIndex) ≠ s.params.upiIndex ∧ ∃ p ∈ s.peers, p.index = 1) ∧
      (resolveAddress (direct 2) s = .ok (2, s) ∧ (2 : UpiIndex) ≠ s.params.upiIndex ∧ (∀ p ∈ s.peers, p.index ≠ 2) ∧
        s.params.upiAbsentTarget = .ignore) ∧
      resolveAddress (direct 2) f = .ok (2, f) ∧ (2 : UpiIndex) ≠ f.params.upiIndex ∧ (∀ p ∈ f.peers, p.index ≠ 2) ∧
        f.params.upiAbsentTarget = .fault :=
  ⟨⟨rfl, by decide +kernel⟩, ⟨rfl, by decide +kernel⟩, ⟨rfl, by decide +kernel⟩, rfl, by decide +kernel⟩

theorem witness_PrivilegeAndFormFaults :
    ((unprivileged.next 0o737540000000).Fetches 0o737540000000 ∧
      decode unprivileged.mode 0o737540000000 = some (.halt (direct 0)) ∧ unprivileged.pp ≠ 0) ∧
    ((extended.next 0o057000000000).Fetches 0o057000000000 ∧
      decode extended.mode 0o057000000000 = some (.sz 0o16 (direct 0))) ∧
    (extended.next 0o072000000000).Fetches 0o072000000000 ∧
      decode extended.mode 0o072000000000 = some (.laqw 0 (direct 0)) ∧ (direct 0).x = 0 := by
  unfold State.Fetches
  decide +kernel

/-- Each kind of resolution that fails, above the end of B1; a chain that fails in Basic mode, where an address can. -/
theorem witness_OperandFaultsAbandon :
    let o : Operand := ⟨1, false, false, 0o11777⟩
    let s := extended.setReg 1 1
    let c : Cause := ⟨8, 1, 0o2000, 1⟩
    readOperand 0 o s = .error (.interrupt c) ∧ resolve .write 1 o s = .error (.interrupt c) ∧
      resolve .read 1 o s = .error (.interrupt c) ∧ resolve .read 2 o s = .error (.interrupt c) ∧
      resolve .write 2 o s = .error (.interrupt c) ∧ resolve .check 1 o s = .error (.interrupt c) ∧ o.x ≠ 0 ∧
      resolveAddress ⟨0, false, true, 0o3000⟩ basic = .error (.interrupt ⟨8, 1, 0o3000, 0⟩) ∧ basic.pp = 0 := by
  decide +kernel

/-- Two registers named at PP 0, one of them protected, and two at PP 2, the last that it may reach. -/
theorem witness_OperandFaultsAbandon_registerSets :
    let o : Operand := direct 0o11777
    let c : Cause := ⟨8, 1, 0o2000, 1⟩
    let s := extended.setReg 0o14 0o001020001120
    let t := unprivileged.setReg 0o14 0o001020001117
    let c1 (s : State) := ((s.reg (s.aIndex 0)).extractLsb' 9 7).toNat
    let c2 (s : State) := ((s.reg (s.aIndex 0)).extractLsb' 27 7).toNat
    (c1 s + c2 s = 2 ∧ s.pp.toNat < 2 ∧ resolve .read 2 o s = .error (.interrupt c) ∧
      resolve .write 2 o s = .error (.interrupt c)) ∧
    c1 t + c2 t = 2 ∧ ¬t.pp.toNat < 2 ∧
      (∀ m : Nat, m < c1 t → (((t.reg (t.aIndex 0)).extractLsb' 0 7).toNat + m) % 128 < 0o120) ∧
      (∀ m : Nat, m < c2 t → (((t.reg (t.aIndex 0)).extractLsb' 18 7).toNat + m) % 128 < 0o120) ∧
      resolve .read 2 o t = .error (.interrupt c) ∧ resolve .write 2 o t = .error (.interrupt c) := by
  decide +kernel

/-- A descriptor that names GRS 0117 and 0120. -/
theorem witness_RegisterSetPrivilegeFaults :
    let s := unprivileged.setReg 0o14 0o002117
    let d := s.reg (s.aIndex 0)
    2 ≤ s.pp.toNat ∧ 1 < (d.extractLsb' 9 7).toNat ∧ ((d.extractLsb' 0 7).toNat + 1) % 128 = 0o120 := by
  decide +kernel

/-- The second bank of a load over the first. -/
def overlapping : LoadImage :=
  { banks := [⟨4, [1, 2], bank 0o10 0 1⟩, ⟨5, [3], bank 0o11 0 0⟩], entry := ⟨4, 0⟩, assign := [],
    initialGrs := [(0o14, 5), (0o140, 0o3000004)], initialRcsPtr := some 6 }

theorem witness_HostStartHaltAndSend :
    let s := { extended with peers := [⟨1, ⟨[], 0⟩⟩] }
    ((2 : UpiIndex) ≠ 0 ∧ (0 : UpiIndex) = s.params.upiIndex) ∧
      ((2 : UpiIndex) ≠ 1 ∧ (1 : UpiIndex) ≠ s.params.upiIndex ∧ ∃ p ∈ s.peers, p.index = 1) ∧
      (1 : UpiIndex) ≠ 2 ∧ (2 : UpiIndex) ≠ s.params.upiIndex ∧ ∀ p ∈ s.peers, p.index ≠ 2 := by
  decide +kernel

/-- A load that is accepted, with its registers; overlapping banks; a running processor; banks of one name; and an empty
and a void bank whose base is MEM_SIZE, and an empty one just below it. -/
theorem witness_LoadSetsTheState :
    let one (d : Descriptor) : LoadImage := { banks := [⟨4, [], d⟩], entry := ⟨4, 0⟩, assign := [] }
    State.reset.mem.wf = true ∧
      (hostCall (.load image) State.reset).map (fun t => (t.mem.read 0o11, (t.reg 0o140).low, t.base 0)) =
        some (7, 1, bank 0o10 0 1) ∧
      (hostCall (.load overlapping) State.reset).map (fun t => (t.mem.read 0o10, t.mem.read 0o11, t.reg 0o14)) =
        some (1, 3, 5) ∧
      (hostCall (.load overlapping) State.reset).map (fun t => t.reg 0o140) = some 0o3000006 ∧
      hostCall (.load image) extended = none ∧
      hostCall (.load { image with banks := image.banks ++ image.banks }) State.reset = none ∧
      hostCall (.load (one (bank State.reset.params.memSize 1 0))) State.reset = none ∧
      hostCall (.load (one { Descriptor.void with base := State.reset.params.memSize })) State.reset = none ∧
      hostCall (.load (one (bank (State.reset.params.memSize - 1) 1 0))) State.reset ≠ none := by
  decide +kernel

end Sys2Proof.Machine
end

section
/-! PROOFS. The state and what may write it: the reset values (R47), the register aliases (R23), the writers of DR (R32,
R417), of the base registers and of the interrupt state (R30, R38, R39, R41, R42), and what stops a processor (R44,
R413). Two inversions carry the whole-machine rules: `exec_controlEffect` for an instruction and `step_stepCase` for a
step. -/

namespace Sys2Proof.Machine

/-! ## What an instruction does to the control state -/

/-- The ways an instruction treats everything but registers, PAR and storage. -/
inductive ControlEffect (i : Instr) (s u : State) : Prop
  /-- control state untouched -/
  | keeps : SameControl s u → ControlEffect i s u
  /-- a request added to PENDING: a fault (R162), or ER or SGNL (R340) -/
  | queues (c : Cause) : SameControl (s.enqueue c) u → ControlEffect i s u
  /-- CALL and GOTO: the named bank in B0 (R317, R319) -/
  | transfers (o : Operand) (d : Descriptor) : i = .call o ∨ i = .goto o → SameControl (s.setBase 0 d) u →
      ControlEffect i s u
  /-- RTN: the caller's bank in B0 and DB12 to DB17 from the frame (R323) -/
  | returns (o : Operand) (d : Descriptor) (w : Word) : i = .rtn o →
      SameControl { s.setBase 0 d with dr := restoredDesignators s.dr w } u → ControlEffect i s u
  /-- AAIJ and PAIJ: DB13 (R324, R325) -/
  | setsDeferrable (enabled : Bool) : ((∃ a o, i = .aaijB a o) ∨ ∃ o, i = .aaijE o ∨ i = .paij o) →
      SameControl { s with dr := withDesignatorBit s.dr 13 enabled } u → ControlEffect i s u
  /-- SEND: a request added to another processor's PENDING (R352) -/
  | delivers (v : UpiIndex) (c : Cause) : SameControl (s.deliver v c) u → ControlEffect i s u
  /-- HALT at PP 0 (R356) -/
  | halts (o : Operand) (v : RelAddr) : i = .halt o → s.pp = 0 → SameControl (s.stop .debug v) u → ControlEffect i s u

theorem exec_controlEffect {i : Instr} {s u : State} (h : exec i s = .next u) : ControlEffect i s u := by
  rcases exec_cases h with ⟨c, rfl, -⟩ | ⟨t, ht, hc⟩
  · exact .queues c (.refl _)
  · rcases hc.control ht with hu | ⟨o, n, d, hi, -, hu⟩ | ⟨o, n, d, w, hi, -, hu⟩ | ⟨o, e, hi, -, hu⟩ |
      ⟨o, v, ssf, -, hu⟩ | ⟨o, v, -, hu⟩ | ⟨o, v, hi, hp, hu⟩
    · exact .keeps hu
    · exact .transfers o d hi hu
    · exact .returns o d w hi hu
    · exact .setsDeferrable e (hi.imp (fun ⟨a, ha⟩ => ⟨a, o, ha⟩) fun ha => ⟨o, ha⟩) hu
    · exact .queues _ hu
    · exact .delivers _ _ hu
    · exact .halts o v hi hp hu

theorem SameControl.key {s t : State} (h : SameControl s t) : t.key = s.key := by
  obtain ⟨-, -, hkey, -⟩ := h
  exact hkey

theorem SameControl.interruptState {s t : State} (h : SameControl s t) :
    t.save = s.save ∧ t.lastInterrupt = s.lastInterrupt := by
  obtain ⟨-, -, -, -, hsave, hlast, -⟩ := h
  exact ⟨hsave, hlast⟩

theorem SameControl.runState {s t : State} (h : SameControl s t) :
    t.run = s.run ∧ t.stopReason = s.stopReason ∧ t.stopDetail = s.stopDetail := by
  obtain ⟨-, -, -, -, -, -, -, hrun, hreason, hdetail, -⟩ := h
  exact ⟨hrun, hreason, hdetail⟩

/-- An instruction's DR (R32): only RTN, AAIJ and PAIJ write it. -/
theorem exec_dr {i : Instr} {s u : State} (h : exec i s = .next u) :
    u.dr = s.dr ∨ (∃ o w, i = .rtn o ∧ u.dr = restoredDesignators s.dr w) ∨
      ∃ e, ((∃ a o, i = .aaijB a o) ∨ ∃ o, i = .aaijE o ∨ i = .paij o) ∧ u.dr = withDesignatorBit s.dr 13 e := by
  cases exec_controlEffect h with
  | keeps hu => exact .inl hu.dr
  | queues c hu => exact .inl hu.dr
  | transfers o d hi hu => exact .inl hu.dr
  | returns o d w hi hu => exact .inr (.inl ⟨o, w, hi, hu.dr⟩)
  | setsDeferrable e hi hu => exact .inr (.inr ⟨e, hi, hu.dr⟩)
  | delivers v c hu => exact .inl hu.dr
  | halts o v hi hp hu => exact .inl hu.dr

/-- An instruction's base registers (R38): only CALL, GOTO and RTN write one, and that is B0. -/
theorem exec_base {i : Instr} {s u : State} (h : exec i s = .next u) (k : BaseIndex) :
    u.base k = s.base k ∨ k = 0 ∧ ∃ o, i = .call o ∨ i = .goto o ∨ i = .rtn o := by
  have written (d : Descriptor) : (s.setBase 0 d).base k = s.base k ∨ k = 0 := by
    rw [State.base_setBase]
    by_cases hk : k = 0
    · exact .inr hk
    · exact .inl (if_neg hk)
  cases exec_controlEffect h with
  | keeps hu => exact .inl (hu.base k)
  | queues c hu => exact .inl (hu.base k)
  | transfers o d hi hu =>
    exact (written d).imp (hu.base k).trans fun hk => ⟨hk, o, hi.imp_right .inl⟩
  | returns o d w hi hu =>
    exact (written d).imp (hu.base k).trans fun hk => ⟨hk, o, .inr (.inr hi)⟩
  | setsDeferrable e hi hu => exact .inl (hu.base k)
  | delivers v c hu => exact .inl (hu.base k)
  | halts o v hi hp hu => exact .inl (hu.base k)

/-- No instruction writes KEY, the BDT, a parameter, SAVE or lastInterrupt (R39, R41, R42, R316). -/
theorem exec_keeps_system {i : Instr} {s u : State} (h : exec i s = .next u) :
    (u.key = s.key ∧ u.bdt = s.bdt ∧ u.params = s.params) ∧ u.save = s.save ∧ u.lastInterrupt = s.lastInterrupt := by
  cases exec_controlEffect h with
  | keeps hu | queues _ hu | transfers _ _ _ hu | returns _ _ _ _ hu | setsDeferrable _ _ hu | delivers _ _ hu
  | halts _ _ _ _ hu => exact ⟨⟨hu.key, hu.bdt, hu.params⟩, hu.interruptState⟩

/-- Only HALT, at PP 0, writes the run state (R356). -/
theorem exec_runState {i : Instr} {s u : State} (h : exec i s = .next u) :
    (u.run = s.run ∧ u.stopReason = s.stopReason ∧ u.stopDetail = s.stopDetail) ∨
      s.pp = 0 ∧ (∃ o, i = .halt o) ∧ u.run = .halted ∧ u.stopReason = .debug := by
  cases exec_controlEffect h with
  | keeps hu | queues _ hu | transfers _ _ _ hu | returns _ _ _ _ hu | setsDeferrable _ _ hu | delivers _ _ hu =>
    exact .inl hu.runState
  | halts o v hi hp hu => exact .inr ⟨hp, ⟨o, hi⟩, hu.runState.1, hu.runState.2.1⟩

/-! ## PAR.BANK -/

theorem State.setAll_par (t : State) (ws : List (GrsIndex × Word)) : (t.setAll ws).par = t.par := by
  induction ws generalizing t with
  | nil => rfl
  | cons w ws ih => exact ih (t.setReg w.1 w.2)

/-- An instruction that completes keeps PAR.BANK, unless it is CALL, GOTO or RTN (R30). -/
theorem Completed.bank {i : Instr} {s t u : State} (ht : IndexedFrom s t) (h : Completed i s t u) :
    u.par.bank = s.par.bank ∨ ∃ o, i = .call o ∨ i = .goto o ∨ i = .rtn o := by
  have hpar : t.par = s.par := ht.2.1
  rcases h with ⟨ws, rfl, -⟩ | ⟨n, o, r, ws, -, -, -, rfl⟩ | ⟨o, w, d, t', hi, -, -, -⟩ | ⟨o, v, t', -, hp, rfl⟩ |
    ⟨o, w, d, hi, -, -⟩ | ⟨o, w₀, w₁, d, t', hi, -, -, -⟩ | ⟨o, v, e, -, -, rfl⟩ | ⟨o, v, ssf, -, rfl⟩ |
    ⟨o, v, -, rfl⟩ | ⟨o, v, -, -, rfl⟩
  · exact .inl (by simp [State.setAll_par, hpar])
  · exact .inl (by simp [(store_same t r 0 ws).2, hpar])
  · exact .inr ⟨o, .inl hi⟩
  · exact .inl (by simp [(push_eq_ok hp).2.2.1, hpar])
  · exact .inr ⟨o, .inr (.inl hi)⟩
  · exact .inr ⟨o, .inr (.inr hi)⟩
  · exact .inl (by simp [hpar])
  · exact .inl (by simp [hpar])
  · exact .inl (by simp [hpar])
  · exact .inl (by simp [hpar])

theorem exec_bank {i : Instr} {s u : State} (h : exec i s = .next u) :
    u.par.bank = s.par.bank ∨ ∃ o, i = .call o ∨ i = .goto o ∨ i = .rtn o := by
  rcases exec_cases h with ⟨c, rfl, -⟩ | ⟨t, ht, hc⟩
  · exact .inl rfl
  · exact hc.bank ht

/-! ## What a step does -/

/-- What a step can be (R161), in the words of the claims. -/
inductive StepCase (s : State) : State → Prop
  /-- a processor that does not run -/
  | rests : s.run ≠ .running → StepCase s s
  /-- interrupt entry (R406, R410) -/
  | dispatches (q : InterruptRequest) : s.Dispatches → s.selected = some q → StepCase s (s.dispatch q)
  /-- an instruction -/
  | executes (i : Instr) (t : State) : s.Executes i → exec i s.fetched = .next t → StepCase s t
  /-- a word that is no instruction of the mode (R149) -/
  | undefinedWord (w : Word) : s.Fetches w → StepCase s (s.fetched.enqueue (invalidInstruction 0 w))
  /-- a fetch that fails, but not on a handler's first fetch (R112) -/
  | fetchFaults (c : Cause) : s.selected = none → s.fetchWord = .error (.interrupt c) → s.entry = false →
      StepCase s (s.enqueue c)
  /-- a handler's first fetch fails (R413) -/
  | entryFaults (c : Cause) : s.selected = none → s.fetchWord = .error (.interrupt c) → s.entry = true →
      StepCase s ((s.enqueue c).stop .interruptEntryFault s.enteredClass)

theorem State.fetchFault_of_not_entry {s : State} (c : Cause) (h : s.entry = false) : s.fetchFault c = s.enqueue c := by
  simp [State.fetchFault, h]

theorem State.fetchFault_of_entry {s : State} (c : Cause) (h : s.entry = true) :
    s.fetchFault c = (s.enqueue c).stop .interruptEntryFault s.enteredClass := by
  simp [State.fetchFault, h]

theorem step_of_not_running {s : State} (h : s.run ≠ .running) : step s = .next s := by
  unfold step
  cases hr : s.run with
  | running => exact absurd hr h
  | idle => rfl
  | halted => rfl

theorem step_of_fetchWord_error {s : State} {c : Cause} (hr : s.run = .running) (hs : s.selected = none)
    (hf : s.fetchWord = .error (.interrupt c)) : step s = .next (s.fetchFault c) := by
  simp only [step, hr, cycle, hs, hf]

theorem step_stepCase {s t : State} (h : step s = .next t) : StepCase s t := by
  by_cases hr : s.run = .running
  · rcases step_cases hr h with ⟨q, hq, rfl⟩ | ⟨hs, w, i, hw, hd, he⟩ | ⟨hs, w, hw, rfl⟩ |
      ⟨hs, c, hc, rfl⟩
    · exact .dispatches q ⟨hr, by rw [hq]; rfl⟩ hq
    · exact .executes i t ⟨w, ⟨hr, hs, hw⟩, hd⟩ he
    · exact .undefinedWord w ⟨hr, hs, hw⟩
    · cases he : s.entry with
      | false => exact State.fetchFault_of_not_entry c he ▸ .fetchFaults c hs hc he
      | true => exact State.fetchFault_of_entry c he ▸ .entryFaults c hs hc he
  · rw [step_of_not_running hr] at h
    cases h
    exact .rests hr

/-! ## The designator register -/

/-- Interrupt entry's DR, bit by bit (R410). -/
theorem designatorBit_entryDesignators (dr : Word) (n : Nat) (hn : n < 36) :
    designatorBit (entryDesignators dr) n =
      if n = 17 then true else if 13 ≤ n ∧ n ≤ 16 then false else designatorBit dr n := by
  simp only [entryDesignators, designatorBit_withDesignatorBit, hn, Nat.reduceLT]
  by_cases hin : 13 ≤ n ∧ n ≤ 16
  · obtain rfl | rfl | rfl | rfl : n = 13 ∨ n = 14 ∨ n = 15 ∨ n = 16 := by omega
    all_goals rfl
  · rw [if_neg hin, if_neg (by omega : n ≠ 16), if_neg (by omega : n ≠ 15), if_neg (by omega : n ≠ 14),
      if_neg (by omega : n ≠ 13)]

@[simp] theorem State.dispatch_dr (s : State) (q : InterruptRequest) :
    (s.dispatch q).dr = entryDesignators s.dr := rfl

/-- A step's DR (R32): only interrupt entry, RTN, AAIJ and PAIJ write it. -/
theorem step_dr {s t : State} (h : step s = .next t) :
    t.dr = s.dr ∨ (s.Dispatches ∧ t.dr = entryDesignators s.dr) ∨
      ∃ i, s.Executes i ∧ ((∃ o w, i = .rtn o ∧ t.dr = restoredDesignators s.dr w) ∨
        ∃ e, ((∃ a o, i = .aaijB a o) ∨ ∃ o, i = .aaijE o ∨ i = .paij o) ∧ t.dr = withDesignatorBit s.dr 13 e) := by
  cases step_stepCase h with
  | rests hr => exact .inl rfl
  | dispatches q hd _ => exact .inr (.inl ⟨hd, s.dispatch_dr q⟩)
  | executes i _ hi he => exact (exec_dr he).imp_right fun hw => .inr ⟨i, hi, hw⟩
  | undefinedWord | fetchFaults | entryFaults => exact .inl rfl

/-! ## The host's calls -/

/-- What a host call other than a load can do (R474, R475, R477). -/
theorem hostCall_cases {c : HostCall} {s t : State} (h : hostCall c s = some t) :
    (∃ l, c = .load l ∧ s.load l = some t) ∨ t = s ∨
      t = { s with run := .running, stopReason := .none, stopDetail := 0 } ∨ t = s.stop .halt 0 ∨
      (∃ r, t = s.enqueue r) ∨ ∃ v r, t = s.deliver v r := by
  cases c with
  | load l => exact .inl ⟨l, rfl, h⟩
  | start =>
    simp only [hostCall, State.start, Option.some.injEq] at h
    split at h
    · exact .inr (.inl h.symm)
    · exact .inr (.inr (.inl h.symm))
  | halt =>
    simp only [hostCall, State.hostHalt, Option.some.injEq] at h
    split at h
    · exact .inr (.inr (.inr (.inl h.symm)))
    · exact .inr (.inl h.symm)
  | send sender target =>
    simp only [hostCall, State.hostSend] at h
    split at h
    · exact .inr (.inl (Option.some.inj h).symm)
    · split at h
      · exact .inr (.inr (.inr (.inr (.inl ⟨_, (Option.some.inj h).symm⟩))))
      · split at h
        · exact .inr (.inr (.inr (.inr (.inr ⟨_, _, (Option.some.inj h).symm⟩))))
        · cases h

theorem State.load_dr {s t : State} {l : LoadImage} (h : s.load l = some t) : t.dr = l.initialDr := by
  obtain ⟨-, -, -, rfl⟩ := State.load_eq_some.1 h
  rfl

theorem hostCall_dr {c : HostCall} {s t : State} (h : hostCall c s = some t) :
    t.dr = s.dr ∨ ∃ l, c = .load l ∧ t.dr = l.initialDr := by
  rcases hostCall_cases h with ⟨l, hc, hl⟩ | rfl | rfl | rfl | ⟨r, rfl⟩ | ⟨v, r, rfl⟩
  · exact .inr ⟨l, hc, State.load_dr hl⟩
  all_goals exact .inl rfl

/-- Settles O19: `step_dr` and `hostCall_dr` name the writers, and each writer's DR is known bit by bit. -/
theorem designatorWriters : Obligations.DesignatorWriters := by
  constructor
  · intro s t n h hn hne
    rcases step_dr h with hdr | ⟨hd, hdr⟩ | ⟨i, hi, ⟨o, w, rfl, hdr⟩ | ⟨e, ha, hdr⟩⟩
    · exact absurd (by rw [hdr]) hne
    · rw [hdr, designatorBit_entryDesignators _ _ hn] at hne
      refine .inl ⟨hd, ?_⟩
      by_contra hout
      exact hne (by rw [if_neg (by omega), if_neg (by omega)])
    · rw [hdr, designatorBit_restoredDesignators _ _ _ hn] at hne
      have hin : 12 ≤ n ∧ n ≤ 17 := by
        by_contra hout
        exact hne (if_neg hout)
      exact .inr ⟨_, hi, .inr ⟨hin.1, hin.2, o, rfl⟩⟩
    · rw [hdr, designatorBit_withDesignatorBit _ _ _ (by omega) hn] at hne
      have hin : n = 13 := by
        by_contra hout
        exact hne (if_neg hout)
      exact .inr ⟨i, hi, .inl ⟨hin, ha⟩⟩
  · intro s t c h hne
    exact (hostCall_dr h).resolve_left hne

/-! ## The base registers and the interrupt state -/

/-- Interrupt entry's base registers: B16 in B0 (R410). -/
theorem State.dispatch_base (s : State) (q : InterruptRequest) (k : BaseIndex) :
    (s.dispatch q).base k = if k = 0 then s.base 16 else s.base k :=
  State.base_setBase (s.withoutRequest q) 0 k (s.base 16)

theorem State.Executes.transfer {s : State} {i : Instr} (h : s.Executes i)
    (hi : ∃ o, i = .call o ∨ i = .goto o ∨ i = .rtn o) :
    ∃ o, s.Executes (.call o) ∨ s.Executes (.goto o) ∨ s.Executes (.rtn o) := by
  obtain ⟨o, rfl | rfl | rfl⟩ := hi
  · exact ⟨o, .inl h⟩
  · exact ⟨o, .inr (.inl h)⟩
  · exact ⟨o, .inr (.inr h)⟩

/-- A step changes no base register, or only B0, and that by interrupt entry, CALL, GOTO or RTN (R38). -/
theorem step_base {s t : State} (h : step s = .next t) (k : BaseIndex) :
    t.base k = s.base k ∨
      k = 0 ∧ (s.Dispatches ∨ ∃ o, s.Executes (.call o) ∨ s.Executes (.goto o) ∨ s.Executes (.rtn o)) := by
  cases step_stepCase h with
  | rests hr => exact .inl rfl
  | dispatches q hd _ =>
    by_cases hk : k = 0
    · exact .inr ⟨hk, .inl hd⟩
    · exact .inl (by rw [State.dispatch_base, if_neg hk])
  | executes i _ hi he =>
    exact (exec_base he k).imp_right fun ⟨hk, ht⟩ => ⟨hk, .inr (hi.transfer ht)⟩
  | undefinedWord | fetchFaults | entryFaults => exact .inl rfl

/-- A step keeps PAR.BANK, unless it is interrupt entry, CALL, GOTO or RTN (R30). -/
theorem step_bank {s t : State} (h : step s = .next t) :
    t.par.bank = s.par.bank ∨
      s.Dispatches ∨ ∃ o, s.Executes (.call o) ∨ s.Executes (.goto o) ∨ s.Executes (.rtn o) := by
  cases step_stepCase h with
  | rests hr => exact .inl rfl
  | dispatches q hd _ => exact .inr (.inl hd)
  | executes i _ hi he =>
    exact (exec_bank he).imp_right fun ht => .inr (hi.transfer ht)
  | undefinedWord | fetchFaults | entryFaults => exact .inl rfl

/-- A step writes neither KEY nor the BDT nor a parameter (R39, R316). -/
theorem step_keeps_system {s t : State} (h : step s = .next t) :
    t.key = s.key ∧ t.bdt = s.bdt ∧ t.params = s.params := by
  cases step_stepCase h with
  | executes i _ _ he => exact (exec_keeps_system he).1
  | rests | dispatches | undefinedWord | fetchFaults | entryFaults => exact ⟨rfl, rfl, rfl⟩

/-- Only interrupt entry writes SAVE and lastInterrupt (R41, R42). -/
theorem step_interruptState {s t : State} (h : step s = .next t) :
    (t.save = s.save ∧ t.lastInterrupt = s.lastInterrupt) ∨ s.Dispatches := by
  cases step_stepCase h with
  | dispatches q hd _ => exact .inr hd
  | executes i _ _ he => exact .inl (exec_keeps_system he).2
  | rests | undefinedWord | fetchFaults | entryFaults => exact .inl ⟨rfl, rfl⟩

/-- Settles O20: the writers of each piece of state, from `step_stepCase` and `hostCall_cases`. -/
theorem bankAndControlWriters : Obligations.BankAndControlWriters := by
  constructor
  · intro s t h
    obtain ⟨hkey, hbdt, hparams⟩ := step_keeps_system h
    refine ⟨fun k hk => (step_base h k).resolve_right fun hw => hk hw.1, hkey, hbdt, hparams, ?_, ?_⟩
    · rintro (hb | hp)
      · exact ((step_base h 0).resolve_left hb).2
      · exact (step_bank h).resolve_left hp
    · intro hne
      refine (step_interruptState h).resolve_left fun ⟨hsave, hlast⟩ => ?_
      exact hne.elim (· hsave) (· hlast)
  · intro s t c h hload
    rcases hostCall_cases h with ⟨l, hc, -⟩ | rfl | rfl | rfl | ⟨r, rfl⟩ | ⟨v, r, rfl⟩
    · exact absurd hc (hload l)
    all_goals exact ⟨rfl, rfl, rfl, rfl, rfl, rfl, rfl⟩

/-! ## What stops a processor -/

/-- A step keeps the run state, or is a HALT at PP 0 or a handler's first fetch that fails (R356, R413). -/
theorem step_runState {s t : State} (h : step s = .next t) :
    (t.run = s.run ∧ t.stopReason = s.stopReason ∧ t.stopDetail = s.stopDetail) ∨
      t.run = .halted ∧
        ((t.stopReason = .debug ∧ s.pp = 0 ∧ ∃ o, s.Executes (.halt o)) ∨
          (t.stopReason = .interruptEntryFault ∧ s.entry = true ∧ ∃ c, s.fetchWord = .error (.interrupt c))) := by
  cases step_stepCase h with
  | executes i _ hi he =>
    rcases exec_runState he with hk | ⟨hp, ⟨o, rfl⟩, hrun, hreason⟩
    · exact .inl hk
    · exact .inr ⟨hrun, .inl ⟨hreason, hp, o, hi⟩⟩
  | entryFaults c _ hc he => exact .inr ⟨rfl, .inr ⟨rfl, he, c, hc⟩⟩
  | rests | dispatches | undefinedWord | fetchFaults => exact .inl ⟨rfl, rfl, rfl⟩

/-- Settles O24: `step_of_not_running`, and `step_runState` for a processor that runs. -/
theorem onlyHaltAndEntryFaultsStop : Obligations.OnlyHaltAndEntryFaultsStop := by
  intro s t h
  constructor
  · intro hr
    rw [step_of_not_running hr] at h
    cases h
    rfl
  · intro hr hne
    refine (step_runState h).resolve_left fun ⟨hrun, hreason, hdetail⟩ => ?_
    rcases hne with hne | hne | hne
    · exact hne (hrun.trans hr)
    · exact hne hreason
    · exact hne hdetail

/-- The detail of an entry fault is the class of the request that SAVE holds (R413). -/
theorem State.enteredClass_of_save {s : State} {a : SaveArea} (h : s.save = some a) :
    s.enteredClass = a.request.cause.cls.setWidth 18 := by
  simp [State.enteredClass, h]

/-- Settles O8: the step is `State.fetchFault`, which branches on ENTRY. -/
theorem fetchFaultsQueueOrHalt : Obligations.FetchFaultsQueueOrHalt := by
  intro s c hr hs hf
  refine ⟨fun he => ?_, fun a he ha => ?_⟩
  · rw [step_of_fetchWord_error hr hs hf, State.fetchFault_of_not_entry c he]
  · rw [step_of_fetchWord_error hr hs hf, State.fetchFault_of_entry c he, State.enteredClass_of_save ha]
    rfl

/-! ## Reset values and register aliases -/

@[simp] theorem State.created_base (g : Vector Word 128) (params : Params) (processors : List UpiIndex)
    (k : BaseIndex) : (State.created g params processors).base k = Descriptor.void := by
  simp [State.created, State.base]

/-- The processors that a created one reaches are itself and those of PROCESSORS (R421). -/
theorem State.created_isProcessor (g : Vector Word 128) (params : Params) (processors : List UpiIndex)
    (i : UpiIndex) :
    (State.created g params processors).isProcessor i = true ↔ i = params.upiIndex ∨ i ∈ processors := by
  have hpeers : (State.created g params processors).peers.any (fun p => p.index == i) = true ↔
      i ∈ processors ∧ i ≠ params.upiIndex := by
    rw [← mem_otherProcessors, ← State.created_indices g, List.mem_map, List.any_eq_true]
    simp only [beq_iff_eq]
  have hown : (State.created g params processors).params = params := rfl
  rw [State.isProcessor, Bool.or_eq_true, beq_iff_eq, hpeers, hown]
  by_cases hi : i = params.upiIndex <;> simp [hi]

/-- Settles O13: the fields are as `State.created` gives them, and the indices are those of `otherProcessors`. -/
theorem createdStateHasTheResetValues : Obligations.CreatedStateHasTheResetValues := by
  intro g params processors
  have hmode : designatorMode 0 = .extended := by decide
  have hpp : designatorPP 0 = 0 := by decide
  have hset : designatorBit 0 17 = false := by decide
  refine ⟨fun k => by rw [State.created_base]; rfl, rfl, hmode, hpp, hset, rfl, rfl, rfl, rfl, rfl, rfl, rfl, rfl,
    rfl, rfl, State.created_isProcessor g params processors, ?_⟩
  rw [State.created_indices]
  exact otherProcessors_nodup _ _

/-- A 4-bit number above a register file's first index: no wrap-around where the 16 registers fit. -/
theorem toNat_add_registerNumber (first : GrsIndex) (n : BitVec 4) (h : first.toNat + 16 ≤ 128) :
    (first + n.setWidth 7).toNat = first.toNat + n.toNat := by
  have := n.isLt
  rw [BitVec.toNat_add, BitVec.toNat_setWidth, Nat.mod_eq_of_lt (by omega : n.toNat < 2 ^ 7),
    Nat.mod_eq_of_lt (by omega)]

/-- Settles O25: both sets of each register file lie within the 128 registers. -/
theorem registerAliases : Obligations.RegisterAliases := by
  intro s n k
  unfold State.xIndex State.aIndex State.rIndex State.execSet
  refine ⟨?_, ?_, ?_, by rw [BitVec.toNat_add, BitVec.toNat_ofNat, Nat.add_mod_mod]⟩
  all_goals
    cases designatorBit s.dr 17 <;> exact toNat_add_registerNumber _ n (by decide)

end Sys2Proof.Machine
end

section
/-! PROOFS. Operands, references and storage: the adder and the partial-word codec (R86, R100 to R102), immediates,
indexing and indirection (R91 to R99, R103), the tests of a reference and of a fetch (R96, R97, R104 to R113), and what
follows for whole instructions: their operand faults (R162), where they store (R107, R108, R310), and what they keep
and cannot learn of GRS 0120 to 0177 at PP 2 and 3 (R97). Two facts carry the last part: `Completed.protected_reg` for
what a completion writes, and `exec_alike`, a simulation between states that differ out of sight. -/

namespace Sys2Proof.Machine

/-! ## The adder -/

/-- A ones'-complement value by the number it is read from (R11). -/
theorem value18_eq (v : RelAddr) :
    value18 v = if 2 ^ 17 ≤ v.toNat then (v.toNat : Int) - (2 ^ 18 - 1) else (v.toNat : Int) := by
  rw [value18, BitVec.msb_eq_decide]
  simp only [decide_eq_true_eq]
  split
  · omega
  · rfl

theorem eq_negativeZero_iff (v : RelAddr) : v = 0o777777 ↔ v.toNat = 2 ^ 18 - 1 :=
  BitVec.toNat_inj.symm

/-- The end-around carry, and +0 for every sum of -0 but that of two negative zeros (R86). -/
theorem add18_toNat (a b : RelAddr) :
    (add18 a b).toNat =
      if a.toNat + b.toNat < 2 ^ 18 - 1 then a.toNat + b.toNat
      else if a.toNat + b.toNat = 2 ^ 18 - 1 then 0
      else a.toNat + b.toNat - (2 ^ 18 - 1) := by
  have ha := a.isLt
  have hb := b.isLt
  simp only [add18, eq_negativeZero_iff]
  simp only [apply_ite BitVec.toNat, BitVec.toNat_ofNat, BitVec.ofNat_eq_ofNat]
  split_ifs <;> omega

/-- Settles O26: by cases on the carry and on the signs. -/
theorem add18IsOnesComplementAddition : Obligations.Add18IsOnesComplementAddition := by
  intro a b
  have ha := a.isLt
  have hb := b.isLt
  simp only [eq_negativeZero_iff, value18_eq, add18_toNat]
  refine ⟨?_, ?_, ?_⟩
  · split_ifs <;> omega
  · split_ifs <;> omega
  · split
    · omega
    · split <;> omega

/-! ## The partial-word codec -/

/-- Every field lies within the word. -/
theorem WordField.bounds (d : WordField) : 0 < d.width ∧ d.lo + d.width ≤ 36 := by
  cases d <;> decide

theorem getLsbD_extractField (w : Word) (d : WordField) (k : Nat) (hk : k < 36) :
    (extractField w d).getLsbD k =
      if k < d.width then w.getLsbD (d.lo + k) else d.signed && w.getLsbD (d.lo + d.width - 1) := by
  obtain ⟨hpos, -⟩ := d.bounds
  have hlast : d.lo + (d.width - 1) = d.lo + d.width - 1 := by omega
  unfold extractField
  cases d.signed with
  | true =>
    simp only [if_true, BitVec.getLsbD_signExtend, hk, decide_true, Bool.true_and, BitVec.getLsbD_extractLsb',
      BitVec.msb_eq_getLsbD_last]
    split
    · next h => simp [h]
    · simp [hpos, hlast]
  | false =>
    simp only [Bool.false_eq_true, if_false, BitVec.getLsbD_setWidth, hk, decide_true, Bool.true_and,
      BitVec.getLsbD_extractLsb', Bool.false_and]
    split <;> simp_all

/-- Settles O27: the two tables of R100 by evaluation, the bits by `getLsbD_extractField`. -/
theorem extractFieldBits : Obligations.ExtractFieldBits :=
  ⟨by decide, getLsbD_extractField⟩

theorem WordField.getLsbD_mask (d : WordField) (k : Nat) :
    d.mask.getLsbD k = decide (d.lo ≤ k ∧ k < d.lo + d.width) := by
  obtain ⟨-, hle⟩ := d.bounds
  rw [WordField.mask, BitVec.getLsbD_ofNat, Nat.testBit_mul_two_pow, Nat.testBit_two_pow_sub_one,
    ← Bool.decide_and, ← Bool.decide_and]
  exact decide_eq_decide.2 (by omega)

theorem getLsbD_insertField (w v : Word) (d : WordField) (k : Nat) (hk : k < 36) :
    (insertField w d v).getLsbD k =
      if d.lo ≤ k ∧ k < d.lo + d.width then v.getLsbD (k - d.lo) else w.getLsbD k := by
  simp only [insertField, BitVec.getLsbD_or, BitVec.getLsbD_and, BitVec.getLsbD_not, BitVec.getLsbD_shiftLeft,
    WordField.getLsbD_mask, hk, decide_true, Bool.true_and]
  split
  · next h => simp [h]
  · next h => simp [h]

/-- What was in a field, inserted again, changes nothing. -/
theorem insertField_extractField (w : Word) (d : WordField) : insertField w d (extractField w d) = w := by
  refine BitVec.eq_of_getLsbD_eq fun k hk => ?_
  rw [getLsbD_insertField _ _ _ _ hk]
  split
  · next h => rw [getLsbD_extractField _ _ _ (by omega), if_pos (by omega), Nat.add_sub_cancel' h.1]
  · rfl

/-- Settles O28: bit by bit; XH1 and H1, and XH2 and H2, hold the same bits. -/
theorem insertFieldBits : Obligations.InsertFieldBits := by
  intro w v d
  refine ⟨getLsbD_insertField w v d, insertField_extractField w d, ?_, rfl, rfl⟩
  refine BitVec.eq_of_getLsbD_eq fun k hk => ?_
  rw [getLsbD_insertField _ _ _ _ hk]
  exact if_pos ⟨Nat.zero_le k, by simpa [WordField.lo, WordField.width] using hk⟩

/-! ## Immediates and indexing -/

/-- Bits 17:0 of an instruction word, as a number (R103). -/
theorem low18_toNat (o : Operand) :
    (BitVec.ofBool o.h ++ BitVec.ofBool o.i ++ o.u : BitVec (1 + 1 + 16)).toNat =
      (if o.h then 2 ^ 17 else 0) + (if o.i then 2 ^ 16 else 0) + o.u.toNat := by
  rw [toNat_append_add, toNat_append_add]
  cases o.h <;> cases o.i <;> simp

/-- Settles O29: without an index register the operand is `low18_toNat`, else `index_of_ne_zero` gives it. -/
theorem immediateOperands : Obligations.ImmediateOperands := by
  intro o s
  by_cases hx : o.x = 0
  · refine ⟨(BitVec.ofBool o.h ++ BitVec.ofBool o.i ++ o.u : BitVec (1 + 1 + 16)), s,
      fun _ => ⟨low18_toNat o, rfl⟩, fun h => absurd hx h, ?_, ?_⟩
    all_goals
      simp only [readOperand, immediate, if_pos hx]
      rfl
  · obtain ⟨t, hindex, hfrom, hother, -, hlow⟩ := index_of_ne_zero o.x o.h (o.u.setWidth 18) s hx
    refine ⟨_, t, fun h => absurd h hx, fun _ => ⟨rfl, hfrom, hother, hlow⟩, ?_, ?_⟩
    all_goals
      simp only [readOperand, immediate, if_neg hx, hindex]
      rfl

/-- An operand without the i bit ends the loop of R98 at once. -/
theorem chase_of_direct (n : Nat) {o : Operand} (s : State) (h : o.i = false) :
    chase n o s = .ok (index o.x o.h (o.u.setWidth 18) s) := by
  cases n with
  | zero => rfl
  | succ n => simp [chase, h]

/-- An address that is not indirect is its displacement, indexed (R91, R98). -/
theorem resolveAddress_of_direct {o : Operand} {s : State} {d : RelAddr}
    (h : (s.mode = .extended ∧ d = o.d.setWidth 18) ∨ (s.mode = .basic ∧ o.i = false ∧ d = o.u.setWidth 18)) :
    resolveAddress o s = .ok (index o.x o.h d s) := by
  unfold resolveAddress
  rcases h with ⟨hm, rfl⟩ | ⟨hm, hi, rfl⟩
  · rw [hm]
  · rw [hm]
    exact chase_of_direct _ s hi

/-- Settles O30: `resolveAddress_of_direct`, then indexing. -/
theorem indexingAndAutoIncrement : Obligations.IndexingAndAutoIncrement := by
  intro o s d hd
  rw [resolveAddress_of_direct hd]
  refine ⟨fun hx => by simp [index, hx], fun hx => ?_⟩
  obtain ⟨t, hindex, hrest⟩ := index_of_ne_zero o.x o.h d s hx
  exact ⟨t, congrArg Except.ok hindex, hrest⟩

/-! ## References -/

theorem State.inWindow_iff {s : State} {o : Operand} {u : RelAddr} :
    s.inWindow o u = true ↔ u.toNat ≤ 0o177 ∧ (s.mode = .basic ∨ o.b = 0) := by
  simp only [State.inWindow, Bool.and_eq_true, Bool.or_eq_true, decide_eq_true_eq, beq_iff_eq]
  rfl

/-- The privilege test passes at PP 0 and 1, and where every register is below 0120 (R97). -/
theorem State.firstForbidden_eq_none {s : State} {is : List GrsIndex} :
    s.firstForbidden is = none ↔ s.pp.toNat < 2 ∨ ∀ i ∈ is, i.toNat < 0o120 := by
  unfold State.firstForbidden
  split
  · next h =>
    rw [List.find?_eq_none, or_iff_right (by omega)]
    simp only [decide_eq_true_eq, Nat.not_le]
    rfl
  · next h => simp [Nat.not_le.1 h]

theorem State.firstForbidden_eq_some {s : State} {is : List GrsIndex} {i : GrsIndex}
    (h : s.firstForbidden is = some i) : i ∈ is ∧ 0o120 ≤ i.toNat := by
  unfold State.firstForbidden at h
  split at h
  · exact ⟨List.mem_of_find?_eq_some h, of_decide_eq_true (List.find?_some h :)⟩
  · cases h

/-- The successors of a register by number, modulo 128 (R96, R214). -/
theorem toNat_register_add (g : GrsIndex) (k : Nat) : (g + BitVec.ofNat 7 k).toNat = (g.toNat + k) % 128 := by
  rw [BitVec.toNat_add, BitVec.toNat_ofNat, Nat.add_mod_mod]

/-- The registers of a window reference by number (R96). -/
theorem toNat_windowRegister (u : RelAddr) (k : Nat) :
    ((u.setWidth 7 : GrsIndex) + BitVec.ofNat 7 k).toNat = (u.toNat + k) % 128 := by
  rw [toNat_register_add, BitVec.toNat_setWidth, Nat.mod_add_mod]

theorem zext36_eq_ofNat (u : RelAddr) : zext36 u = BitVec.ofNat 36 u.toNat := (BitVec.ofNat_toNat 36 u).symm

section
variable {s : State} {kind : Access} {n : Nat} {o : Operand} {u : RelAddr}

/-- A window reference to a register that is not allowed (R97). -/
theorem reference_forbidden {i : GrsIndex} (hw : s.inWindow o u = true)
    (hi : s.firstForbidden (grsRange (u.setWidth 7) n) = some i) :
    s.reference kind n o u = .error (.interrupt ⟨8, 5, i.setWidth 36, 0⟩) := by
  rw [State.reference, if_pos hw, grsPrivilege_eq_error.2 ⟨i, hi, rfl⟩]
  rfl

/-- A storage reference that no Basic-mode bank qualifies for (R104). -/
theorem reference_of_noBase (hw : s.inWindow o u = false) (hk : s.selectBase o u = none) :
    s.reference kind n o u = .error (.interrupt ⟨8, 1, zext36 u, 0⟩) := by
  simp only [State.reference, hw, hk, Bool.false_eq_true, if_false]
  rfl

/-- A storage reference outside its bank's limits (R107). -/
theorem reference_of_limitFailure {k : BaseIndex} {a : Nat} (hw : s.inWindow o u = false)
    (hk : s.selectBase o u = some k) (hl : (s.base k).limitFailure u n = some a) :
    s.reference kind n o u = .error (.interrupt ⟨8, 1, BitVec.ofNat 36 a, k.setWidth 36⟩) := by
  simp only [State.reference, hw, hk, hl, Bool.false_eq_true, if_false]
  rfl

/-- A storage reference that the lock does not permit (R108). -/
theorem reference_of_lockFailure {k : BaseIndex} {ssf : BitVec 6} (hw : s.inWindow o u = false)
    (hk : s.selectBase o u = some k) (hl : (s.base k).limitFailure u n = none)
    (hlock : s.lockFailure (s.base k) kind = some ssf) :
    s.reference kind n o u = .error (.interrupt ⟨8, ssf, zext36 u, k.setWidth 36⟩) := by
  simp only [State.reference, hw, hk, hl, hlock, Bool.false_eq_true, if_false]
  rfl

end

/-- Settles O32: `State.firstForbidden` decides, over the registers of `toNat_windowRegister`. -/
theorem grsWindowReferences : Obligations.GrsWindowReferences := by
  intro s kind n o u hu hb
  have hw : s.inWindow o u = true := State.inWindow_iff.2 ⟨hu, hb⟩
  have forbidden (hpp : 2 ≤ s.pp.toNat) (h : ∃ k : Nat, k < n ∧ 0o120 ≤ (u.toNat + k) % 128) :
      ∃ k : Nat, k < n ∧ 0o120 ≤ (u.toNat + k) % 128 ∧
        s.reference kind n o u = .error (.interrupt ⟨8, 5, BitVec.ofNat 36 ((u.toNat + k) % 128), 0⟩) := by
    obtain ⟨k, hk, hge⟩ := h
    cases hf : s.firstForbidden (grsRange (u.setWidth 7) n) with
    | none =>
      have := (State.firstForbidden_eq_none.1 hf).resolve_left (by omega) _ (mem_grsRange.2 ⟨k, hk, rfl⟩)
      rw [toNat_windowRegister] at this
      omega
    | some i =>
      obtain ⟨hi, hge⟩ := State.firstForbidden_eq_some hf
      obtain ⟨m, hm, rfl⟩ := mem_grsRange.1 hi
      rw [toNat_windowRegister] at hge
      refine ⟨m, hm, hge, ?_⟩
      rw [reference_forbidden hw hf, ← toNat_windowRegister, BitVec.ofNat_toNat]
  refine ⟨fun h => ?_, fun hpp hn hge => ?_, forbidden⟩
  · refine reference_eq_ok.2 (.inl ⟨hw, State.firstForbidden_eq_none.2 (h.imp_right fun h i hi => ?_), rfl⟩)
    obtain ⟨m, hm, rfl⟩ := mem_grsRange.1 hi
    rw [toNat_windowRegister]
    exact h m hm
  · obtain ⟨k, hk, -, he⟩ := forbidden hpp ⟨0, by omega, by omega⟩
    obtain rfl : k = 0 := by omega
    rw [he, Nat.add_zero, Nat.mod_eq_of_lt (by omega), zext36_eq_ofNat]

/-- The base register that the claims name is the one selected (R104, R105). -/
theorem State.selectBase_of_claim {s : State} {o : Operand} {u : RelAddr} {k : BaseIndex}
    (h : (s.mode = .basic ∧ s.SearchTakes u k) ∨
      (s.mode = .extended ∧ k.toNat = o.b.toNat +
        if (s.params.extBaseSelect = .db17 ∧ designatorBit s.dr 17 = true) ∨
          (s.params.extBaseSelect = .iAndPp ∧ o.i = true ∧ s.pp.toNat < 2) then 16 else 0)) :
    s.selectBase o u = some k := by
  rcases h with ⟨hm, hk⟩ | ⟨hm, hk⟩
  · rw [State.selectBase, hm]
    exact State.searchTakes_iff.1 hk
  · rw [State.selectBase, hm]
    refine congrArg some (BitVec.eq_of_toNat_eq ?_)
    have hb := o.b.isLt
    rw [hk, State.extendedBase, BitVec.toNat_add, BitVec.toNat_setWidth, State.execSet]
    cases s.params.extBaseSelect <;> simp [apply_ite BitVec.toNat] <;> split <;> omega

/-- The limit test reports the first address that is not in the bank (R107, R109). -/
theorem Descriptor.limitFailure_of_first {d : Descriptor} {u : RelAddr} {n m : Nat} (hm : m < n)
    (hout : ¬d.Holds (u.toNat + m)) (hin : ∀ m' : Nat, m' < m → d.Holds (u.toNat + m')) :
    d.limitFailure u n = some (u.toNat + m) := by
  unfold Descriptor.limitFailure
  cases m with
  | zero =>
    have hc : d.covers u = false := by
      rw [← Bool.not_eq_true, Descriptor.covers_iff]
      exact hout
    simp [hc]
  | succ m =>
    obtain ⟨hv, h₁, h₂⟩ := hin m (by omega)
    obtain ⟨-, hl, -⟩ := hin 0 (by omega)
    have hc : d.covers u = true := Descriptor.covers_iff.2 ⟨hv, hl, by omega⟩
    have hlast : d.upper.toNat = u.toNat + m := by
      by_contra hne
      exact hout ⟨hv, by omega, by omega⟩
    rw [hc, if_neg (by simp), if_pos (by omega), hlast]
    rfl

theorem Descriptor.limitFailure_of_holds {d : Descriptor} {u : RelAddr} {n : Nat} (hn : 0 < n)
    (h : ∀ m : Nat, m < n → d.Holds (u.toNat + m)) : d.limitFailure u n = none := by
  obtain ⟨-, -, hlast⟩ := h (n - 1) (by omega)
  exact Descriptor.limitFailure_eq_none.2 ⟨Descriptor.covers_iff.2 (h 0 hn), by omega⟩

/-- Settles O33: one equation of `State.reference` for each test. -/
theorem storageReferenceTests : Obligations.StorageReferenceTests := by
  intro s kind n o u hn hout
  have hw : s.inWindow o u = false := by rwa [← Bool.not_eq_true, State.inWindow_iff]
  refine ⟨fun k p hk hp => ?_, fun hm hnone => ?_⟩
  · have hsel := State.selectBase_of_claim hk
    obtain rfl := hp.eq_permissions
    refine ⟨fun m hm hfail hbefore => ?_, fun hin => ?_⟩
    · exact reference_of_limitFailure hw hsel (Descriptor.limitFailure_of_first hm hfail hbefore)
    · have hl := Descriptor.limitFailure_of_holds hn hin
      refine ⟨?_, ?_, fun hgranted => ⟨?_, fun m => rfl⟩⟩
      · rintro rfl hr
        exact reference_of_lockFailure hw hsel hl (by simp [State.lockFailure, hr])
      · rintro rfl hr
        exact reference_of_lockFailure hw hsel hl (by simp [State.lockFailure, hr])
      · refine reference_eq_ok.2 (.inr ⟨hw, k, hsel, hl, ?_, rfl⟩)
        rcases hgranted with rfl | ⟨rfl, hr⟩ | ⟨rfl, hr⟩
        · rfl
        · simp [State.lockFailure, hr]
        · simp [State.lockFailure, hr]
  · refine reference_of_noBase hw ?_
    rw [State.selectBase, hm]
    exact State.basicBase_eq_none.1 hnone

/-! ## The indirect chain -/

/-- A reference of one word that fails raises class 8 with its address in ISW0 (R97, R104, R107, R108). -/
theorem reference_one_eq_error {s : State} {kind : Access} {o : Operand} {u : RelAddr} {c : Cause}
    (h : s.reference kind 1 o u = .error (.interrupt c)) : c.cls = 8 ∧ c.isw0 = zext36 u := by
  have raised {c' : Cause} (h' : s.reference kind 1 o u = .error (.interrupt c')) : c = c' := by
    rw [h] at h'
    cases h'
    rfl
  cases hw : s.inWindow o u with
  | true =>
    cases hf : s.firstForbidden (grsRange (u.setWidth 7) 1) with
    | none =>
      rw [reference_eq_ok.2 (.inl ⟨hw, hf, rfl⟩)] at h
      cases h
    | some i =>
      obtain ⟨m, hm, rfl⟩ := mem_grsRange.1 (State.firstForbidden_eq_some hf).1
      obtain rfl : m = 0 := by omega
      obtain ⟨hu, -⟩ := State.inWindow_iff.1 hw
      rw [raised (reference_forbidden hw hf)]
      refine ⟨rfl, BitVec.eq_of_toNat_eq ?_⟩
      rw [BitVec.toNat_setWidth, toNat_windowRegister, zext36, BitVec.toNat_setWidth]
      omega
  | false =>
    cases hk : s.selectBase o u with
    | none =>
      rw [raised (reference_of_noBase hw hk)]
      exact ⟨rfl, rfl⟩
    | some k =>
      cases hl : (s.base k).limitFailure u 1 with
      | some a =>
        have ha : a = u.toNat := by
          unfold Descriptor.limitFailure at hl
          split at hl
          · exact (Option.some.inj hl).symm
          · next hc =>
            rw [Bool.not_eq_true, Bool.not_eq_false', Descriptor.covers_eq_true] at hc
            obtain ⟨-, -, hu⟩ := hc
            rw [if_neg (by omega)] at hl
            cases hl
        rw [raised (reference_of_limitFailure hw hk hl), ha]
        exact ⟨rfl, (zext36_eq_ofNat u).symm⟩
      | none =>
        cases hlock : s.lockFailure (s.base k) kind with
        | some ssf =>
          rw [raised (reference_of_lockFailure hw hk hl hlock)]
          exact ⟨rfl, rfl⟩
        | none =>
          rw [reference_eq_ok.2 (.inr ⟨hw, k, hk, hl, hlock, rfl⟩)] at h
          cases h

/-- An indirect word is read where its reference passes its tests and exists (R99). -/
theorem indirectRead_eq_ok {s : State} {o : Operand} {u : RelAddr} {w : Word} :
    s.indirectRead o u = .ok w ↔
      ∃ r, s.reference .read 1 o u = .ok r ∧ s.HasStorage r 1 ∧ w = s.wordAt r 0 := by
  unfold State.indirectRead
  rw [Attempt.bind_eq_ok]
  refine exists_congr fun r => and_congr_right fun _ => ⟨hasStorage_of_readRef, ?_⟩
  rintro ⟨hr, rfl⟩
  exact readRef_wordAt hr Nat.one_pos

/-- The read of an indirect word raises what its reference does. -/
theorem indirectRead_eq_interrupt {s : State} {o : Operand} {u : RelAddr} {c : Cause} :
    s.indirectRead o u = .error (.interrupt c) ↔ s.reference .read 1 o u = .error (.interrupt c) := by
  unfold State.indirectRead
  rw [Attempt.bind_eq_error]
  refine or_iff_left ?_
  rintro ⟨r, -, h⟩
  obtain ⟨a, -, ha⟩ := readRef_eq_error h
  cases ha

/-- One indirect level of R98's loop. -/
theorem chase_of_indirect {n : Nat} {o : Operand} {s t : State} {u : RelAddr} (hi : o.i = true)
    (h : index o.x o.h (o.u.setWidth 18) s = (u, t)) :
    chase (n + 1) o s = t.indirectRead o u >>= fun w => chase n (operandOf w) t := by
  simp only [chase, h, hi, if_true]
  cases t.indirectRead o u <;> rfl

theorem chase_eq_ok {n : Nat} {o : Operand} {s t : State} {u : RelAddr} :
    chase n o s = .ok (u, t) ↔ Chain n o s u t := by
  constructor
  · intro h
    induction n generalizing o s with
    | zero => exact .limit o s t u (Except.ok.inj h)
    | succ n ih =>
      cases hi : o.i with
      | false => exact .last _ o s t u hi (Except.ok.inj ((chase_of_direct _ s hi).symm.trans h))
      | true =>
        rw [chase_of_indirect hi (Prod.eta _).symm] at h
        obtain ⟨w, hw, h⟩ := Attempt.bind_eq_ok.1 h
        obtain ⟨r, hr, hs, rfl⟩ := indirectRead_eq_ok.1 hw
        exact .link n o s _ t _ u r hi (Prod.eta _).symm hr hs (ih h)
  · intro h
    induction h with
    | last n o s t u hi hindex => rw [chase_of_direct n s hi, hindex]
    | limit o s t u hindex => exact congrArg Except.ok hindex
    | link n o s t t' u u' r hi hindex hr hs _ ih =>
      rw [chase_of_indirect hi hindex, indirectRead_eq_ok.2 ⟨r, hr, hs, rfl⟩]
      exact ih

theorem chase_eq_interrupt {n : Nat} {o : Operand} {s : State} {c : Cause} :
    chase n o s = .error (.interrupt c) ↔ ∃ u, ChainFaults n o s u c := by
  constructor
  · intro h
    induction n generalizing o s with
    | zero => cases h
    | succ n ih =>
      cases hi : o.i with
      | false =>
        rw [chase_of_direct _ s hi] at h
        cases h
      | true =>
        rw [chase_of_indirect hi (Prod.eta _).symm] at h
        rcases Attempt.bind_eq_error.1 h with h | ⟨w, hw, h⟩
        · exact ⟨_, .here n o s _ _ c hi (Prod.eta _).symm (indirectRead_eq_interrupt.1 h)⟩
        · obtain ⟨r, hr, hs, rfl⟩ := indirectRead_eq_ok.1 hw
          obtain ⟨u, hu⟩ := ih h
          exact ⟨u, .link n o s _ _ u r c hi (Prod.eta _).symm hr hs hu⟩
  · rintro ⟨u, h⟩
    induction h with
    | here n o s t u c hi hindex hr =>
      rw [chase_of_indirect hi hindex, indirectRead_eq_interrupt.2 hr]
      rfl
    | link n o s t u u' r c hi hindex hr hs _ ih =>
      rw [chase_of_indirect hi hindex, indirectRead_eq_ok.2 ⟨r, hr, hs, rfl⟩]
      exact ih

theorem ChainFaults.cause {n : Nat} {o : Operand} {s : State} {u : RelAddr} {c : Cause} (h : ChainFaults n o s u c) :
    c.cls = 8 ∧ c.isw0 = zext36 u := by
  induction h with
  | here n o s t u c hi hindex hr => exact reference_one_eq_error hr
  | link n o s t u u' r c hi hindex hr hs _ ih => exact ih

/-- Settles O31: `chase` is the chain, and the violation is that of a one-word reference. -/
theorem basicResolutionFollowsTheChain : Obligations.BasicResolutionFollowsTheChain := by
  intro o s hm
  have hchase : resolveAddress o s = chase s.params.maxIndirect o s := by rw [resolveAddress, hm]
  rw [hchase]
  exact ⟨fun t u => chase_eq_ok, fun c => chase_eq_interrupt, fun u c h => h.cause⟩

/-! ## Operands -/

theorem readFullWord_of_resolve_error {o : Operand} {s : State} {e : Abort} (h : resolve .read 1 o s = .error e) :
    readFullWord o s = .error e := by
  rw [readFullWord, h]
  rfl

theorem readDoubleWord_of_resolve_error {o : Operand} {s : State} {e : Abort} (h : resolve .read 2 o s = .error e) :
    readDoubleWord o s = .error e := by
  rw [readDoubleWord, h]
  rfl

theorem namesStorageField_of_ne {j : BitVec 4} (h₁ : j ≠ 0o16) (h₂ : j ≠ 0o17) : namesStorageField j = true := by
  simp only [namesStorageField, Bool.and_eq_true, bne_iff_ne]
  exact ⟨h₁, h₂⟩

/-- Settles O34: a resolution is a sequence of two parts, and a field is read from the word at its reference. -/
theorem operandsAreFieldsOfTheWord : Obligations.OperandsAreFieldsOfTheWord := by
  refine ⟨fun kind n o s => ⟨fun r t => resolve_eq_ok, fun e => resolve_eq_error⟩, fun j o s h₁ h₂ => ?_⟩
  unfold readOperand
  rw [if_pos (namesStorageField_of_ne h₁ h₂)]
  refine ⟨fun t r hs h => ?_, fun e h => ?_⟩
  · have hr := resolve_eq_ok.2 h
    have hq : t.quarterMode = designatorBit s.dr 32 := (resolve_indexedFrom hr).1.quarterMode
    rw [readFullWord_wordAt hr hs, ← hq]
    rfl
  · rw [readFullWord_of_resolve_error h]
    rfl

/-! ## Instruction fetch -/

/-- A fetch that finds no bank (R110, R111). -/
theorem State.fetchWord_of_noBase {s : State} (h : s.fetchBase = none) :
    s.fetchWord = .error (.interrupt ⟨8, 0o41, zext36 s.par.pc, 0⟩) := by
  rw [State.fetchWord, h]
  rfl

/-- A fetch from the bank of `k` (R112). -/
theorem State.fetchWord_of_base {s : State} {k : BaseIndex} (h : s.fetchBase = some k) :
    s.fetchWord =
      if (s.permissions (s.base k)).execute then s.memRead (s.absolute k s.par.pc 0)
      else .error (.interrupt ⟨8, 0o44, zext36 s.par.pc, k.setWidth 36⟩) := by
  rw [State.fetchWord, h]
  rfl

/-- Settles O7: the register that R110 and R111 name is `State.fetchBase`. -/
theorem fetchReadsTheInstructionBank : Obligations.FetchReadsTheInstructionBank := by
  intro s
  refine ⟨fun k p hk hp => ?_, fun hnone => s.fetchWord_of_noBase ?_⟩
  · have hbase : s.fetchBase = some k := by
      unfold State.fetchBase
      rcases hk with ⟨hm, rfl, hin⟩ | ⟨hm, hk⟩
      · rw [hm]
        exact if_pos (Descriptor.covers_iff.2 hin)
      · rw [hm]
        exact State.searchTakes_iff.1 hk
    rw [State.fetchWord_of_base hbase, ← hp.eq_permissions]
    refine ⟨fun hx => by simp [hx], fun hx hlt => ?_⟩
    rw [if_pos hx]
    exact State.memRead_eq_ok.2 ⟨hlt, rfl⟩
  · unfold State.fetchBase
    rcases hnone with ⟨hm, hout⟩ | ⟨hm, hout⟩
    · rw [hm]
      exact if_neg fun hc => hout (Descriptor.covers_iff.1 hc)
    · rw [hm]
      exact State.basicBase_eq_none.1 hout

/-! ## Operand faults of instructions -/

theorem Attempt.bind_of_error {α β : Type} {x : Attempt α} {f : α → Attempt β} {e : Abort} (h : x = .error e) :
    (x >>= f) = .error e := by
  rw [h]
  rfl

theorem Attempt.bind_of_ok {α β : Type} {x : Attempt α} {f : α → Attempt β} {a : α} {y : Attempt β} (h : x = .ok a)
    (hf : f a = y) : (x >>= f) = y := by
  rw [h]
  exact hf

/-- An instruction whose attempt ends with a cause is abandoned with it (R162). -/
theorem abandons_of_error {i : Instr} {s : State} {x : Attempt State} {c : Cause} (hi : exec i s = conclude s x)
    (hx : x = .error (.interrupt c)) : Abandons i s c := by
  rw [Abandons, hi, hx, conclude_interrupt]

theorem storeOperand_of_resolve_error {iw : Word} {j : BitVec 4} {o : Operand} {s : State} {v : State → Word}
    {e : Abort} (hj : namesStorageField j = true) (h : resolve .write 1 o s = .error e) :
    storeOperand iw j o s v = .error e :=
  Attempt.bind_of_ok (requireField_eq_ok.2 hj) (Attempt.bind_of_error h)

section
variable {j a : BitVec 4} {o : Operand} {s : State} {c : Cause}

theorem loads_abandon (h : readOperand j o s = .error (.interrupt c)) :
    ∀ i ∈ [Instr.la j a o, .lna j a o, .lma j a o, .lnma j a o, .lr j a o, .lx j a o, .lxm j a o, .lxi j a o,
      .orA j a o, .xorA j a o, .andA j a o, .mlu j a o], Abandons i s c := by
  intro i hi
  simp only [List.mem_cons, List.not_mem_nil, or_false] at hi
  rcases hi with rfl | rfl | rfl | rfl | rfl | rfl | rfl | rfl | rfl | rfl | rfl | rfl
  all_goals exact abandons_of_error rfl (loadOperand_eq_error.2 h)

theorem stores_abandon (hj : namesStorageField j = true) (h : resolve .write 1 o s = .error (.interrupt c)) :
    ∀ i ∈ [Instr.sa j a o, .sna j a o, .sma j a o, .sr j a o, .sx j a o, .sz j o, .snz j o, .sp1 j o, .sn1 j o,
      .sfs j o, .sfz j o, .sas j o, .saz j o], Abandons i s c := by
  intro i hi
  simp only [List.mem_cons, List.not_mem_nil, or_false] at hi
  rcases hi with rfl | rfl | rfl | rfl | rfl | rfl | rfl | rfl | rfl | rfl | rfl | rfl | rfl
  all_goals exact abandons_of_error rfl (storeOperand_of_resolve_error hj h)

/-- The instructions whose operand is an address, without a reference (R95). -/
theorem addressed_abandon (h : resolveAddress o s = .error (.interrupt c)) :
    ∀ i ∈ [Instr.ssc a o, .dsc a o, .ssl a o, .dsl a o, .ssa a o, .dsa a o, .lssc a o, .ldsc a o, .lssl a o,
      .ldsl a o, .er a o, .sgnl o, .send o, .locl o], Abandons i s c := by
  intro i hi
  simp only [List.mem_cons, List.not_mem_nil, or_false] at hi
  rcases hi with rfl | rfl | rfl | rfl | rfl | rfl | rfl | rfl | rfl | rfl | rfl | rfl | rfl | rfl
  all_goals exact abandons_of_error rfl (Attempt.bind_of_error h)

theorem privileged_abandon (h : resolveAddress o s = .error (.interrupt c)) (hpp : s.pp = 0) :
    ∀ i ∈ [Instr.aaijB a o, .aaijE o, .paij o, .halt o], Abandons i s c := by
  intro i hi
  simp only [List.mem_cons, List.not_mem_nil, or_false] at hi
  rcases hi with rfl | rfl | rfl | rfl
  all_goals exact abandons_of_error rfl (Attempt.bind_of_ok (requirePrivilege_eq_ok.2 hpp) (Attempt.bind_of_error h))

theorem length_registerSet (d : Word) :
    (registerSet d).length = (d.extractLsb' 9 7).toNat + (d.extractLsb' 27 7).toNat := by
  simp [registerSet, grsRange]

/-- The privilege test of LRS and SRS, in the words of the claim. -/
theorem firstForbidden_registerSet {d : Word}
    (h : s.pp.toNat < 2 ∨
      ((∀ m : Nat, m < (d.extractLsb' 9 7).toNat → ((d.extractLsb' 0 7).toNat + m) % 128 < 0o120) ∧
        ∀ m : Nat, m < (d.extractLsb' 27 7).toNat → ((d.extractLsb' 18 7).toNat + m) % 128 < 0o120)) :
    s.firstForbidden (registerSet d) = none := by
  refine State.firstForbidden_eq_none.2 (h.imp_right fun ⟨h₁, h₂⟩ i hi => ?_)
  rcases List.mem_append.1 hi with hi | hi
  · obtain ⟨m, hm, rfl⟩ := mem_grsRange.1 hi
    exact (toNat_register_add _ m).trans_lt (h₁ m hm)
  · obtain ⟨m, hm, rfl⟩ := mem_grsRange.1 hi
    exact (toNat_register_add _ m).trans_lt (h₂ m hm)

theorem lrs_abandons (hne : registerSet (s.reg (s.aIndex a)) ≠ [])
    (hp : s.firstForbidden (registerSet (s.reg (s.aIndex a))) = none)
    (h : resolve .read (registerSet (s.reg (s.aIndex a))).length o s = .error (.interrupt c)) :
    Abandons (.lrs a o) s c :=
  abandons_of_error rfl
    ((if_neg hne).trans (Attempt.bind_of_ok (grsPrivilege_eq_ok.2 hp) (Attempt.bind_of_error h)))

theorem srs_abandons (hne : registerSet (s.reg (s.aIndex a)) ≠ [])
    (hp : s.firstForbidden (registerSet (s.reg (s.aIndex a))) = none)
    (h : resolve .write (registerSet (s.reg (s.aIndex a))).length o s = .error (.interrupt c)) :
    Abandons (.srs a o) s c :=
  abandons_of_error rfl
    ((if_neg hne).trans (Attempt.bind_of_ok (grsPrivilege_eq_ok.2 hp) (Attempt.bind_of_error h)))

end

/-- Settles O57: each instruction is a sequence whose first part that can fail is its operand's resolution. -/
theorem operandFaultsAbandon : Obligations.OperandFaultsAbandon := by
  intro j a o s c
  refine ⟨loads_abandon, fun h h₁ h₂ => stores_abandon (namesStorageField_of_ne h₁ h₂) h, fun h => ?_, fun h hx => ?_,
    fun h => ?_, fun h => ?_, fun h => ?_, addressed_abandon, privileged_abandon, ?_⟩
  · have hread := readFullWord_of_resolve_error h
    exact ⟨abandons_of_error rfl (Attempt.bind_of_error hread), abandons_of_error rfl (Attempt.bind_of_error hread),
      abandons_of_error rfl (Attempt.bind_of_error hread), fun hx => abandons_of_error rfl
        (Attempt.bind_of_ok (requireIndex_eq_ok.2 hx) (Attempt.bind_of_error hread))⟩
  · exact abandons_of_error rfl (Attempt.bind_of_ok (requireIndex_eq_ok.2 hx) (Attempt.bind_of_error h))
  · have hread := readDoubleWord_of_resolve_error h
    exact ⟨abandons_of_error rfl (Attempt.bind_of_error hread), abandons_of_error rfl (Attempt.bind_of_error hread)⟩
  · exact abandons_of_error rfl (Attempt.bind_of_error h)
  · exact ⟨abandons_of_error rfl (Attempt.bind_of_error h), abandons_of_error rfl (Attempt.bind_of_error h)⟩
  · intro d c1 c2 hpos hallowed
    have hlen : (registerSet d).length = c1 + c2 := length_registerSet d
    have hne : registerSet d ≠ [] := List.ne_nil_of_length_pos (by omega)
    have hp := firstForbidden_registerSet hallowed
    rw [← hlen]
    exact ⟨lrs_abandons hne hp, srs_abandons hne hp⟩

/-! ## The restricted privilege -/

/-- The user register set is selected at PP 2 or 3: the privilege that R97 keeps out of GRS 0120 to 0177. -/
def State.Restricted (s : State) : Prop := 2 ≤ s.pp.toNat ∧ s.execSet = false

theorem SameControl.pp {s t : State} (h : SameControl s t) : t.pp = s.pp := by rw [State.pp, State.pp, h.dr]

theorem SameControl.execSet {s t : State} (h : SameControl s t) : t.execSet = s.execSet := by
  rw [State.execSet, State.execSet, h.dr]

theorem State.Restricted.of_sameControl {s t : State} (hs : s.Restricted) (h : SameControl s t) : t.Restricted := by
  obtain ⟨hpp, huser⟩ := hs
  exact ⟨h.pp ▸ hpp, h.execSet.trans huser⟩

/-- At the restricted privilege an instruction names registers below 0120 only. -/
theorem State.Restricted.lt_of_nameable {s : State} (hs : s.Restricted) {k : GrsIndex} (h : s.Nameable k) :
    k.toNat < 0o120 := by
  obtain ⟨hpp, huser⟩ := hs
  rcases h with h | h | h
  · exact h
  · omega
  · rw [huser] at h
    cases h

theorem State.Restricted.lt_of_isIndexRegister {s : State} (hs : s.Restricted) {k : GrsIndex}
    (h : s.isIndexRegister k) : k.toNat < 0o120 := by
  obtain ⟨x, -, rfl⟩ := h
  exact hs.lt_of_nameable (s.nameable_xIndex x)

/-- At the restricted privilege every register of a reference is below 0120 (R97). -/
theorem State.Restricted.lt_of_reference {s : State} (hs : s.Restricted) {kind : Access} {n : Nat} {o : Operand}
    {u : RelAddr} {g : GrsIndex} (h : s.reference kind n o u = .ok (.grs g)) {m : Nat} (hm : m < n) :
    (g + BitVec.ofNat 7 m).toNat < 0o120 := by
  rcases reference_eq_ok.1 h with ⟨-, hf, hg⟩ | ⟨-, k, -, -, -, hg⟩
  · cases hg
    exact hs.lt_of_nameable (State.nameable_of_firstForbidden hf (mem_grsRange.2 ⟨m, hm, rfl⟩))
  · cases hg

/-! ## What a completion does to registers and storage -/

theorem IndexedFrom.mem {s t : State} (h : IndexedFrom s t) : t.mem = s.mem := by
  obtain ⟨-, -, hmem, -⟩ := h
  exact hmem

theorem IndexedFrom.reg_of_not_index {s t : State} (h : IndexedFrom s t) {k : GrsIndex} (hk : ¬s.isIndexRegister k) :
    t.reg k = s.reg k := by
  obtain ⟨-, -, -, hregs⟩ := h
  exact (hregs k).2 hk

theorem State.setAll_reg_of_not_mem {t : State} {ws : List (GrsIndex × Word)} {k : GrsIndex}
    (h : ∀ w ∈ ws, w.1 ≠ k) : (t.setAll ws).reg k = t.reg k := by
  induction ws generalizing t with
  | nil => rfl
  | cons w ws ih =>
    obtain ⟨hw, hws⟩ := List.forall_mem_cons.1 h
    exact (ih (t := t.setReg w.1 w.2) hws).trans (State.reg_setReg_ne hw.symm)

theorem State.setAll_mem (t : State) (ws : List (GrsIndex × Word)) : (t.setAll ws).mem = t.mem := by
  induction ws generalizing t with
  | nil => rfl
  | cons w ws ih => exact ih (t.setReg w.1 w.2)

/-- A store keeps every register that is not one of the reference's. -/
theorem store_reg_of_outside {t : State} {r : Ref} {j : Nat} {ws : List Word} {k : GrsIndex}
    (h : ∀ g, r = .grs g → ∀ m, m < ws.length → g + BitVec.ofNat 7 (j + m) ≠ k) :
    (t.store r j ws).reg k = t.reg k := by
  cases r with
  | grs g =>
    rw [(store_grs_reg t g k j ws).1]
    refine if_neg ?_
    rintro ⟨m, hm, hk⟩
    exact h g rfl m hm hk.symm
  | mem br u =>
    clear h
    induction ws generalizing t j with
    | nil => rfl
    | cons w ws ih => exact ih (t := t.storeWord (.mem br u) j w)

/-- A storage word that a store changes is one of the reference's. -/
theorem store_changed {t : State} {r : Ref} {j : Nat} {ws : List Word} {a : Nat} (ht : t.mem.wf = true)
    (h : (t.store r j ws).mem.read a ≠ t.mem.read a) :
    ∃ br u m, r = .mem br u ∧ m < ws.length ∧ a = t.absolute br u (j + m) := by
  induction ws generalizing t j with
  | nil => exact absurd rfl h
  | cons w ws ih =>
    cases r with
    | grs g =>
      obtain ⟨br, u, m, hr, -⟩ := ih (t := t.setReg (g + BitVec.ofNat 7 j) w) (j := j + 1) ht h
      cases hr
    | mem br u =>
      by_cases ha : a = t.absolute br u j
      · exact ⟨br, u, 0, rfl, by simp, ha⟩
      · have hw : (t.storeWord (.mem br u) j w).mem.read a = t.mem.read a :=
          (Memory.read_write ht _ _ _).trans (if_neg ha)
        obtain ⟨br', u', m, hr, hm, ham⟩ :=
          ih (t := t.storeWord (.mem br u) j w) (j := j + 1) (Memory.write_wf _ _ ht) (hw ▸ h)
        cases hr
        exact ⟨br, u, m + 1, rfl, by simpa using hm,
          ham.trans (congrArg (t.absolute br u) (by omega : j + 1 + m = j + (m + 1)))⟩

/-- A push and a pop change EX0's modifier and no other register (R310). -/
theorem setRegLow_pointer {s : State} {p : RelAddr} (k : GrsIndex) :
    (s.setRegLow Config.rcsPointer p).reg k = s.reg k ∨
      k = Config.rcsPointer ∧ ((s.setRegLow Config.rcsPointer p).reg k).high = (s.reg k).high := by
  by_cases hk : k = Config.rcsPointer
  · exact .inr ⟨hk, s.high_setRegLow _ _ _⟩
  · exact .inl (by rw [State.reg_setRegLow, if_neg hk])

/-- At the restricted privilege a completion keeps the registers from 0120 on, but for EX0's modifier. -/
theorem Completed.protected_reg {i : Instr} {s t u : State} (hs : s.Restricted) (ht : IndexedFrom s t)
    (h : Completed i s t u) {k : GrsIndex} (hk : 0o120 ≤ k.toNat) :
    u.reg k = t.reg k ∨
      k = Config.rcsPointer ∧ (u.reg k).high = (t.reg k).high ∧ ∃ o, i = .call o ∨ i = .locl o ∨ i = .rtn o := by
  rcases h with ⟨ws, rfl, hn⟩ | ⟨n, o, r, ws, hr, -, hlen, rfl⟩ | ⟨o, w, d, t', hi, -, hp, rfl⟩ |
    ⟨o, v, t', hi, hp, rfl⟩ | ⟨o, w, d, -, -, rfl⟩ | ⟨o, w₀, w₁, d, t', hi, hp, -, rfl⟩ | ⟨o, v, e, -, -, rfl⟩ |
    ⟨o, v, ssf, -, rfl⟩ | ⟨o, v, -, rfl⟩ | ⟨o, v, -, -, rfl⟩
  · refine .inl (State.setAll_reg_of_not_mem fun w hw hwk => ?_)
    have := hs.lt_of_nameable (hwk ▸ hn w hw)
    omega
  · obtain ⟨a, -, href⟩ := resolve_eq_ok.1 hr
    refine .inl (store_reg_of_outside fun g hg m hm hmk => ?_)
    subst hg
    have := (hs.of_sameControl ht.1).lt_of_reference href (hlen ▸ hm)
    rw [Nat.zero_add] at hmk
    rw [hmk] at this
    omega
  · obtain ⟨-, -, -, rfl⟩ := push_eq_ok hp
    exact (setRegLow_pointer k).imp_right fun ⟨h₁, h₂⟩ => ⟨h₁, h₂, o, .inl hi⟩
  · obtain ⟨-, -, -, rfl⟩ := push_eq_ok hp
    exact (setRegLow_pointer k).imp_right fun ⟨h₁, h₂⟩ => ⟨h₁, h₂, o, .inr (.inl hi)⟩
  · exact .inl rfl
  · obtain ⟨-, -, -, rfl⟩ := pop_eq_ok hp
    exact (setRegLow_pointer k).imp_right fun ⟨h₁, h₂⟩ => ⟨h₁, h₂, o, .inr (.inr hi)⟩
  all_goals exact .inl rfl

/-- Settles O21: `exec_cases` gives the completion, and `Completed.protected_reg` its registers. -/
theorem protectedRegistersAreKept : Obligations.ProtectedRegistersAreKept := by
  intro i s u h hpp huser k hk
  have hs : s.Restricted := ⟨hpp, huser⟩
  rcases exec_cases h with ⟨c, rfl, -⟩ | ⟨t, ht, hc⟩
  · exact .inl rfl
  · have hkept : t.reg k = s.reg k := ht.reg_of_not_index fun hx => by
      have := hs.lt_of_isIndexRegister hx
      omega
    exact hkept ▸ hc.protected_reg hs ht hk

/-! ## Where a store may go -/

/-- The permissions of R108 are granted. -/
theorem State.granted_permissions (s : State) (d : Descriptor) : s.Granted d (s.permissions d) := by
  constructor
  · intro h
    exact if_pos (by simpa [BitVec.lt_def] using h)
  · intro h
    exact if_neg (by simpa [BitVec.lt_def] using h)

theorem State.lockFailure_write {s : State} {d : Descriptor} :
    s.lockFailure d .write = none ↔ (s.permissions d).write = true := by
  simp [State.lockFailure]

/-- Every word of a reference that passes its tests lies within its bank's limits, and the key may write there if the
reference is to write (R107, R108). -/
theorem reference_holds {s : State} {kind : Access} {n : Nat} {o : Operand} {u v : RelAddr} {k : BaseIndex}
    (h : s.reference kind n o u = .ok (.mem k v)) :
    v = u ∧ (∀ m, m < n → (s.base k).Holds (u.toNat + m)) ∧ s.lockFailure (s.base k) kind = none := by
  rcases reference_eq_ok.1 h with ⟨-, -, hr⟩ | ⟨-, k', -, hl, hlock, hr⟩
  · cases hr
  · cases hr
    obtain ⟨hc, hn⟩ := Descriptor.limitFailure_eq_none.1 hl
    obtain ⟨hv, h₁, h₂⟩ := Descriptor.covers_eq_true.1 hc
    exact ⟨rfl, fun m hm => ⟨hv, by omega, by omega⟩, hlock⟩

theorem State.permissions_congr {s t : State} (h : SameControl s t) (d : Descriptor) :
    t.permissions d = s.permissions d := by
  rw [State.permissions, State.permissions, h.key]

/-- A storage word that a store at a resolved reference changes is writable (R107, R108). -/
theorem store_needs_permission {s t : State} {n : Nat} {o : Operand} {r : Ref} {ws : List Word} {a : Nat}
    (hr : resolve .write n o s = .ok (r, t)) (hm : s.mem.wf = true) (hlen : ws.length = n)
    (h : (t.store r 0 ws).mem.read a ≠ s.mem.read a) :
    ∃ (k : BaseIndex) (u : Nat) (p : Permissions), (s.base k).Holds u ∧
      a = (s.base k).base + (u - (s.base k).lower.toNat) ∧ s.Granted (s.base k) p ∧ p.write = true := by
  have ht := resolve_indexedFrom hr
  have hc := ht.1
  rw [← ht.mem] at h hm
  obtain ⟨k, u, m, rfl, hmn, rfl⟩ := store_changed hm h
  obtain ⟨v, -, href⟩ := resolve_eq_ok.1 hr
  obtain ⟨rfl, hholds, hlock⟩ := reference_holds href
  rw [hc.base] at hholds hlock
  refine ⟨k, u.toNat + m, s.permissions (s.base k), hholds m (hlen ▸ hmn), ?_, s.granted_permissions _, ?_⟩
  · rw [State.absolute, Descriptor.translate, hc.base, Nat.zero_add]
  · rw [← State.permissions_congr hc]
    exact State.lockFailure_write.1 hlock

/-- A push stores within the limits of the Return Control Stack bank (R312). -/
theorem push_changed {t t' : State} {f : Word × Word} {a : Nat} (hp : t.push f = .ok t') (hm : t.mem.wf = true)
    (h : t'.mem.read a ≠ t.mem.read a) :
    ∃ u : Nat, (t.base Config.rcsBase).Holds u ∧ a = (t.base Config.rcsBase).translate u := by
  obtain ⟨hcan, -, -, rfl⟩ := push_eq_ok hp
  simp only [State.canPush, Bool.and_eq_true, Bool.not_eq_true', decide_eq_true_eq] at hcan
  obtain ⟨⟨hv, hl⟩, hu⟩ := hcan
  rw [State.setRegLow_mem, Memory.read_write (Memory.write_wf _ _ hm), Memory.read_write hm] at h
  by_cases h₁ : a = (t.base Config.rcsBase).translate (t.rcsPointer.toNat - 1)
  · exact ⟨_, ⟨hv, by omega, by omega⟩, h₁⟩
  · by_cases h₂ : a = (t.base Config.rcsBase).translate (t.rcsPointer.toNat - 2)
    · exact ⟨_, ⟨hv, by omega, by omega⟩, h₂⟩
    · rw [if_neg h₁, if_neg h₂] at h
      exact absurd rfl h

/-- Settles O23: of the completions of `exec_cases` only a store and a push change storage. -/
theorem storesNeedPermission : Obligations.StoresNeedPermission := by
  intro i s u a hm h hne
  rcases exec_cases h with ⟨c, rfl, -⟩ | ⟨t, ht, hc⟩
  · exact absurd rfl hne
  · have hmem : t.mem = s.mem := ht.mem
    have onStack {t' : State} (hp : t.push t.frame = .ok t') (hne : t'.mem.read a ≠ s.mem.read a) :
        ∃ u : Nat, (s.base 25).Holds u ∧ a = (s.base 25).base + (u - (s.base 25).lower.toNat) := by
      rw [← ht.1.base]
      exact push_changed hp (hmem ▸ hm) (hmem ▸ hne)
    rcases hc with ⟨ws, rfl, -⟩ | ⟨n, o, r, ws, hr, -, hlen, rfl⟩ | ⟨o, w, d, t', hi, -, hp, rfl⟩ |
      ⟨o, v, t', hi, hp, rfl⟩ | ⟨o, w, d, -, -, rfl⟩ | ⟨o, w₀, w₁, d, t', -, hp, -, rfl⟩ | ⟨o, v, e, -, -, rfl⟩ |
      ⟨o, v, ssf, -, rfl⟩ | ⟨o, v, -, rfl⟩ | ⟨o, v, -, -, rfl⟩
    · exact absurd (by simp [State.setAll_mem, hmem]) hne
    · exact .inl (store_needs_permission hr hm hlen hne)
    · exact .inr ⟨⟨o, .inl hi⟩, onStack hp hne⟩
    · exact .inr ⟨⟨o, .inr hi⟩, onStack hp hne⟩
    · exact absurd (congrArg (Memory.read · a) hmem) hne
    · obtain ⟨-, -, -, rfl⟩ := pop_eq_ok hp
      exact absurd (congrArg (Memory.read · a) hmem) hne
    all_goals exact absurd (congrArg (Memory.read · a) hmem) hne

/-! ## States that differ out of sight -/

/-- The registers that the restricted privilege may learn: those below 0120, and EX0 for the Return Control Stack
pointer (R97, R310). -/
def Visible (k : GrsIndex) : Prop := k.toNat < 0o120 ∨ k = 0o140

/-- Two states that differ in registers out of sight only. -/
structure SameVisible (s s' : State) : Prop where
  rest : { s with grs := s'.grs } = s'
  reg : ∀ k, Visible k → s'.reg k = s.reg k

theorem SameVisible.eq_grs {s s' : State} (h : SameVisible s s') : ∃ g, s' = { s with grs := g } :=
  ⟨s'.grs, h.rest.symm⟩

/-- What does not depend on the registers is the same in both. -/
theorem SameVisible.congr {α : Type} {s s' : State} (h : SameVisible s s') (f : State → α)
    (hf : ∀ t g, f { t with grs := g } = f t) : f s' = f s := by
  obtain ⟨g, rfl⟩ := h.eq_grs
  exact hf s g

/-- An update that neither reads nor writes the registers keeps two states alike. -/
theorem SameVisible.update {s s' : State} (f : State → State)
    (hf : ∀ t g, f { t with grs := g } = { f t with grs := g }) (h : SameVisible s s') :
    SameVisible (f s) (f s') := by
  obtain ⟨g, rfl⟩ := h.eq_grs
  have hgrs : f s = { f s with grs := s.grs } := hf s s.grs
  refine ⟨by rw [hf], fun k hk => ?_⟩
  rw [hf, hgrs]
  exact h.reg k hk

/-- The same value written to a register of both keeps two states alike. -/
theorem SameVisible.setReg {s s' : State} (h : SameVisible s s') {k k' : GrsIndex} {v v' : Word} (hk : k' = k)
    (hv : v' = v) : SameVisible (s.setReg k v) (s'.setReg k' v') := by
  subst hk hv
  refine ⟨?_, fun m hm => by rw [State.reg_setReg, State.reg_setReg, h.reg m hm]⟩
  obtain ⟨g, rfl⟩ := h.eq_grs
  rfl

theorem SameVisible.rcsPointer {s s' : State} (h : SameVisible s s') : s'.rcsPointer = s.rcsPointer :=
  congrArg Word.low (h.reg _ (.inr rfl))

theorem SameVisible.setPointer {s s' : State} (h : SameVisible s s') (p : RelAddr) :
    SameVisible (s.setRegLow Config.rcsPointer p) (s'.setRegLow Config.rcsPointer p) :=
  h.setReg rfl (by rw [h.reg Config.rcsPointer (.inr rfl)])

theorem SameVisible.setAll {s s' : State} (h : SameVisible s s') (ws : List (GrsIndex × Word)) :
    SameVisible (s.setAll ws) (s'.setAll ws) := by
  induction ws generalizing s s' with
  | nil => exact h
  | cons w ws ih => exact ih (h.setReg rfl rfl)

theorem SameVisible.advance {s s' : State} (h : SameVisible s s') : SameVisible s.advance s'.advance :=
  h.update State.advance fun _ _ => rfl

/-- Two states that differ out of sight only, at the restricted privilege. -/
structure Indistinct (s s' : State) : Prop extends SameVisible s s' where
  restricted : s.Restricted

section
variable {s s' : State} (h : Indistinct s s')
include h

theorem Indistinct.of_sameControl {t t' : State} (ht : SameVisible t t') (hc : SameControl s t) : Indistinct t t' :=
  ⟨ht, h.restricted.of_sameControl hc⟩

theorem Indistinct.setReg {k k' : GrsIndex} {v v' : Word} (hk : k' = k) (hv : v' = v) :
    Indistinct (s.setReg k v) (s'.setReg k' v') :=
  h.of_sameControl (h.toSameVisible.setReg hk hv) (.setReg s k v)

/-- A register that the instruction may name holds the same in both. -/
theorem Indistinct.reg_nameable {k : GrsIndex} (hk : s.Nameable k) : s'.reg k = s.reg k :=
  h.reg k (.inl (h.restricted.lt_of_nameable hk))

theorem Indistinct.xIndex (x : BitVec 4) : s'.xIndex x = s.xIndex x :=
  h.congr (·.xIndex x) fun _ _ => rfl

theorem Indistinct.aIndex (a : BitVec 4) : s'.aIndex a = s.aIndex a :=
  h.congr (·.aIndex a) fun _ _ => rfl

theorem Indistinct.rIndex (a : BitVec 4) : s'.rIndex a = s.rIndex a :=
  h.congr (·.rIndex a) fun _ _ => rfl

theorem Indistinct.reg_xIndex (x : BitVec 4) : s'.reg (s'.xIndex x) = s.reg (s.xIndex x) := by
  rw [h.xIndex, h.reg_nameable (s.nameable_xIndex x)]

theorem Indistinct.reg_aIndex (a : BitVec 4) : s'.reg (s'.aIndex a) = s.reg (s.aIndex a) := by
  rw [h.aIndex, h.reg_nameable (s.nameable_aIndex_zero a)]

theorem Indistinct.reg_aIndex_succ (a : BitVec 4) : s'.reg (s'.aIndex a + 1) = s.reg (s.aIndex a + 1) := by
  rw [h.aIndex]
  exact h.reg_nameable (s.nameable_aIndex a 1 (by omega))

theorem Indistinct.reg_rIndex (a : BitVec 4) : s'.reg (s'.rIndex a) = s.reg (s.rIndex a) := by
  rw [h.rIndex, h.reg_nameable (s.nameable_rIndex a)]

theorem Indistinct.quarterMode : s'.quarterMode = s.quarterMode :=
  h.congr (·.quarterMode) fun _ _ => rfl

theorem Indistinct.grsPrivilege (is : List GrsIndex) : s'.grsPrivilege is = s.grsPrivilege is :=
  h.congr (·.grsPrivilege is) fun _ _ => rfl

theorem Indistinct.reference (kind : Access) (n : Nat) (o : Operand) (u : RelAddr) :
    s'.reference kind n o u = s.reference kind n o u :=
  h.congr (·.reference kind n o u) fun _ _ => rfl

theorem Indistinct.lookup (n : BankName) : s'.lookup n = s.lookup n :=
  h.congr (·.lookup n) fun _ _ => rfl

theorem Indistinct.base (k : BaseIndex) : s'.base k = s.base k :=
  h.congr (·.base k) fun _ _ => rfl

theorem Indistinct.memRead (a : Nat) : s'.memRead a = s.memRead a :=
  h.congr (·.memRead a) fun _ _ => rfl

theorem Indistinct.absolute (br : BaseIndex) (u : RelAddr) (k : Nat) : s'.absolute br u k = s.absolute br u k :=
  h.congr (·.absolute br u k) fun _ _ => rfl

theorem Indistinct.requirePrivilege (iw : Word) : requirePrivilege iw s' = requirePrivilege iw s :=
  h.congr (Machine.requirePrivilege iw) fun _ _ => rfl

end

/-! ## Attempts that run alike -/

/-- Two attempts that end alike: with related answers, or with the same cause. -/
inductive RunAlike {α : Type} (R : α → α → Prop) : Attempt α → Attempt α → Prop
  | ok {a a' : α} : R a a' → RunAlike R (.ok a) (.ok a')
  | error (e : Abort) : RunAlike R (.error e) (.error e)

theorem RunAlike.bind {α β : Type} {R : α → α → Prop} {S : β → β → Prop} {x x' : Attempt α} {f f' : α → Attempt β}
    (hx : RunAlike R x x') (hf : ∀ a a', R a a' → RunAlike S (f a) (f' a')) : RunAlike S (x >>= f) (x' >>= f') := by
  cases hx with
  | ok ha => exact hf _ _ ha
  | error e => exact .error e

/-- The same attempt on both sides. -/
theorem RunAlike.bindSame {α β : Type} {S : β → β → Prop} {x x' : Attempt α} {f f' : α → Attempt β}
    (hx : x' = x) (hf : ∀ a, x = .ok a → RunAlike S (f a) (f' a)) : RunAlike S (x >>= f) (x' >>= f') := by
  subst hx
  cases hx : x' with
  | ok a => exact hf a hx
  | error e => exact .error e

/-- The same answer, from states alike. -/
def AnswerAlike {α : Type} (p p' : α × State) : Prop := p'.1 = p.1 ∧ Indistinct p.2 p'.2

/-- A reference none of whose `n` words is a register out of sight. -/
def Ref.Unprotected (r : Ref) (n : Nat) : Prop :=
  ∀ g, r = .grs g → ∀ m, m < n → (g + BitVec.ofNat 7 m).toNat < 0o120

/-- The same reference in sight, from states alike. -/
def ResolveAlike (n : Nat) (p p' : Ref × State) : Prop := AnswerAlike p p' ∧ p.1.Unprotected n

theorem RunAlike.bindAnswer {α β : Type} {S : β → β → Prop} {x x' : Attempt (α × State)}
    {f f' : α × State → Attempt β} (hx : RunAlike AnswerAlike x x')
    (hf : ∀ a t t', Indistinct t t' → RunAlike S (f (a, t)) (f' (a, t'))) : RunAlike S (x >>= f) (x' >>= f') :=
  hx.bind fun (a, t) (a', t') ⟨ha, ht⟩ => by
    obtain rfl : a' = a := ha
    exact hf a' t t' ht

theorem RunAlike.bindResolve {β : Type} {S : β → β → Prop} {n : Nat} {x x' : Attempt (Ref × State)}
    {f f' : Ref × State → Attempt β} (hx : RunAlike (ResolveAlike n) x x')
    (hf : ∀ r t t', Indistinct t t' → r.Unprotected n → RunAlike S (f (r, t)) (f' (r, t'))) :
    RunAlike S (x >>= f) (x' >>= f') :=
  hx.bind fun (r, t) (r', t') ⟨⟨hr, ht⟩, hu⟩ => by
    obtain rfl : r' = r := hr
    exact hf r' t t' ht hu

/-! ## The resolver -/

section
variable {s s' : State} (h : Indistinct s s')
include h

theorem index_alike (x : BitVec 4) (inc : Bool) (d : RelAddr) :
    AnswerAlike (index x inc d s) (index x inc d s') := by
  unfold index
  by_cases hx : x = 0
  · rw [if_pos hx, if_pos hx]
    exact ⟨rfl, h⟩
  · rw [if_neg hx, if_neg hx]
    refine ⟨by dsimp only; rw [h.reg_xIndex], ?_⟩
    cases inc with
    | false => exact h
    | true => exact h.setReg (h.xIndex x) (by rw [h.reg_xIndex])

theorem immediate_alike (j : BitVec 4) (o : Operand) : AnswerAlike (immediate j o s) (immediate j o s') := by
  unfold immediate
  by_cases hx : o.x = 0
  · simp only [if_pos hx]
    exact ⟨rfl, h⟩
  · simp only [if_neg hx]
    obtain ⟨hu, ht⟩ := index_alike h o.x o.h (o.u.setWidth 18)
    exact ⟨by rw [hu], ht⟩

theorem Ref.Unprotected.of_reference {kind : Access} {n : Nat} {o : Operand} {u : RelAddr} {r : Ref}
    (hr : s.reference kind n o u = .ok r) : r.Unprotected n := by
  rintro g rfl m hm
  exact h.restricted.lt_of_reference hr hm

/-- A word of a reference in sight reads the same. -/
theorem readRef_alike {r : Ref} {n k : Nat} (hr : r.Unprotected n) (hk : k < n) : s'.readRef r k = s.readRef r k := by
  cases r with
  | grs g => exact congrArg Except.ok (h.reg _ (.inl (hr g rfl k hk)))
  | mem br u => rw [State.readRef, State.readRef, h.absolute, h.memRead]

theorem indirectRead_alike (o : Operand) (u : RelAddr) : s'.indirectRead o u = s.indirectRead o u := by
  unfold State.indirectRead
  rw [h.reference]
  cases hr : s.reference .read 1 o u with
  | error e => rfl
  | ok r => exact readRef_alike h (.of_reference h hr) Nat.one_pos

end

theorem chase_alike {s s' : State} (h : Indistinct s s') (n : Nat) (o : Operand) :
    RunAlike AnswerAlike (chase n o s) (chase n o s') := by
  induction n generalizing o s s' with
  | zero => exact .ok (index_alike h _ _ _)
  | succ n ih =>
    cases hi : o.i with
    | false =>
      rw [chase_of_direct _ _ hi, chase_of_direct _ _ hi]
      exact .ok (index_alike h _ _ _)
    | true =>
      obtain ⟨hu, ht⟩ := index_alike h o.x o.h (o.u.setWidth 18)
      rw [chase_of_indirect hi (Prod.eta _).symm, chase_of_indirect hi (Prod.eta _).symm, hu]
      exact .bindSame (indirectRead_alike ht o _) fun _ _ => ih ht _

section
variable {s s' : State} (h : Indistinct s s')
include h

theorem resolveAddress_alike (o : Operand) : RunAlike AnswerAlike (resolveAddress o s) (resolveAddress o s') := by
  unfold resolveAddress
  rw [h.congr (·.mode) fun _ _ => rfl, h.congr (·.params) fun _ _ => rfl]
  cases s.mode with
  | basic => exact chase_alike h _ o
  | extended => exact .ok (index_alike h _ _ _)

theorem resolve_alike (kind : Access) (n : Nat) (o : Operand) :
    RunAlike (ResolveAlike n) (resolve kind n o s) (resolve kind n o s') :=
  (resolveAddress_alike h o).bindAnswer fun u _ _ ht =>
    .bindSame (ht.reference kind n o u) fun _ hr => .ok ⟨⟨rfl, ht⟩, .of_reference ht hr⟩

theorem readFullWord_alike (o : Operand) : RunAlike AnswerAlike (readFullWord o s) (readFullWord o s') :=
  (resolve_alike h .read 1 o).bindResolve fun _ _ _ ht hv =>
    .bindSame (readRef_alike ht hv Nat.one_pos) fun _ _ => .ok ⟨rfl, ht⟩

theorem readDoubleWord_alike (o : Operand) : RunAlike AnswerAlike (readDoubleWord o s) (readDoubleWord o s') :=
  (resolve_alike h .read 2 o).bindResolve fun _ _ _ ht hv =>
    .bindSame (readRef_alike ht hv Nat.two_pos) fun _ _ =>
      .bindSame (readRef_alike ht hv Nat.one_lt_two) fun _ _ => .ok ⟨rfl, ht⟩

theorem readOperand_alike (j : BitVec 4) (o : Operand) :
    RunAlike AnswerAlike (readOperand j o s) (readOperand j o s') := by
  unfold readOperand
  by_cases hj : namesStorageField j = true
  · rw [if_pos hj, if_pos hj]
    exact (readFullWord_alike h o).bindAnswer fun w t t' ht => .ok ⟨by rw [ht.quarterMode], ht⟩
  · rw [if_neg hj, if_neg hj]
    exact .ok (immediate_alike h j o)

/-! ## Writing, and the Return Control Stack -/

theorem memWrite_alike (a : Nat) (v : Word) : RunAlike Indistinct (s.memWrite a v) (s'.memWrite a v) := by
  have hs' := h.update (fun t => { t with mem := t.mem.write a v }) fun _ _ => rfl
  obtain ⟨g, rfl⟩ := h.eq_grs
  unfold State.memWrite
  split
  · exact .ok ⟨hs', h.restricted⟩
  · exact .error _

theorem writeRef_alike (r : Ref) (k : Nat) (v : Word) : RunAlike Indistinct (s.writeRef r k v) (s'.writeRef r k v) := by
  cases r with
  | grs g => exact .ok (h.setReg rfl rfl)
  | mem br u =>
    rw [State.writeRef, State.writeRef, h.absolute]
    exact memWrite_alike h _ v

theorem writeField_alike {r : Ref} (hr : r.Unprotected 1) (d : WordField) (v : Word) :
    RunAlike Indistinct (s.writeField r d v) (s'.writeField r d v) :=
  .bindSame (readRef_alike h hr Nat.one_pos) fun _ _ => writeRef_alike h r 0 _

theorem Indistinct.canPush : s'.canPush = s.canPush := by
  rw [State.canPush, State.canPush, h.rcsPointer, h.base]

theorem Indistinct.canPop : s'.canPop = s.canPop := by
  rw [State.canPop, State.canPop, h.rcsPointer, h.base]

theorem push_alike : RunAlike SameVisible (s.push s.frame) (s'.push s'.frame) := by
  unfold State.push
  rw [h.canPush, h.rcsPointer, h.congr (·.frame) fun _ _ => rfl, h.base]
  cases s.canPush with
  | false => exact .error _
  | true =>
    exact (memWrite_alike h _ _).bind fun t t' ht => (memWrite_alike ht _ _).bind fun _ _ hu =>
      .ok (hu.setPointer _)

theorem pop_alike : RunAlike AnswerAlike s.pop s'.pop := by
  unfold State.pop
  rw [h.canPop, h.rcsPointer, h.base]
  cases s.canPop with
  | false => exact .error _
  | true =>
    exact .bindSame (h.memRead _) fun _ _ => .bindSame (h.memRead _) fun _ _ =>
      .ok ⟨rfl, h.of_sameControl (h.setPointer _) (.setReg _ _ _)⟩

end

theorem readBlock_alike {s s' : State} (h : Indistinct s s') {r : Ref} {n : Nat} (hr : r.Unprotected n) (k m : Nat)
    (hk : k + m ≤ n) : s'.readBlock r k m = s.readBlock r k m := by
  induction m generalizing k with
  | zero => rfl
  | succ m ih => rw [State.readBlock, State.readBlock, readRef_alike h hr (by omega), ih (k + 1) (by omega)]

theorem writeBlock_alike {s s' : State} (h : Indistinct s s') (r : Ref) (k : Nat) (ws : List Word) :
    RunAlike Indistinct (s.writeBlock r k ws) (s'.writeBlock r k ws) := by
  induction ws generalizing s s' k with
  | nil => exact .ok h
  | cons w ws ih => exact (writeRef_alike h r k w).bind fun _ _ ht => ih ht (k + 1)

/-! ## The templates -/

/-- Where the one outcome is a next state, the other is one that differs from it out of sight only. -/
def OutcomesAlike (x x' : Result) : Prop := ∀ t, x = .next t → ∃ t', x' = .next t' ∧ SameVisible t t'

theorem conclude_alike {s s' : State} (h : Indistinct s s') {x x' : Attempt State} (hx : RunAlike SameVisible x x') :
    OutcomesAlike (conclude s x) (conclude s' x') := by
  intro t ht
  cases hx with
  | ok ha =>
    cases ht
    exact ⟨_, rfl, ha⟩
  | error e =>
    cases e with
    | interrupt c =>
      cases ht
      exact ⟨_, rfl, h.update (·.enqueue c) fun _ _ => rfl⟩
    | absentStorage a => cases ht

section
variable {s s' : State} (h : Indistinct s s')
include h

/-- The load template with a register and a value that states alike agree on. -/
theorem load_alike (j : BitVec 4) (o : Operand) {k : State → GrsIndex} {v : State → Word → Word}
    (hk : ∀ t t', Indistinct t t' → k t' = k t) (hv : ∀ t t' op, Indistinct t t' → v t' op = v t op) :
    OutcomesAlike (conclude s (loadOperand j o s fun t op => t.setReg (k t) (v t op)))
      (conclude s' (loadOperand j o s' fun t op => t.setReg (k t) (v t op))) :=
  conclude_alike h <| (readOperand_alike h j o).bindAnswer fun _ _ _ ht =>
    .ok (ht.toSameVisible.setReg (hk _ _ ht) (hv _ _ _ ht)).advance

/-- The store template with a value that states alike agree on. -/
theorem store_alike (iw : Word) (j : BitVec 4) (o : Operand) {v : State → Word}
    (hv : ∀ t t', Indistinct t t' → v t' = v t) :
    OutcomesAlike (conclude s (storeOperand iw j o s v)) (conclude s' (storeOperand iw j o s' v)) :=
  conclude_alike h <| .bindSame rfl fun _ _ =>
    (resolve_alike h .write 1 o).bindResolve fun r t t' ht hu => by
      dsimp only
      rw [hv _ _ ht, ht.quarterMode]
      exact (writeField_alike ht hu _ _).bind fun _ _ hw => .ok hw.advance

theorem logical_alike (j a : BitVec 4) (o : Operand) {f : State → Word → Word → Word}
    (hf : ∀ t t' w op, Indistinct t t' → f t' w op = f t w op) :
    OutcomesAlike (conclude s (logical j a o s f)) (conclude s' (logical j a o s' f)) :=
  load_alike h j o (fun _ _ ht => by rw [ht.aIndex]) fun _ _ _ ht => by rw [ht.reg_aIndex, hf _ _ _ _ ht]

theorem shiftSingle_alike (a : BitVec 4) (o : Operand) (f : Word → Nat → Word) :
    OutcomesAlike (conclude s (shiftSingle a o s f)) (conclude s' (shiftSingle a o s' f)) :=
  conclude_alike h <| (resolveAddress_alike h o).bindAnswer fun u t t' ht =>
    .ok (ht.toSameVisible.setReg (ht.aIndex a) (by rw [ht.reg_aIndex])).advance

theorem Indistinct.setPair (a : BitVec 4) {d d' : BitVec 72} (hd : d' = d) :
    Indistinct (s.setPair a d) (s'.setPair a d') := by
  subst hd
  exact (h.setReg (h.aIndex a) rfl).setReg (congrArg (· + 1) (h.aIndex a)) rfl

/-- Two registers hold the same 72-bit value in both. -/
theorem Indistinct.pair (a : BitVec 4) : s'.pair a = s.pair a := by
  rw [State.pair, State.pair, h.reg_aIndex, h.reg_aIndex_succ]

theorem shiftDouble_alike (a : BitVec 4) (o : Operand) (f : BitVec 72 → Nat → BitVec 72) :
    OutcomesAlike (conclude s (shiftDouble a o s f)) (conclude s' (shiftDouble a o s' f)) :=
  conclude_alike h <| (resolveAddress_alike h o).bindAnswer fun u t t' ht =>
    .ok (ht.setPair a (by rw [ht.pair])).advance

theorem check_alike (o : Operand) : OutcomesAlike (conclude s (checkOperand o s)) (conclude s' (checkOperand o s')) :=
  conclude_alike h <| (resolve_alike h .check 1 o).bindResolve fun _ _ _ ht _ => .ok ht.advance

theorem signalling_alike (ssf : BitVec 6) (o : Operand) :
    OutcomesAlike (conclude s (signalling ssf o s)) (conclude s' (signalling ssf o s')) :=
  conclude_alike h <| (resolveAddress_alike h o).bindAnswer fun u _ _ ht =>
    .ok (ht.update (fun t => t.advance.enqueue (signal ssf u)) fun _ _ => rfl)

theorem jump_alike (iw : Word) (o : Operand) (enabled : Bool) :
    OutcomesAlike (conclude s (setDeferrableAndJump iw o s enabled))
      (conclude s' (setDeferrableAndJump iw o s' enabled)) :=
  conclude_alike h <| .bindSame (h.requirePrivilege iw) fun _ _ =>
    (resolveAddress_alike h o).bindAnswer fun u _ _ ht =>
      .ok (ht.update (fun t => { t.jump u with dr := withDesignatorBit t.dr 13 enabled }) fun _ _ => rfl)

/-! ## Every instruction -/

theorem laqw_alike (a : BitVec 4) (o : Operand) : OutcomesAlike (exec (.laqw a o) s) (exec (.laqw a o) s') :=
  conclude_alike h <| .bindSame rfl fun _ _ =>
    (readFullWord_alike h o).bindAnswer fun w t t' ht =>
      .ok (ht.toSameVisible.setReg (ht.aIndex a) (by rw [h.reg_xIndex])).advance

theorem saqw_alike (a : BitVec 4) (o : Operand) : OutcomesAlike (exec (.saqw a o) s) (exec (.saqw a o) s') :=
  conclude_alike h <| .bindSame rfl fun _ _ =>
    (resolve_alike h .write 1 o).bindResolve fun r t t' ht hu => by
      dsimp only
      rw [h.reg_xIndex, ht.reg_aIndex]
      exact (writeField_alike ht hu _ _).bind fun _ _ hw => .ok hw.advance

theorem dl_alike (a : BitVec 4) (o : Operand) : OutcomesAlike (exec (.dl a o) s) (exec (.dl a o) s') :=
  conclude_alike h <| (readDoubleWord_alike h o).bindAnswer fun (_, _) _ _ ht =>
    .ok ((ht.toSameVisible.setReg (ht.aIndex a) rfl).setReg (congrArg (· + 1) (ht.aIndex a)) rfl).advance

theorem ds_alike (a : BitVec 4) (o : Operand) : OutcomesAlike (exec (.ds a o) s) (exec (.ds a o) s') :=
  conclude_alike h <| (resolve_alike h .write 2 o).bindResolve fun r t t' ht _ => by
    dsimp only
    rw [h.reg_aIndex, h.reg_aIndex_succ]
    exact (writeBlock_alike ht r 0 _).bind fun _ _ hw => .ok hw.advance

theorem lsc_alike (a : BitVec 4) (o : Operand) : OutcomesAlike (exec (.lsc a o) s) (exec (.lsc a o) s') :=
  conclude_alike h <| (readFullWord_alike h o).bindAnswer fun _ _ _ ht =>
    .ok ((ht.toSameVisible.setReg (ht.aIndex a) rfl).setReg (congrArg (· + 1) (ht.aIndex a)) rfl).advance

theorem dlsc_alike (a : BitVec 4) (o : Operand) : OutcomesAlike (exec (.dlsc a o) s) (exec (.dlsc a o) s') :=
  conclude_alike h <| (readDoubleWord_alike h o).bindAnswer fun (_, _) _ _ ht =>
    .ok ((ht.setPair a rfl).toSameVisible.setReg (congrArg (· + 2) (ht.aIndex a)) rfl).advance

theorem lrs_alike (a : BitVec 4) (o : Operand) : OutcomesAlike (exec (.lrs a o) s) (exec (.lrs a o) s') := by
  refine conclude_alike h ?_
  dsimp only
  rw [h.reg_aIndex]
  generalize registerSet (s.reg (s.aIndex a)) = rs
  by_cases hrs : rs = []
  · rw [if_pos hrs, if_pos hrs]
    exact .ok h.advance
  · rw [if_neg hrs, if_neg hrs]
    refine .bindSame (h.grsPrivilege rs) fun _ _ =>
      (resolve_alike h .read rs.length o).bindResolve fun r t t' ht hu => ?_
    refine .bindSame (readBlock_alike ht hu 0 rs.length (by omega)) fun ws _ => .ok (SameVisible.advance ?_)
    rw [loadRegs_eq_setAll, loadRegs_eq_setAll]
    exact ht.setAll _

theorem srs_alike (a : BitVec 4) (o : Operand) : OutcomesAlike (exec (.srs a o) s) (exec (.srs a o) s') := by
  refine conclude_alike h ?_
  dsimp only
  rw [h.reg_aIndex]
  generalize registerSet (s.reg (s.aIndex a)) = rs
  by_cases hrs : rs = []
  · rw [if_pos hrs, if_pos hrs]
    exact .ok h.advance
  · rw [if_neg hrs, if_neg hrs]
    refine .bindSame (h.grsPrivilege rs) fun _ hp =>
      (resolve_alike h .write rs.length o).bindResolve fun r t t' ht _ => ?_
    have hvalues : rs.map s'.reg = rs.map s.reg := List.map_congr_left fun k hk =>
      h.reg_nameable (State.nameable_of_firstForbidden (grsPrivilege_eq_ok.1 hp) hk)
    dsimp only
    rw [hvalues]
    exact (writeBlock_alike ht r 0 _).bind fun _ _ hw => .ok hw.advance

theorem locl_alike (o : Operand) : OutcomesAlike (exec (.locl o) s) (exec (.locl o) s') :=
  conclude_alike h <| (resolveAddress_alike h o).bindAnswer fun u _ _ ht =>
    (push_alike ht).bind fun _ _ hp => .ok (hp.update (fun t => t.jump u) fun _ _ => rfl)

theorem call_alike (o : Operand) : OutcomesAlike (exec (.call o) s) (exec (.call o) s') :=
  conclude_alike h <| (readFullWord_alike h o).bindAnswer fun w _ _ ht =>
    .bindSame (ht.lookup _) fun d _ => (push_alike ht).bind fun _ _ hp =>
      .ok (hp.update (fun t => t.transfer d w.high w.low) fun _ _ => rfl)

theorem goto_alike (o : Operand) : OutcomesAlike (exec (.goto o) s) (exec (.goto o) s') :=
  conclude_alike h <| (readFullWord_alike h o).bindAnswer fun w _ _ ht =>
    .bindSame (ht.lookup _) fun d _ => .ok (ht.update (fun t => t.transfer d w.high w.low) fun _ _ => rfl)

theorem rtn_alike (o : Operand) : OutcomesAlike (exec (.rtn o) s) (exec (.rtn o) s') :=
  conclude_alike h <| (pop_alike h).bindAnswer fun (w₀, w₁) _ _ ht =>
    .bindSame (ht.lookup _) fun d _ => .ok (ht.update
      (fun t => { t.transfer d w₀.high w₀.low with dr := restoredDesignators t.dr w₁ }) fun _ _ => rfl)

theorem send_alike (o : Operand) : OutcomesAlike (exec (.send o) s) (exec (.send o) s') :=
  conclude_alike h <| (resolveAddress_alike h o).bindAnswer fun u t t' ht => by
    have hadvance := ht.toSameVisible.advance
    have hdeliver := ht.update (fun t => t.advance.deliver u (upiSignal t.params.upiIndex)) fun _ _ => rfl
    obtain ⟨g, rfl⟩ := ht.eq_grs
    dsimp only
    split
    · exact .ok hadvance
    · change RunAlike _ (if t.isProcessor u = true then _ else _) (if t.isProcessor u = true then _ else _)
      split
      · exact .ok hdeliver
      · split
        · exact .ok hadvance
        · exact .error _

theorem halt_alike (o : Operand) : OutcomesAlike (exec (.halt o) s) (exec (.halt o) s') :=
  conclude_alike h <| .bindSame (h.requirePrivilege _) fun _ _ =>
    (resolveAddress_alike h o).bindAnswer fun u _ _ ht =>
      .ok (ht.update (fun t => t.advance.stop .debug u) fun _ _ => rfl)

/-- At the restricted privilege states alike run every instruction alike. -/
theorem exec_alike (i : Instr) : OutcomesAlike (exec i s) (exec i s') := by
  cases i
  case sa j a o => exact store_alike h _ j o fun _ _ ht => ht.reg_aIndex a
  case sna j a o => exact store_alike h _ j o fun _ _ ht => by rw [ht.reg_aIndex]
  case sma j a o => exact store_alike h _ j o fun _ _ ht => by rw [ht.reg_aIndex]
  case sr j a o => exact store_alike h _ j o fun _ _ ht => ht.reg_rIndex a
  case sz j o => exact store_alike h _ j o fun _ _ _ => rfl
  case snz j o => exact store_alike h _ j o fun _ _ _ => rfl
  case sp1 j o => exact store_alike h _ j o fun _ _ _ => rfl
  case sn1 j o => exact store_alike h _ j o fun _ _ _ => rfl
  case sfs j o => exact store_alike h _ j o fun _ _ _ => rfl
  case sfz j o => exact store_alike h _ j o fun _ _ _ => rfl
  case sas j o => exact store_alike h _ j o fun _ _ _ => rfl
  case saz j o => exact store_alike h _ j o fun _ _ _ => rfl
  case sx j a o => exact store_alike h _ j o fun _ _ ht => ht.reg_xIndex a
  case laqw a o => exact laqw_alike h a o
  case saqw a o => exact saqw_alike h a o
  case locl o => exact locl_alike h o
  case call o => exact call_alike h o
  case goto o => exact goto_alike h o
  case la j a o => exact load_alike h j o (fun _ _ ht => ht.aIndex a) fun _ _ _ _ => rfl
  case lna j a o => exact load_alike h j o (fun _ _ ht => ht.aIndex a) fun _ _ _ _ => rfl
  case lma j a o => exact load_alike h j o (fun _ _ ht => ht.aIndex a) fun _ _ _ _ => rfl
  case lnma j a o => exact load_alike h j o (fun _ _ ht => ht.aIndex a) fun _ _ _ _ => rfl
  case lr j a o => exact load_alike h j o (fun _ _ ht => ht.rIndex a) fun _ _ _ _ => rfl
  case lxm j a o => exact load_alike h j o (fun _ _ ht => ht.xIndex a) fun _ _ _ ht => by rw [ht.reg_xIndex]
  case lx j a o => exact load_alike h j o (fun _ _ ht => ht.xIndex a) fun _ _ _ _ => rfl
  case orA j a o => exact logical_alike h j a o fun _ _ _ _ _ => rfl
  case xorA j a o => exact logical_alike h j a o fun _ _ _ _ _ => rfl
  case andA j a o => exact logical_alike h j a o fun _ _ _ _ _ => rfl
  case mlu j a o => exact logical_alike h j a o fun _ _ _ _ ht => by rw [ht.reg_rIndex]
  case lxi j a o => exact load_alike h j o (fun _ _ ht => ht.xIndex a) fun _ _ _ ht => by rw [ht.reg_xIndex]
  case ds a o => exact ds_alike h a o
  case dl a o => exact dl_alike h a o
  case er a o => exact signalling_alike h 0 o
  case srs a o => exact srs_alike h a o
  case lrs a o => exact lrs_alike h a o
  case ssc a o => exact shiftSingle_alike h a o _
  case dsc a o => exact shiftDouble_alike h a o _
  case ssl a o => exact shiftSingle_alike h a o _
  case dsl a o => exact shiftDouble_alike h a o _
  case ssa a o => exact shiftSingle_alike h a o _
  case dsa a o => exact shiftDouble_alike h a o _
  case lsc a o => exact lsc_alike h a o
  case dlsc a o => exact dlsc_alike h a o
  case lssc a o => exact shiftSingle_alike h a o _
  case ldsc a o => exact shiftDouble_alike h a o _
  case lssl a o => exact shiftSingle_alike h a o _
  case ldsl a o => exact shiftDouble_alike h a o _
  case nopE o => exact check_alike h o
  case send o => exact send_alike h o
  case sgnl o => exact signalling_alike h 1 o
  case rtn o => exact rtn_alike h o
  case halt o => exact halt_alike h o
  case nopB a o => exact check_alike h o
  case aaijB a o => exact jump_alike h _ o true
  case aaijE o => exact jump_alike h _ o true
  case paij o => exact jump_alike h _ o false

end

/-- Settles O22: `exec_alike` gives the other outcome, whose registers out of sight O21 keeps. -/
theorem protectedRegistersAreNotRead : Obligations.ProtectedRegistersAreNotRead := by
  intro i s s' t hpp huser hrest hreg h
  have hs : Indistinct s s' := ⟨⟨hrest, hreg⟩, hpp, huser⟩
  obtain ⟨t', ht', hrest', hreg'⟩ := exec_alike hs i t h
  obtain ⟨g, rfl⟩ := hs.eq_grs
  refine ⟨t', ht', hrest', hreg', fun k hk hne => ?_⟩
  exact (protectedRegistersAreKept i _ t' ht' hpp huser k hk).resolve_right fun ⟨heq, _⟩ => hne heq

end Sys2Proof.Machine
end

section
/-! PROOFS. Encoding: the decoder, the encoder and the opcode map say the same of every word (R141, R142, R147, R148).
`decode_encode` reads every encoding back, `decodeFields_eq_some` inverts the decoder, and `accepts_row_iff` ties both
to the rows of the table. -/

namespace Sys2Proof

/-! ## Decoding what is encoded -/

theorem decode_pack (m : Mode) (f : BitVec 6) (j a : BitVec 4) (o : Operand) :
    decode m (pack f j a o) = decodeFields m f j a o := by
  rw [decode, fieldF_pack, fieldJ_pack, fieldA_pack, Machine.operandOf_pack]

/-- An instruction's word decodes to it in every mode of its row (R147). -/
theorem decode_encode {m : Mode} {i : Instr} (h : i.definedIn m = true) : decode m (encode i) = some i := by
  cases i with
  | laqw | saqw | locl | call | goto | nopE | rtn | aaijE =>
    obtain rfl : m = .extended := eq_of_beq h
    exact decode_pack ..
  | nopB | aaijB =>
    obtain rfl : m = .basic := eq_of_beq h
    exact decode_pack ..
  | _ => exact decode_pack ..

/-- Settles O1. -/
theorem decodeReadsEveryEncoding : Obligations.DecodeReadsEveryEncoding :=
  fun _ _ => decode_encode

/-! ## Encoding what is decoded -/

/-- The function codes as numbers, which is how the decoder tests them. -/
theorem pack_eq_ofNat (f : BitVec 6) (j a : BitVec 4) (o : Operand) :
    pack f j a o = pack (BitVec.ofNat 6 f.toNat) (BitVec.ofNat 4 j.toNat) (BitVec.ofNat 4 a.toNat) o := by
  simp only [BitVec.ofNat_toNat, BitVec.setWidth_eq]

/-- The decoder inverted, branch by branch: an instruction that it answers is one of the mode, and is packed from the
codes that lead to its branch and the fields that it keeps. -/
theorem decodeFields_eq_some {m : Mode} {f : BitVec 6} {j a : BitVec 4} {o : Operand} {i : Instr}
    (h : decodeFields m f j a o = some i) : i.definedIn m = true ∧ encode i = pack f j a o := by
  rw [pack_eq_ofNat]
  revert h
  -- The branches that answer none are closed by `rintro`; in the others the tests passed say what the codes are.
  fun_cases decodeFields m f j a o <;> rintro ⟨⟩
  all_goals exact ⟨by simp [Instr.definedIn, *], by simp [encode, *]⟩

theorem encode_of_decode {m : Mode} {w : Word} {i : Instr} (h : decode m w = some i) :
    i.definedIn m = true ∧ encode i = w := by
  obtain ⟨hm, he⟩ := decodeFields_eq_some h
  exact ⟨hm, he.trans (Machine.pack_fields w)⟩

/-- Settles O2. -/
theorem encodeRestoresEveryWord : Obligations.EncodeRestoresEveryWord :=
  fun _ _ _ => encode_of_decode

/-! ## The rows of the opcode map -/

theorem OpcodeRow.accepts_iff {r : OpcodeRow} {m : Mode} {w : Word} :
    r.accepts m w = true ↔ r.inMode m = true ∧ w &&& r.mask = r.pattern := by
  rw [OpcodeRow.accepts, Bool.and_eq_true, beq_iff_eq]

theorem Instr.inMode_row (i : Instr) (m : Mode) : i.row.inMode m = i.definedIn m := by
  cases i <;> cases m <;> rfl

open Laws in
/-- The family `EncodingMatchesRow` as one statement. -/
theorem encode_and_mask : (i : Instr) → encode i &&& i.row.mask = i.row.pattern
  | .sa j a o => EncodingMatchesRow.sa j a o
  | .sna j a o => EncodingMatchesRow.sna j a o
  | .sma j a o => EncodingMatchesRow.sma j a o
  | .sr j a o => EncodingMatchesRow.sr j a o
  | .sz j o => EncodingMatchesRow.sz j o
  | .snz j o => EncodingMatchesRow.snz j o
  | .sp1 j o => EncodingMatchesRow.sp1 j o
  | .sn1 j o => EncodingMatchesRow.sn1 j o
  | .sfs j o => EncodingMatchesRow.sfs j o
  | .sfz j o => EncodingMatchesRow.sfz j o
  | .sas j o => EncodingMatchesRow.sas j o
  | .saz j o => EncodingMatchesRow.saz j o
  | .sx j a o => EncodingMatchesRow.sx j a o
  | .laqw a o => EncodingMatchesRow.laqw a o
  | .saqw a o => EncodingMatchesRow.saqw a o
  | .locl o => EncodingMatchesRow.locl o
  | .call o => EncodingMatchesRow.call o
  | .goto o => EncodingMatchesRow.goto o
  | .la j a o => EncodingMatchesRow.la j a o
  | .lna j a o => EncodingMatchesRow.lna j a o
  | .lma j a o => EncodingMatchesRow.lma j a o
  | .lnma j a o => EncodingMatchesRow.lnma j a o
  | .lr j a o => EncodingMatchesRow.lr j a o
  | .lxm j a o => EncodingMatchesRow.lxm j a o
  | .lx j a o => EncodingMatchesRow.lx j a o
  | .orA j a o => EncodingMatchesRow.orA j a o
  | .xorA j a o => EncodingMatchesRow.xorA j a o
  | .andA j a o => EncodingMatchesRow.andA j a o
  | .mlu j a o => EncodingMatchesRow.mlu j a o
  | .lxi j a o => EncodingMatchesRow.lxi j a o
  | .ds a o => EncodingMatchesRow.ds a o
  | .dl a o => EncodingMatchesRow.dl a o
  | .er a o => EncodingMatchesRow.er a o
  | .srs a o => EncodingMatchesRow.srs a o
  | .lrs a o => EncodingMatchesRow.lrs a o
  | .ssc a o => EncodingMatchesRow.ssc a o
  | .dsc a o => EncodingMatchesRow.dsc a o
  | .ssl a o => EncodingMatchesRow.ssl a o
  | .dsl a o => EncodingMatchesRow.dsl a o
  | .ssa a o => EncodingMatchesRow.ssa a o
  | .dsa a o => EncodingMatchesRow.dsa a o
  | .lsc a o => EncodingMatchesRow.lsc a o
  | .dlsc a o => EncodingMatchesRow.dlsc a o
  | .lssc a o => EncodingMatchesRow.lssc a o
  | .ldsc a o => EncodingMatchesRow.ldsc a o
  | .lssl a o => EncodingMatchesRow.lssl a o
  | .ldsl a o => EncodingMatchesRow.ldsl a o
  | .nopE o => EncodingMatchesRow.nopE o
  | .send o => EncodingMatchesRow.send o
  | .sgnl o => EncodingMatchesRow.sgnl o
  | .rtn o => EncodingMatchesRow.rtn o
  | .halt o => EncodingMatchesRow.halt o
  | .nopB a o => EncodingMatchesRow.nopB a o
  | .aaijB a o => EncodingMatchesRow.aaijB a o
  | .aaijE o => EncodingMatchesRow.aaijE o
  | .paij o => EncodingMatchesRow.paij o

/-! The decoder on a word that is known under one of the four masks of the opcode map: the codes that the mask covers
are those of the pattern. -/

theorem decode_of_maskF {w p : Word} (m : Mode) (h : w &&& 0o770000000000 = p) :
    decode m w = decodeFields m (fieldF p) (fieldJ w) (fieldA w) (operandOf w) := by
  rw [← Machine.pack_fields w, pack_and_maskF] at h
  rw [← h, fieldF_pack, decode]

theorem decode_of_maskFA {w p : Word} (m : Mode) (h : w &&& 0o770360000000 = p) :
    decode m w = decodeFields m (fieldF p) (fieldJ w) (fieldA p) (operandOf w) := by
  rw [← Machine.pack_fields w, pack_and_maskFA] at h
  rw [← h, fieldF_pack, fieldA_pack, decode]

theorem decode_of_maskFJ {w p : Word} (m : Mode) (h : w &&& 0o777400000000 = p) :
    decode m w = decodeFields m (fieldF p) (fieldJ p) (fieldA w) (operandOf w) := by
  rw [← Machine.pack_fields w, pack_and_maskFJ] at h
  rw [← h, fieldF_pack, fieldJ_pack, decode]

theorem decode_of_maskFJA {w p : Word} (m : Mode) (h : w &&& 0o777760000000 = p) :
    decode m w = decodeFields m (fieldF p) (fieldJ p) (fieldA p) (operandOf w) := by
  rw [← Machine.pack_fields w, pack_and_maskFJA] at h
  rw [← h, fieldF_pack, fieldJ_pack, fieldA_pack, decode]

/-- A word with a row's pattern under the row's mask decodes to an instruction of the row: the mask fixes the codes that
lead to the row's branch of the decoder, and the branch takes every value of the other fields. -/
theorem decode_of_pattern {m : Mode} {w : Word} {i : Instr} (hm : i.definedIn m = true)
    (h : w &&& i.row.mask = i.row.pattern) : (decode m w).map Instr.row = some i.row := by
  cases i with
  | sa | sna | sma | sr | sx | la | lna | lma | lnma | lr | lxm | lx | orA | xorA | andA | mlu | lxi =>
    dsimp only [Instr.row] at h
    exact congrArg (Option.map Instr.row) (decode_of_maskF _ h)
  | sz | snz | sp1 | sn1 | sfs | sfz | sas | saz =>
    dsimp only [Instr.row] at h
    exact congrArg (Option.map Instr.row) (decode_of_maskFA _ h)
  | ds | dl | er | srs | lrs | ssc | dsc | ssl | dsl | ssa | dsa | lsc | dlsc | lssc | ldsc | lssl | ldsl =>
    dsimp only [Instr.row] at h
    exact congrArg (Option.map Instr.row) (decode_of_maskFJ _ h)
  | laqw | saqw =>
    obtain rfl : m = .extended := eq_of_beq hm
    dsimp only [Instr.row] at h
    exact congrArg (Option.map Instr.row) (decode_of_maskFJ _ h)
  | nopB | aaijB =>
    obtain rfl : m = .basic := eq_of_beq hm
    dsimp only [Instr.row] at h
    exact congrArg (Option.map Instr.row) (decode_of_maskFJ _ h)
  | send | sgnl | halt | paij =>
    dsimp only [Instr.row] at h
    exact congrArg (Option.map Instr.row) (decode_of_maskFJA _ h)
  | locl | call | goto | nopE | rtn | aaijE =>
    obtain rfl : m = .extended := eq_of_beq hm
    dsimp only [Instr.row] at h
    exact congrArg (Option.map Instr.row) (decode_of_maskFJA _ h)

/-- R148: a row accepts exactly the words that decode to an instruction of the row. -/
theorem accepts_row_iff {m : Mode} {w : Word} {i : Instr} :
    i.row.accepts m w = true ↔ (decode m w).map Instr.row = some i.row := by
  rw [OpcodeRow.accepts_iff, Instr.inMode_row]
  constructor
  · rintro ⟨hm, h⟩
    exact decode_of_pattern hm h
  · intro h
    obtain ⟨i', hd, hrow⟩ := Option.map_eq_some_iff.1 h
    obtain ⟨hm, rfl⟩ := encode_of_decode hd
    rw [← Instr.inMode_row, ← hrow, Instr.inMode_row]
    exact ⟨hm, encode_and_mask i'⟩

theorem row_mem_opcodeTable (i : Instr) : i.row ∈ opcodeTable := by
  cases i <;> exact List.elem_iff.1 rfl

theorem exists_row_of_mem {r : OpcodeRow} (h : r ∈ opcodeTable) : ∃ i : Instr, i.row = r := by
  obtain ⟨i, -, hi⟩ := List.mem_map.1 h
  exact ⟨i, hi⟩

theorem opcodeTable_nodup : opcodeTable.Nodup :=
  .of_map OpcodeRow.pattern (by decide)

/-- Settles O3: by `accepts_row_iff` the rows that accept a word are those equal to the row of its instruction, and the
table lists no row twice. -/
theorem decodingIsTheUniqueTableRow : Obligations.DecodingIsTheUniqueTableRow := by
  intro m w
  have haccepts : ∀ r ∈ opcodeTable, (r.accepts m w = true ↔ (decode m w).map Instr.row = some r) := by
    intro r hr
    obtain ⟨i, rfl⟩ := exists_row_of_mem hr
    exact accepts_row_iff
  cases hd : decode m w with
  | none =>
    rw [hd] at haccepts
    exact List.filter_eq_nil_iff.2 fun r hr hacc => nomatch (haccepts r hr).1 hacc
  | some i =>
    have heq : ∀ r ∈ opcodeTable, r.accepts m w = (r == i.row) := by
      intro r hr
      rw [Bool.eq_iff_iff, haccepts r hr, hd, beq_iff_eq, Option.map_some, Option.some_inj, eq_comm]
    rw [List.filter_congr heq, List.filter_beq, List.count_eq_one_of_mem opcodeTable_nodup (row_mem_opcodeTable i)]
    rfl

/-! ## Samples -/

/-- Settles O4: each word is evaluated. -/
theorem sampleWordsDecode : Obligations.SampleWordsDecode := by
  unfold Obligations.SampleWordsDecode
  decide

end Sys2Proof
end

section
/-! PROOFS. The cycle and the faults of instructions: what a step does with a fetched word (R149, R161), that an
abandoned instruction leaves only its request (R162), and that no instruction, step or fetch of a processor with valid
descriptors runs into absent storage (R35, R36, R80). -/

namespace Sys2Proof.Machine

/-! ## A fetched word -/

theorem step_of_fetches {s : State} {w : Word} (h : s.Fetches w) : step s = runWord w s.fetched := by
  obtain ⟨hrun, hsel, hw⟩ := h
  simp only [step, hrun, cycle, hsel, hw]

theorem runWord_of_decode {s : State} {w : Word} {i : Instr} (h : decode s.mode w = some i) :
    runWord w s = exec i s := by
  simp only [runWord, h]

theorem runWord_of_undefined {s : State} {w : Word} (h : decode s.mode w = none) :
    runWord w s = .next (s.enqueue (invalidInstruction 0 w)) := by
  simp only [runWord, h]

/-- Settles O5. -/
theorem stepRunsTheDecodedInstruction : Obligations.StepRunsTheDecodedInstruction := by
  intro s w i hf hd
  exact (step_of_fetches hf).trans (runWord_of_decode hd)

/-- Settles O6: by `decodingIsTheUniqueTableRow` a word that no row accepts does not decode. -/
theorem undefinedWordsRaiseInvalidInstruction : Obligations.UndefinedWordsRaiseInvalidInstruction := by
  intro s w hf hrows
  have hnone : decode s.mode w = none := by
    have hfilter := decodingIsTheUniqueTableRow s.mode w
    rw [List.filter_eq_nil_iff.2 fun r hr => Bool.eq_false_iff.1 (hrows r hr)] at hfilter
    exact Option.toList_eq_nil_iff.1 (List.map_eq_nil_iff.1 hfilter.symm)
  exact (step_of_fetches hf).trans (runWord_of_undefined hnone)

/-! ## What an abandoned instruction leaves -/

theorem SameControl.pending {s t : State} (h : SameControl s t) : t.pending = s.pending := by
  obtain ⟨-, -, -, hpending, -⟩ := h
  exact hpending

/-- An instruction keeps its own PENDING, is abandoned with a request that is no signal, or is ER or SGNL and completes
with its signal. -/
theorem exec_pending {i : Instr} {s t : State} (h : exec i s = .next t) :
    t.pending = s.pending ∨ (∃ c, c.cls ≠ 12 ∧ t = s.enqueue c) ∨
      ∃ c, c.cls = 12 ∧ t.pending = s.pending.enqueue c ∧ ((∃ a o, i = .er a o) ∨ ∃ o, i = .sgnl o) := by
  rcases exec_cases h with ⟨c, rfl, hr⟩ | ⟨u, hu, hc⟩
  · exact .inr (.inl ⟨c, hr.cls_ne, rfl⟩)
  · rcases hc.control hu with ht | ⟨_, _, _, _, _, ht⟩ | ⟨_, _, _, _, _, _, ht⟩ | ⟨_, _, _, _, ht⟩ |
      ⟨o, v, ssf, hi, ht⟩ | ⟨_, _, _, ht⟩ | ⟨_, _, _, _, ht⟩
    · exact .inl ht.pending
    · exact .inl ht.pending
    · exact .inl ht.pending
    · exact .inl ht.pending
    · exact .inr (.inr ⟨signal ssf v, rfl, ht.pending, hi.imp (fun ⟨a, ha⟩ => ⟨a, o, ha⟩) fun ho => ⟨o, ho⟩⟩)
    · exact .inl ht.pending
    · exact .inl ht.pending

/-- Settles O11: `exec_pending` for an instruction; in a step a fault of the fetch or of the decoder adds its request
alone too. -/
theorem abandonedInstructionsOnlyQueue : Obligations.AbandonedInstructionsOnlyQueue := by
  constructor
  · intro i s t h hne
    rcases exec_pending h with hp | ⟨c, hc, rfl⟩ | ⟨c, hc, hp, hi⟩
    · exact absurd hp hne
    · exact ⟨c, rfl, fun _ => rfl, fun h12 => absurd h12 hc⟩
    · exact ⟨c, hp, fun hne => absurd hc hne, fun _ => hi⟩
  · intro s t hrun hsel h hne
    cases step_stepCase h with
    | rests hr => exact absurd hrun hr
    | dispatches q _ hq => exact nomatch hsel.symm.trans hq
    | executes i _ _ he =>
      rcases exec_pending he with hp | ⟨c, hc, rfl⟩ | ⟨c, hc, hp, -⟩
      · exact absurd hp hne
      · exact ⟨c, rfl, fun _ => ⟨rfl, rfl, rfl, rfl, rfl⟩⟩
      · exact ⟨c, hp, fun hne => absurd hc hne⟩
    | undefinedWord | fetchFaults | entryFaults => exact ⟨_, rfl, fun _ => ⟨rfl, rfl, rfl, rfl, rfl⟩⟩

/-! ## Attempts that meet no absent storage -/

/-- An attempt that does not run into absent storage. -/
def InStorage {α : Type} (x : Attempt α) : Prop := ∀ a, x ≠ .error (.absentStorage a)

theorem InStorage.ok {α : Type} (a : α) : InStorage (.ok a : Attempt α) := nofun

theorem InStorage.interrupt {α : Type} (c : Cause) : InStorage (.error (.interrupt c) : Attempt α) := nofun

theorem InStorage.of_eq_ok {α : Type} {x : Attempt α} {a : α} (h : x = .ok a) : InStorage x := h ▸ .ok a

theorem InStorage.bind {α β : Type} {x : Attempt α} {f : α → Attempt β} (hx : InStorage x)
    (hf : ∀ a, x = .ok a → InStorage (f a)) : InStorage (x >>= f) := by
  intro e h
  rcases Attempt.bind_eq_error.1 h with h | ⟨a, ha, h⟩
  · exact hx e h
  · exact hf a ha e h

theorem State.DescriptorsValid.base {s : State} (hs : s.DescriptorsValid) (k : BaseIndex) :
    (s.base k).valid s.params.memSize = true := by
  obtain ⟨hb, -⟩ := hs
  exact hb k

theorem SameControl.descriptorsValid {s t : State} (h : SameControl s t) (hs : s.DescriptorsValid) :
    t.DescriptorsValid := by
  obtain ⟨hb, hbdt⟩ := hs
  constructor
  · intro k
    rw [h.base, h.params]
    exact hb k
  · rw [h.bdt, h.params]
    exact hbdt

/-! ### Checks and references -/

theorem inStorage_requirePrivilege (iw : Word) (s : State) : InStorage (requirePrivilege iw s) :=
  fun _ h => nomatch (requirePrivilege_eq_error.1 h).2

theorem inStorage_requireField (iw : Word) (j : BitVec 4) : InStorage (requireField iw j) :=
  fun _ h => nomatch (requireField_eq_error.1 h).2

theorem inStorage_requireIndex (iw : Word) (o : Operand) : InStorage (requireIndex iw o) :=
  fun _ h => nomatch (requireIndex_eq_error.1 h).2

theorem inStorage_lookup (s : State) (n : BankName) : InStorage (s.lookup n) :=
  fun _ h => nomatch (State.lookup_eq_error.1 h).2

theorem inStorage_grsPrivilege (s : State) (is : List GrsIndex) : InStorage (s.grsPrivilege is) := by
  intro a h
  obtain ⟨i, -, hc⟩ := grsPrivilege_eq_error.1 h
  cases hc

theorem inStorage_reference (s : State) (kind : Access) (n : Nat) (o : Operand) (u : RelAddr) :
    InStorage (s.reference kind n o u) := by
  intro a h
  obtain ⟨_, _, _, hc⟩ := reference_eq_error h
  cases hc

/-! ### The resolver -/

section
variable {s : State} (hs : s.DescriptorsValid)
include hs

theorem inStorage_indirectRead (o : Operand) (u : RelAddr) : InStorage (s.indirectRead o u) :=
  (inStorage_reference s .read 1 o u).bind fun _ hr =>
    .of_eq_ok (readRef_wordAt (reference_hasStorage hs hr) (by omega))

theorem inStorage_chase (n : Nat) (o : Operand) : InStorage (chase n o s) := by
  induction n generalizing o s with
  | zero => exact .ok _
  | succ n ih =>
    have hi := index_indexedFrom o.x o.h (o.u.setWidth 18) s
    rw [chase]
    generalize index o.x o.h (o.u.setWidth 18) s = p at hi ⊢
    obtain ⟨u, t⟩ := p
    have ht := hi.1.descriptorsValid hs
    dsimp only
    split
    · split
      · exact ih ht _
      · next e h =>
        intro a ha
        cases ha
        exact inStorage_indirectRead ht o u a h
    · exact .ok _

theorem inStorage_resolveAddress (o : Operand) : InStorage (resolveAddress o s) := by
  unfold resolveAddress
  cases s.mode with
  | basic => exact inStorage_chase hs _ o
  | extended => exact .ok _

theorem inStorage_resolve (kind : Access) (n : Nat) (o : Operand) : InStorage (resolve kind n o s) :=
  (inStorage_resolveAddress hs o).bind fun _ _ => (inStorage_reference _ _ _ _ _).bind fun _ _ => .ok _

/-- The words of a resolved reference exist. -/
theorem resolve_hasStorage {kind : Access} {n : Nat} {o : Operand} {r : Ref} {t : State}
    (h : resolve kind n o s = .ok (r, t)) : t.HasStorage r n := by
  have ht := (resolve_indexedFrom h).1.descriptorsValid hs
  obtain ⟨u, -, hr⟩ := resolve_eq_ok.1 h
  exact reference_hasStorage ht hr

theorem inStorage_readFullWord (o : Operand) : InStorage (readFullWord o s) :=
  (inStorage_resolve hs .read 1 o).bind fun _ hr =>
    .bind (.of_eq_ok (readRef_wordAt (resolve_hasStorage hs hr) (by omega))) fun _ _ => .ok _

theorem inStorage_readDoubleWord (o : Operand) : InStorage (readDoubleWord o s) :=
  (inStorage_resolve hs .read 2 o).bind fun _ hr =>
    .bind (.of_eq_ok (readRef_wordAt (resolve_hasStorage hs hr) (by omega))) fun _ _ =>
      .bind (.of_eq_ok (readRef_wordAt (resolve_hasStorage hs hr) (by omega))) fun _ _ => .ok _

theorem inStorage_readOperand (j : BitVec 4) (o : Operand) : InStorage (readOperand j o s) := by
  unfold readOperand
  split
  · exact (inStorage_readFullWord hs o).bind fun _ _ => .ok _
  · exact .ok _

/-! ### The Return Control Stack -/

/-- The two words that a push writes lie in the stack's bank. -/
theorem inStorage_push (w : Word × Word) : InStorage (s.push w) := by
  cases hp : s.canPush with
  | false =>
    rw [State.push, hp]
    exact .interrupt _
  | true =>
    obtain ⟨hv, hl, hu⟩ := State.canPush_iff.1 hp
    refine .of_eq_ok (s.push_ok w hp ?_)
    have := Descriptor.translate_lt (a := (s.reg 0o140).low.toNat - 1) (hs.base 25) hv (by omega) (by omega)
    unfold Descriptor.translate at this
    omega

/-- The two words that a pop reads lie in the stack's bank. -/
theorem inStorage_pop : InStorage s.pop := by
  cases hp : s.canPop with
  | false =>
    rw [State.pop, hp]
    exact .interrupt _
  | true =>
    obtain ⟨hv, hl, hu⟩ := State.canPop_iff.1 hp
    refine .of_eq_ok (State.pop_ok hp ?_)
    have := Descriptor.translate_lt (a := (s.reg 0o140).low.toNat + 1) (hs.base 25) hv (by omega) (by omega)
    unfold Descriptor.translate at this
    omega

/-! ### The templates -/

theorem inStorage_loadOperand (j : BitVec 4) (o : Operand) (put : State → Word → State) :
    InStorage (loadOperand j o s put) :=
  (inStorage_readOperand hs j o).bind fun _ _ => .ok _

theorem inStorage_storeOperand (iw : Word) (j : BitVec 4) (o : Operand) (value : State → Word) :
    InStorage (storeOperand iw j o s value) :=
  (inStorage_requireField iw j).bind fun _ _ => (inStorage_resolve hs .write 1 o).bind fun _ hr =>
    .bind (.of_eq_ok (writeField_store (resolve_hasStorage hs hr) _ _)) fun _ _ => .ok _

theorem inStorage_shiftSingle (a : BitVec 4) (o : Operand) (f : Word → Nat → Word) : InStorage (shiftSingle a o s f) :=
  (inStorage_resolveAddress hs o).bind fun _ _ => .ok _

theorem inStorage_shiftDouble (a : BitVec 4) (o : Operand) (f : BitVec 72 → Nat → BitVec 72) :
    InStorage (shiftDouble a o s f) :=
  (inStorage_resolveAddress hs o).bind fun _ _ => .ok _

theorem inStorage_signalling (ssf : BitVec 6) (o : Operand) : InStorage (signalling ssf o s) :=
  (inStorage_resolveAddress hs o).bind fun _ _ => .ok _

theorem inStorage_checkOperand (o : Operand) : InStorage (checkOperand o s) :=
  (inStorage_resolve hs .check 1 o).bind fun _ _ => .ok _

theorem inStorage_setDeferrableAndJump (iw : Word) (o : Operand) (enabled : Bool) :
    InStorage (setDeferrableAndJump iw o s enabled) :=
  (inStorage_requirePrivilege iw s).bind fun _ _ => (inStorage_resolveAddress hs o).bind fun _ _ => .ok _

/-- A block stored at a resolved reference of its length. -/
theorem inStorage_writeBlock {n : Nat} {o : Operand} {r : Ref} {t : State} (h : resolve .write n o s = .ok (r, t))
    (ws : List Word) (hn : ws.length = n) : InStorage (t.writeBlock r 0 ws) :=
  .of_eq_ok (writeBlock_store (resolve_hasStorage hs h) 0 ws (by omega))

/-! ### Instructions with a meaning of their own -/

theorem laqw_answers (a : BitVec 4) (o : Operand) : ∃ t, exec (.laqw a o) s = .next t :=
  conclude_next_of_noAbsent <| (inStorage_requireIndex _ o).bind fun _ _ =>
    (inStorage_readFullWord hs o).bind fun _ _ => .ok _

theorem saqw_answers (a : BitVec 4) (o : Operand) : ∃ t, exec (.saqw a o) s = .next t :=
  conclude_next_of_noAbsent <| (inStorage_requireIndex _ o).bind fun _ _ =>
    (inStorage_resolve hs .write 1 o).bind fun _ hr =>
      .bind (.of_eq_ok (writeField_store (resolve_hasStorage hs hr) _ _)) fun _ _ => .ok _

theorem locl_answers (o : Operand) : ∃ t, exec (.locl o) s = .next t :=
  conclude_next_of_noAbsent <| (inStorage_resolveAddress hs o).bind fun _ hr =>
    (inStorage_push ((resolveAddress_indexedFrom hr).1.descriptorsValid hs) _).bind fun _ _ => .ok _

theorem call_answers (o : Operand) : ∃ t, exec (.call o) s = .next t :=
  conclude_next_of_noAbsent <| (inStorage_readFullWord hs o).bind fun _ hr =>
    (inStorage_lookup _ _).bind fun _ _ =>
      (inStorage_push ((readFullWord_indexedFrom hr).1.descriptorsValid hs) _).bind fun _ _ => .ok _

theorem goto_answers (o : Operand) : ∃ t, exec (.goto o) s = .next t :=
  conclude_next_of_noAbsent <| (inStorage_readFullWord hs o).bind fun _ _ =>
    (inStorage_lookup _ _).bind fun _ _ => .ok _

theorem rtn_answers (o : Operand) : ∃ t, exec (.rtn o) s = .next t :=
  conclude_next_of_noAbsent <| (inStorage_pop hs).bind fun _ _ => (inStorage_lookup _ _).bind fun _ _ => .ok _

theorem ds_answers (a : BitVec 4) (o : Operand) : ∃ t, exec (.ds a o) s = .next t :=
  conclude_next_of_noAbsent <| (inStorage_resolve hs .write 2 o).bind fun _ hr =>
    (inStorage_writeBlock hs hr _ rfl).bind fun _ _ => .ok _

theorem dl_answers (a : BitVec 4) (o : Operand) : ∃ t, exec (.dl a o) s = .next t :=
  conclude_next_of_noAbsent <| (inStorage_readDoubleWord hs o).bind fun _ _ => .ok _

theorem srs_answers (a : BitVec 4) (o : Operand) : ∃ t, exec (.srs a o) s = .next t := by
  refine conclude_next_of_noAbsent ?_
  dsimp only
  split
  · exact InStorage.ok _
  · exact (inStorage_grsPrivilege s _).bind fun _ _ => (inStorage_resolve hs .write _ o).bind fun _ hr =>
      (inStorage_writeBlock hs hr _ (List.length_map _)).bind fun _ _ => .ok _

theorem lrs_answers (a : BitVec 4) (o : Operand) : ∃ t, exec (.lrs a o) s = .next t := by
  refine conclude_next_of_noAbsent ?_
  dsimp only
  split
  · exact InStorage.ok _
  · exact (inStorage_grsPrivilege s _).bind fun _ _ => (inStorage_resolve hs .read _ o).bind fun _ hr =>
      .bind (.of_eq_ok (readBlock_wordAt (resolve_hasStorage hs hr) 0 _ (by omega))) fun _ _ => .ok _

theorem lsc_answers (a : BitVec 4) (o : Operand) : ∃ t, exec (.lsc a o) s = .next t :=
  conclude_next_of_noAbsent <| (inStorage_readFullWord hs o).bind fun _ _ => .ok _

theorem dlsc_answers (a : BitVec 4) (o : Operand) : ∃ t, exec (.dlsc a o) s = .next t :=
  conclude_next_of_noAbsent <| (inStorage_readDoubleWord hs o).bind fun _ _ => .ok _

theorem send_answers (o : Operand) : ∃ t, exec (.send o) s = .next t := by
  refine conclude_next_of_noAbsent <| (inStorage_resolveAddress hs o).bind fun (u, t) _ => ?_
  dsimp only
  split
  · exact .ok _
  · split
    · exact .ok _
    · split
      · exact .ok _
      · exact .interrupt _

theorem halt_answers (o : Operand) : ∃ t, exec (.halt o) s = .next t :=
  conclude_next_of_noAbsent <| (inStorage_requirePrivilege _ s).bind fun _ _ =>
    (inStorage_resolveAddress hs o).bind fun _ _ => .ok _

/-! ## Every instruction answers -/

/-- With valid descriptors every instruction ends in a next state. -/
theorem exec_answers (i : Instr) : ∃ t, exec i s = .next t := by
  cases i with
  | sa j a o | sna j a o | sma j a o | sr j a o | sx j a o =>
    exact conclude_next_of_noAbsent (inStorage_storeOperand hs _ j o _)
  | sz j o | snz j o | sp1 j o | sn1 j o | sfs j o | sfz j o | sas j o | saz j o =>
    exact conclude_next_of_noAbsent (inStorage_storeOperand hs _ j o _)
  | la j a o | lna j a o | lma j a o | lnma j a o | lr j a o | lxm j a o | lx j a o | lxi j a o =>
    exact conclude_next_of_noAbsent (inStorage_loadOperand hs j o _)
  | orA j a o | xorA j a o | andA j a o | mlu j a o =>
    exact conclude_next_of_noAbsent (inStorage_loadOperand hs j o _)
  | ssc a o | ssl a o | ssa a o | lssc a o | lssl a o =>
    exact conclude_next_of_noAbsent (inStorage_shiftSingle hs a o _)
  | dsc a o | dsl a o | dsa a o | ldsc a o | ldsl a o =>
    exact conclude_next_of_noAbsent (inStorage_shiftDouble hs a o _)
  | er a o => exact conclude_next_of_noAbsent (inStorage_signalling hs 0 o)
  | sgnl o => exact conclude_next_of_noAbsent (inStorage_signalling hs 1 o)
  | nopE o => exact conclude_next_of_noAbsent (inStorage_checkOperand hs o)
  | nopB a o => exact conclude_next_of_noAbsent (inStorage_checkOperand hs o)
  | aaijB a o => exact conclude_next_of_noAbsent (inStorage_setDeferrableAndJump hs _ o true)
  | aaijE o => exact conclude_next_of_noAbsent (inStorage_setDeferrableAndJump hs _ o true)
  | paij o => exact conclude_next_of_noAbsent (inStorage_setDeferrableAndJump hs _ o false)
  | laqw a o => exact laqw_answers hs a o
  | saqw a o => exact saqw_answers hs a o
  | locl o => exact locl_answers hs o
  | call o => exact call_answers hs o
  | goto o => exact goto_answers hs o
  | rtn o => exact rtn_answers hs o
  | ds a o => exact ds_answers hs a o
  | dl a o => exact dl_answers hs a o
  | srs a o => exact srs_answers hs a o
  | lrs a o => exact lrs_answers hs a o
  | lsc a o => exact lsc_answers hs a o
  | dlsc a o => exact dlsc_answers hs a o
  | send o => exact send_answers hs o
  | halt o => exact halt_answers hs o

end

/-- Settles O17: of the invariant only the descriptors matter. -/
theorem everyInstructionAnswersNext : Obligations.EveryInstructionAnswersNext :=
  fun _ i hs => exec_answers hs.descriptors i

/-! ## Every step answers -/

/-- A fetch goes through a descriptor that covers PAR.PC (R110, R111). -/
theorem State.fetchBase_covers {s : State} {k : BaseIndex} (h : s.fetchBase = some k) :
    (s.base k).covers s.par.pc = true := by
  unfold State.fetchBase at h
  split at h
  · split at h
    · next hc =>
      cases h
      exact hc
    · cases h
  · exact List.find?_some (p := fun k => (s.base k).covers s.par.pc) h

theorem inStorage_fetchWord {s : State} (hs : s.DescriptorsValid) : InStorage s.fetchWord := by
  cases hb : s.fetchBase with
  | none =>
    rw [State.fetchWord_of_noBase hb]
    exact .interrupt _
  | some k =>
    rw [State.fetchWord_of_base hb]
    split
    · obtain ⟨hv, hl, hu⟩ := Descriptor.covers_eq_true.1 (State.fetchBase_covers hb)
      exact .of_eq_ok (State.memRead_eq_ok.2 ⟨Descriptor.translate_lt (hs.base k) hv hl hu, rfl⟩)
    · exact .interrupt _

/-- With valid descriptors every step ends in a next state. -/
theorem step_answers {s : State} (hs : s.DescriptorsValid) : ∃ t, step s = .next t := by
  by_cases hrun : s.run = .running
  · cases hsel : s.selected with
    | some q => exact ⟨s.dispatch q, by simp only [step, hrun, cycle, hsel]⟩
    | none =>
      cases hw : s.fetchWord with
      | ok w =>
        rw [step_of_fetches ⟨hrun, hsel, hw⟩]
        cases hd : decode s.fetched.mode w with
        | some i =>
          rw [runWord_of_decode hd]
          exact exec_answers (s := s.fetched) hs i
        | none => exact ⟨_, runWord_of_undefined hd⟩
      | error e =>
        cases e with
        | interrupt c => exact ⟨_, step_of_fetchWord_error hrun hsel hw⟩
        | absentStorage a => exact absurd hw (inStorage_fetchWord hs a)
  · exact ⟨s, step_of_not_running hrun⟩

/-! ## Valid descriptors are kept -/

theorem State.DescriptorsValid.setBase {s : State} (hs : s.DescriptorsValid) (k : BaseIndex) {d : Descriptor}
    (hd : d.valid s.params.memSize = true) : (s.setBase k d).DescriptorsValid := by
  obtain ⟨hb, hbdt⟩ := hs
  refine ⟨fun k' => ?_, hbdt⟩
  rw [State.base_setBase]
  split
  · exact hd
  · exact hb k'

theorem State.DescriptorsValid.of_findBank {s : State} (hs : s.DescriptorsValid) {n : BankName} {d : Descriptor}
    (h : findBank n s.bdt = some d) : d.valid s.params.memSize = true := by
  obtain ⟨-, hbdt⟩ := hs
  exact hbdt _ (findBank_mem h)

/-- An instruction loads B0 from the BDT, if it changes a base register at all (R316). -/
theorem exec_descriptorsValid {i : Instr} {s t : State} (hs : s.DescriptorsValid) (h : exec i s = .next t) :
    t.DescriptorsValid := by
  rcases exec_cases h with ⟨c, rfl, -⟩ | ⟨u, hu, hc⟩
  · exact hs
  · rcases hc.control hu with ht | ⟨_, _, d, _, hd, ht⟩ | ⟨_, _, d, _, _, hd, ht⟩ | ⟨_, _, _, _, ht⟩ |
      ⟨_, _, _, _, ht⟩ | ⟨_, _, _, ht⟩ | ⟨_, _, _, _, ht⟩
    · exact ht.descriptorsValid hs
    · exact ht.descriptorsValid (hs.setBase 0 (hs.of_findBank hd))
    · exact ht.descriptorsValid (hs.setBase 0 (hs.of_findBank hd))
    · exact ht.descriptorsValid hs
    · exact ht.descriptorsValid hs
    · exact ht.descriptorsValid hs
    · exact ht.descriptorsValid hs

theorem step_descriptorsValid {s t : State} (hs : s.DescriptorsValid) (h : step s = .next t) :
    t.DescriptorsValid := by
  cases step_stepCase h with
  | dispatches q _ _ => exact hs.setBase 0 (hs.base Config.interruptBase)
  | executes i _ _ he => exact exec_descriptorsValid (s := s.fetched) hs he
  | rests | undefinedWord | fetchFaults | entryFaults => exact hs

theorem LoadImage.acceptable_valid {l : LoadImage} {memSize : Nat} (h : l.acceptable memSize = true)
    {p : BankName × Descriptor} (hp : p ∈ l.table) : p.2.valid memSize = true := by
  simp only [LoadImage.acceptable, Bool.and_eq_true, List.all_eq_true] at h
  obtain ⟨⟨-, hbanks⟩, -⟩ := h
  obtain ⟨b, hb, rfl⟩ := List.mem_map.1 hp
  have hacc := hbanks b hb
  rw [LoadBank.acceptable, Bool.and_eq_true] at hacc
  exact hacc.1

/-- A load assigns a base register a bank of its table, or void (R471). -/
theorem LoadImage.descriptorFor_valid {l : LoadImage} {memSize : Nat} (hm : 0 < memSize)
    (h : l.acceptable memSize = true) (k : BaseIndex) : (l.descriptorFor k).valid memSize = true := by
  unfold LoadImage.descriptorFor
  split
  · next name _ =>
    cases hf : findBank name l.table with
    | some d => exact LoadImage.acceptable_valid h (findBank_mem hf)
    | none => exact Descriptor.void_valid hm
  · exact Descriptor.void_valid hm

/-- A load replaces all base registers and the BDT by descriptors that it has accepted (R36, R471). -/
theorem load_descriptorsValid {s t : State} {l : LoadImage} (hm : 0 < s.params.memSize) (h : s.load l = some t) :
    t.DescriptorsValid := by
  obtain ⟨-, hacc, -, rfl⟩ := State.load_eq_some.1 h
  have hparams : (s.setRegs l.initialGrs).params = s.params := (setRegs_sameControl s l.initialGrs).1.params
  constructor
  · intro k
    simp only [State.base, Vector.getElem_ofFn, State.setRegLow_params, hparams]
    exact l.descriptorFor_valid hm hacc _
  · intro p hp
    simp only [State.setRegLow_params, hparams]
    exact LoadImage.acceptable_valid hacc hp

/-- There is a descriptor, B0, and its base is below MEM_SIZE (R35). -/
theorem State.DescriptorsValid.memSize_pos {s : State} (hs : s.DescriptorsValid) : 0 < s.params.memSize := by
  have h0 := hs.base 0
  simp only [Descriptor.valid, Bool.and_eq_true, decide_eq_true_eq] at h0
  omega

theorem hostCall_descriptorsValid {c : HostCall} {s t : State} (hs : s.DescriptorsValid)
    (h : hostCall c s = some t) : t.DescriptorsValid := by
  rcases hostCall_cases h with ⟨l, -, hl⟩ | rfl | rfl | rfl | ⟨r, rfl⟩ | ⟨v, r, rfl⟩
  · exact load_descriptorsValid hs.memSize_pos hl
  all_goals exact hs

theorem created_descriptorsValid (g : Vector Word 128) {params : Params} (processors : List UpiIndex)
    (hm : 0 < params.memSize) : (State.created g params processors).DescriptorsValid := by
  refine ⟨fun k => ?_, nofun⟩
  rw [State.created_base]
  exact Descriptor.void_valid hm

theorem Reachable.descriptorsValid {s : State} (h : Reachable s) : s.DescriptorsValid := by
  induction h with
  | created g params processors hm => exact created_descriptorsValid g processors hm
  | step s t _ hst ih => exact step_descriptorsValid ih hst
  | host s t c _ hst ih => exact hostCall_descriptorsValid ih hst

/-- Settles O18: valid descriptors are an invariant, and all that a step needs. -/
theorem reachableStatesAlwaysStep : Obligations.ReachableStatesAlwaysStep :=
  fun _ hs => step_answers hs.descriptorsValid

end Sys2Proof.Machine
end

section
/-! PROOFS. Loads and stores: what the instructions of R200 to R235 do when they complete, and the traps that stop one
before its address is resolved (R150, R203, R213, R214, R234, R235, R403). An instruction's attempt is a sequence whose
parts answer as the laws of operands say; `completesInRegisters` and `completesInStore` turn its end into the claim. LRS
and SRS go through `registerSet_eq_map`, which numbers the registers that A(a) names. -/

namespace Sys2Proof.Machine

/-- An instruction whose attempt completes answers the state of its end (R160). -/
theorem exec_of_ok {i : Instr} {s t : State} {x : Attempt State} (hi : exec i s = conclude s x) (hx : x = .ok t) :
    exec i s = .next t := by
  rw [hi, hx, conclude_ok]

/-! ## One-word loads and stores -/

section
variable {i : Instr} {j : BitVec 4} {o : Operand} {s t : State}

/-- A load whose operand is read sets its one register (R200). -/
theorem load_completes {op v : Word} {k : GrsIndex} {put : State → Word → State}
    (hi : exec i s = conclude s (loadOperand j o s put)) (h : readOperand j o s = .ok (op, t))
    (hput : put t op = t.setReg k v) : CompletesInRegisters i s t [(k, v)] :=
  completesInRegisters (readOperand_indexedFrom h) (List.nodup_singleton _)
    (exec_of_ok hi (loadOperand_eq_ok.2 ⟨op, t, h, congrArg State.advance hput.symm⟩))

/-- A store whose reference is resolved and backed replaces the field there (R201). -/
theorem store_completes {iw v : Word} {r : Ref} {value : State → Word}
    (hi : exec i s = conclude s (storeOperand iw j o s value)) (hj : namesStorageField j = true)
    (h : resolve .write 1 o s = .ok (r, t)) (hr : t.HasStorage r 1) (hm : s.mem.wf = true) (hv : value t = v) :
    CompletesInStore i s t r [insertField (t.wordAt r 0) (wordField j s.quarterMode) v] := by
  rw [← (resolve_indexedFrom h).1.quarterMode, ← hv]
  exact completesInStore h hm (exec_of_ok hi (storeOperand_ok value hj h hr))

end

/-- Settles O35: each by `load_completes`, with the register numbers of the resolved state. -/
theorem loadsComplete : Obligations.LoadsComplete := by
  intro j a o s t op h
  have hc := (readOperand_indexedFrom h).1
  rw [← hc.aIndex a, ← hc.rIndex a, ← hc.xIndex a]
  refine ⟨?la, ?lna, ?lma, ?lnma, ?lr, ?lx, ?lxm, ?lxi⟩
  all_goals exact load_completes rfl h rfl

/-- Settles O39: each by `store_completes`, with the register numbers of the resolved state. -/
theorem storesComplete : Obligations.StoresComplete := by
  intro j a o s t r h₁ h₂ h hr hm put v
  have hc := (resolve_indexedFrom h).1
  have hj := namesStorageField_of_ne h₁ h₂
  have ha : t.reg (t.aIndex a) = v := by rw [hc.aIndex]
  have hreg : t.reg (t.rIndex a) = t.reg (s.rIndex a) := by rw [hc.rIndex]
  have hx : t.reg (t.xIndex a) = t.reg (s.xIndex a) := by rw [hc.xIndex]
  refine ⟨?sa, ?sna, ?sma, ?sr, ?sx, ?sz, ?snz, ?sp1, ?sn1, ?sfs, ?sfz, ?sas, ?saz⟩
  case sa => exact store_completes rfl hj h hr hm ha
  case sna => exact store_completes rfl hj h hr hm (congrArg (~~~·) ha)
  case sma => exact store_completes rfl hj h hr hm (congrArg magnitude ha)
  case sr => exact store_completes rfl hj h hr hm hreg
  case sx => exact store_completes rfl hj h hr hm hx
  all_goals exact store_completes rfl hj h hr hm rfl

/-! ## Double and quarter words -/

/-- Settles O36: both are sequences whose parts complete; DS takes its words from the first state. -/
theorem doubleWordInstructionsComplete : Obligations.DoubleWordInstructionsComplete := by
  intro a o s t r hr
  refine ⟨fun h => ?dl, fun h hm => ?ds⟩
  case dl =>
    have hx := resolve_indexedFrom h
    rw [← hx.1.aIndex a]
    exact completesInRegisters hx (by simp)
      (exec_of_ok rfl (Attempt.bind_of_ok (readDoubleWord_wordAt h hr) rfl))
  case ds =>
    exact completesInStore h hm (exec_of_ok rfl
      (Attempt.bind_of_ok h (Attempt.bind_of_ok (writeBlock_store hr 0 _ le_rfl) rfl)))

/-- The quarter that bits 31:30 of an index register select, read by masks (R213). -/
theorem extractField_quarterField (w xw : Word) :
    extractField w (quarterField xw) = (w >>> (27 - 9 * (xw.extractLsb' 30 2).toNat)) &&& 0o777 := by
  rw [quarterField_eq, extractField_quarter _ _ (BitVec.isLt _)]

/-- The quarter that bits 31:30 of an index register select, replaced by masks (R234). -/
theorem insertField_quarterField (w v xw : Word) :
    insertField w (quarterField xw) v =
      (w &&& ~~~((0o777 : Word) <<< (27 - 9 * (xw.extractLsb' 30 2).toNat))) |||
        ((v &&& 0o777) <<< (27 - 9 * (xw.extractLsb' 30 2).toNat)) := by
  rw [quarterField_eq, insertField_quarter _ _ _ (BitVec.isLt _)]

/-- Settles O37: the index check passes, the reference is read, and the quarter is that of the first state's X(x). -/
theorem quarterWordInstructionsComplete : Obligations.QuarterWordInstructionsComplete := by
  intro a o s t r hx hr
  dsimp only
  refine ⟨fun h => ?laqw, fun h hm => ?saqw⟩
  case laqw =>
    have ht := resolve_indexedFrom h
    rw [← ht.1.aIndex a, ← extractField_quarterField]
    exact completesInRegisters ht (List.nodup_singleton _) (exec_of_ok rfl
      (Attempt.bind_of_ok (requireIndex_eq_ok.2 hx) (Attempt.bind_of_ok (readFullWord_wordAt h hr) rfl)))
  case saqw =>
    rw [← (resolve_indexedFrom h).1.aIndex a, ← insertField_quarterField]
    exact completesInStore h hm (exec_of_ok rfl (Attempt.bind_of_ok (requireIndex_eq_ok.2 hx)
      (Attempt.bind_of_ok h (Attempt.bind_of_ok (writeField_store hr _ _) rfl))))

/-! ## Register sets -/

/-- Register `m` of those that the descriptors in A(a) name: the range of g1, then that of g2 (R214). -/
def namedRegister (d : Word) (m : Nat) : GrsIndex :=
  if m < (d.extractLsb' 9 7).toNat then d.extractLsb' 0 7 + BitVec.ofNat 7 m
  else d.extractLsb' 18 7 + BitVec.ofNat 7 (m - (d.extractLsb' 9 7).toNat)

theorem registerSet_eq_map (d : Word) :
    registerSet d = (List.range ((d.extractLsb' 9 7).toNat + (d.extractLsb' 27 7).toNat)).map (namedRegister d) := by
  rw [List.range_add, List.map_append, List.map_map, registerSet, grsRange, grsRange]
  congr 1
  · exact List.map_congr_left fun m hm => (if_pos (List.mem_range.1 hm)).symm
  · exact List.map_congr_left fun m _ => by simp [namedRegister]

/-- The registers of a set by number (R214). -/
theorem mem_registerSet {d : Word} {g : GrsIndex} :
    g ∈ registerSet d ↔
      (∃ m, m < (d.extractLsb' 9 7).toNat ∧ g.toNat = ((d.extractLsb' 0 7).toNat + m) % 128) ∨
        ∃ m, m < (d.extractLsb' 27 7).toNat ∧ g.toNat = ((d.extractLsb' 18 7).toNat + m) % 128 := by
  simp only [registerSet, List.mem_append, mem_grsRange, ← BitVec.toNat_inj, toNat_register_add]

/-- The privilege test of a set, register by register (R214, R235). -/
theorem firstForbidden_namedRegisters {s : State} {d : Word}
    (h : s.pp.toNat < 2 ∨
      ∀ m : Nat, m < (d.extractLsb' 9 7).toNat + (d.extractLsb' 27 7).toNat → (namedRegister d m).toNat < 0o120) :
    s.firstForbidden (registerSet d) = none := by
  refine State.firstForbidden_eq_none.2 (h.imp_right fun h g hg => ?_)
  rw [registerSet_eq_map] at hg
  obtain ⟨m, hm, rfl⟩ := List.mem_map.1 hg
  exact h m (List.mem_range.1 hm)

/-- Registers loaded one list after another. -/
theorem loadRegs_append {s : State} {is is' : List GrsIndex} {ws ws' : List Word} (h : is.length = ws.length) :
    s.loadRegs (is ++ is') (ws ++ ws') = (s.loadRegs is ws).loadRegs is' ws' := by
  induction is generalizing s ws with
  | nil =>
    obtain rfl := List.length_eq_zero_iff.1 h.symm
    rfl
  | cons i is ih =>
    obtain ⟨w, ws, rfl⟩ := List.exists_cons_of_length_eq_add_one h.symm
    exact ih (Nat.succ.inj h)

/-- Of several loads of one register the last counts (R214). -/
theorem loadRegs_reg_of_last {s : State} {target : Nat → GrsIndex} {word : Nat → Word} {n m : Nat} (hm : m < n)
    (hlast : ∀ m', m < m' → m' < n → target m' ≠ target m) :
    (s.loadRegs ((List.range n).map target) ((List.range n).map word)).reg (target m) = word m := by
  induction n with
  | zero => omega
  | succ n ih =>
    rw [List.range_succ, List.map_append, List.map_append, loadRegs_append (by simp)]
    change (State.setReg _ (target n) (word n)).reg (target m) = word m
    by_cases hmn : m = n
    · rw [hmn, State.reg_setReg_self]
    · rw [State.reg_setReg_ne (hlast n (by omega) (by omega)).symm]
      exact ih (by omega) fun m' h h' => hlast m' h (by omega)

section
variable {a : BitVec 4} {o : Operand} {s t : State} {r : Ref} {rs : List GrsIndex}

/-- With no register named LRS and SRS only advance (R214, R235). -/
theorem registerSet_completes_of_empty (h : registerSet (s.reg (s.aIndex a)) = []) :
    CompletesInRegisters (.lrs a o) s s [] ∧ CompletesInRegisters (.srs a o) s s [] :=
  ⟨completesInRegisters (.refl s) List.nodup_nil (exec_of_ok rfl (if_pos h)),
    completesInRegisters (.refl s) List.nodup_nil (exec_of_ok rfl (if_pos h))⟩

/-- LRS loads the words of its reference into the registers that A(a) names. -/
theorem exec_lrs (hrs : registerSet (s.reg (s.aIndex a)) = rs) (hne : rs ≠ []) (hp : s.firstForbidden rs = none)
    (h : resolve .read rs.length o s = .ok (r, t)) (hr : t.HasStorage r rs.length) :
    exec (.lrs a o) s = .next (t.loadRegs rs ((List.range rs.length).map (t.wordAt r))).advance := by
  subst hrs
  have hread := readBlock_wordAt hr 0 _ (Nat.zero_add _).le
  simp only [Nat.zero_add] at hread
  exact exec_of_ok rfl ((if_neg hne).trans (Attempt.bind_of_ok (grsPrivilege_eq_ok.2 hp)
    (Attempt.bind_of_ok h (Attempt.bind_of_ok hread rfl))))

/-- SRS stores the registers that A(a) names, with their values of the first state. -/
theorem exec_srs (hrs : registerSet (s.reg (s.aIndex a)) = rs) (hne : rs ≠ []) (hp : s.firstForbidden rs = none)
    (h : resolve .write rs.length o s = .ok (r, t)) (hr : t.HasStorage r rs.length) :
    exec (.srs a o) s = .next (t.store r 0 (rs.map s.reg)).advance := by
  subst hrs
  exact exec_of_ok rfl ((if_neg hne).trans (Attempt.bind_of_ok (grsPrivilege_eq_ok.2 hp)
    (Attempt.bind_of_ok h (Attempt.bind_of_ok (writeBlock_store hr 0 _ (by simp)) rfl))))

end

/-- Settles O38: by `exec_lrs` only registers are loaded, and `loadRegs_reg_of_last` says what they hold. -/
theorem loadRegisterSetCompletes : Obligations.LoadRegisterSetCompletes := by
  intro a o s d c1 c2 target
  have hlen : (registerSet d).length = c1 + c2 := length_registerSet d
  refine ⟨fun hzero => ?empty, fun t r hpos hallowed h hr => ?named⟩
  case empty =>
    exact (registerSet_completes_of_empty (List.eq_nil_of_length_eq_zero (hlen.trans hzero))).1
  case named =>
    have hne : registerSet d ≠ [] := List.ne_nil_of_length_pos (by omega)
    have hset : registerSet d = (List.range (c1 + c2)).map target := registerSet_eq_map d
    obtain ⟨hc, hpar, hmem, -⟩ := resolve_indexedFrom h
    have he := exec_lrs rfl hne (firstForbidden_namedRegisters hallowed) (hlen.symm ▸ h) (hlen.symm ▸ hr)
    rw [hlen, hset] at he
    obtain ⟨hc', hpar', hmem'⟩ := loadRegs_sameControl t ((List.range (c1 + c2)).map target)
      ((List.range (c1 + c2)).map (t.wordAt r))
    refine ⟨_, he, resolve_indexedFrom h, ?_, fun x => ?_, hc.trans hc', fun m hm hlast => ?_, fun k hk => ?_⟩
    · rw [Advanced, State.advance_par, hpar', hpar]
    · rw [State.advance_mem, hmem', hmem]
    · exact loadRegs_reg_of_last hm hlast
    · refine loadRegs_reg_of_not_mem fun hnamed => ?_
      obtain ⟨m, hm, rfl⟩ := List.mem_map.1 hnamed
      exact hk m (List.mem_range.1 hm) rfl

/-- Settles O40: by `exec_srs`, over the registers of `registerSet_eq_map`. -/
theorem storeRegisterSetCompletes : Obligations.StoreRegisterSetCompletes := by
  intro a o s d c1 c2 source
  have hlen : (registerSet d).length = c1 + c2 := length_registerSet d
  refine ⟨fun hzero => ?empty, fun t r hpos hallowed h hr hm => ?named⟩
  case empty =>
    exact (registerSet_completes_of_empty (List.eq_nil_of_length_eq_zero (hlen.trans hzero))).2
  case named =>
    have hne : registerSet d ≠ [] := List.ne_nil_of_length_pos (by omega)
    have hvalues : (registerSet d).map s.reg = (List.range (c1 + c2)).map fun m => s.reg (source m) := by
      rw [registerSet_eq_map, List.map_map]
      rfl
    rw [← hvalues]
    exact completesInStore h hm
      (exec_srs rfl hne (firstForbidden_namedRegisters hallowed) (hlen.symm ▸ h) (hlen.symm ▸ hr))

/-! ## Traps before the address -/

/-- LRS and SRS are abandoned with the register that the privilege test reports (R214, R235, R405). -/
theorem registerSet_abandons {a : BitVec 4} {o : Operand} {s : State} {g : GrsIndex}
    (h : s.firstForbidden (registerSet (s.reg (s.aIndex a))) = some g) :
    Abandons (.lrs a o) s (referenceViolation 5 (g.setWidth 36) 0) ∧
      Abandons (.srs a o) s (referenceViolation 5 (g.setWidth 36) 0) := by
  have hne : registerSet (s.reg (s.aIndex a)) ≠ [] := List.ne_nil_of_mem (State.firstForbidden_eq_some h).1
  have hp := grsPrivilege_eq_error.2 ⟨g, h, rfl⟩
  exact ⟨abandons_of_error rfl ((if_neg hne).trans (Attempt.bind_of_error hp)),
    abandons_of_error rfl ((if_neg hne).trans (Attempt.bind_of_error hp))⟩

/-- Settles O58: the privilege test finds a protected register, since one is named. -/
theorem registerSetPrivilegeFaults : Obligations.RegisterSetPrivilegeFaults := by
  intro a o s hpp d named hprotected
  have hmem (g : GrsIndex) : g ∈ registerSet d ↔ named g.toNat := mem_registerSet
  cases hf : s.firstForbidden (registerSet d) with
  | none =>
    obtain ⟨k, hk, hge⟩ := hprotected
    have hlt : k < 2 ^ 7 := by
      rcases hk with ⟨m, -, rfl⟩ | ⟨m, -, rfl⟩ <;> exact Nat.mod_lt _ (by decide)
    have hnat : (BitVec.ofNat 7 k).toNat = k := (BitVec.toNat_ofNat k 7).trans (Nat.mod_eq_of_lt hlt)
    have := (State.firstForbidden_eq_none.1 hf).resolve_left (by omega) _ ((hmem _).2 (hnat.symm ▸ hk))
    omega
  | some g =>
    obtain ⟨hg, hge⟩ := State.firstForbidden_eq_some hf
    refine ⟨g.toNat, (hmem g).1 hg, hge, ?_⟩
    rw [BitVec.ofNat_toNat]
    exact registerSet_abandons hf

/-- An instruction that needs PP 0 is abandoned elsewhere (R403). -/
theorem privileged_refused {i : Instr} {s : State} (hi : i.privileged = true) (hpp : s.pp ≠ 0) :
    Abandons i s ⟨14, 1, encode i, 0⟩ := by
  have hp : requirePrivilege (encode i) s = .error (.interrupt (invalidInstruction 1 (encode i))) :=
    requirePrivilege_eq_error.2 ⟨hpp, rfl⟩
  cases i with
  | aaijB | aaijE | paij | halt => exact abandons_of_error rfl (Attempt.bind_of_error hp)
  | _ => cases hi

/-- An instruction with a forbidden operand form is abandoned (R150, R203, R213, R234). -/
theorem form_refused {i : Instr} {s : State} (hi : i.operandFormOk = false) :
    Abandons i s ⟨14, 2, encode i, 0⟩ := by
  cases i with
  | sa | sna | sma | sr | sx | sz | snz | sp1 | sn1 | sfs | sfz | sas | saz =>
    exact abandons_of_error rfl (Attempt.bind_of_error (requireField_eq_error.2 ⟨hi, rfl⟩))
  | laqw | saqw =>
    exact abandons_of_error rfl (Attempt.bind_of_error (requireIndex_eq_error.2 ⟨bne_eq_false_iff_eq.1 hi, rfl⟩))
  | _ => cases hi

/-- Settles O56: the decoded instruction's encoding is the fetched word, and its check comes first. -/
theorem privilegeAndFormFaults : Obligations.PrivilegeAndFormFaults := by
  intro s w i hf hd
  have hstep : step s = exec i s.fetched := (step_of_fetches hf).trans (runWord_of_decode hd)
  obtain ⟨-, rfl⟩ := encode_of_decode hd
  rw [hstep]
  refine ⟨fun hi hpp => privileged_refused ?_ hpp, fun hi => form_refused ?_⟩
  · rcases hi with ⟨a, o, rfl⟩ | ⟨o, rfl | rfl | rfl⟩ <;> rfl
  · rcases hi with ⟨j, a, o, hj, hi⟩ | ⟨a, o, hx, rfl | rfl⟩
    · have hj : namesStorageField j = false := by
        rcases hj with rfl | rfl <;> rfl
      rcases hi with rfl | rfl | rfl | rfl | rfl | rfl | rfl | rfl | rfl | rfl | rfl | rfl | rfl <;> exact hj
    all_goals simp [Instr.operandFormOk, hx]

end Sys2Proof.Machine
end

section
/-! PROOFS. The logical group (R260 to R264): an instruction of the group is a load whose one register is A(a)+1, so
`load_completes` turns its end into the claim. -/

namespace Sys2Proof.Machine

/-- A logical instruction whose operand is read sets A(a)+1 to its combination of A(a) and the operand, both register
numbers being those of the state it started from (R260). -/
theorem logical_completes {i : Instr} {j a : BitVec 4} {o : Operand} {s t : State} {op : Word}
    (combine : State → Word → Word → Word) (hi : exec i s = conclude s (logical j a o s combine))
    (h : readOperand j o s = .ok (op, t)) :
    CompletesInRegisters i s t [(s.aIndex a + 1, combine t (t.reg (s.aIndex a)) op)] := by
  rw [← (readOperand_indexedFrom h).1.aIndex a]
  exact load_completes hi h rfl

/-- Settles O41: each by `logical_completes`; the mask of MLU is R2 of the set that the first state selects. -/
theorem logicalInstructionsComplete : Obligations.LogicalInstructionsComplete := by
  intro j a o s t op h
  rw [← (readOperand_indexedFrom h).1.rIndex 2]
  refine ⟨?or, ?xor, ?and, ?mlu⟩
  case or => exact logical_completes (fun _ v op => v ||| op) rfl h
  case xor => exact logical_completes (fun _ v op => v ^^^ op) rfl h
  case and => exact logical_completes (fun _ v op => v &&& op) rfl h
  case mlu =>
    exact logical_completes (fun t v op => (op &&& t.reg (t.rIndex 2)) ||| (v &&& ~~~t.reg (t.rIndex 2))) rfl h

end Sys2Proof.Machine
end

section
/-! PROOFS. The shift group (R280 to R292). A shift sets A(a), or A(a) and A(a)+1, to a function of the value there and
the count; `shiftSingle_completes` and `shiftDouble_completes` say so once, and the rules of shifts give each function
its arithmetic. LSC and DLSC load what `normalise` makes of their operand: `normalise_zeros` and `normalise_spec`. -/

namespace Sys2Proof.Machine

/-! ## The ten shifts -/

/-- The count of a shift: bits 6:0 of its address (R280). -/
theorem shiftCount_eq_mod (u : RelAddr) : (u.extractLsb' 0 7).toNat = u.toNat % 128 :=
  BitVec.extractLsb'_toNat 0 7 u

/-- A(a), A(a)+1 and A(a)+2 are three registers, whatever their numbers modulo 128. -/
theorem consecutiveRegisters_nodup (k : GrsIndex) : [k, k + 1, k + 2].Nodup := by
  simp

section
variable {i : Instr} {a : BitVec 4} {o : Operand} {s t : State} {u : RelAddr}

/-- A shift of one register whose address is resolved sets A(a) to its function of A(a) and the count, the register
number being that of the state it started from (R280). -/
theorem shiftSingle_completes {f : Word → Nat → Word} {v : Word} (hi : exec i s = conclude s (shiftSingle a o s f))
    (h : resolveAddress o s = .ok (u, t)) (hv : f (t.reg (s.aIndex a)) (u.toNat % 128) = v) :
    CompletesInRegisters i s t [(s.aIndex a, v)] := by
  have ht := resolveAddress_indexedFrom h
  rw [← ht.1.aIndex a] at hv ⊢
  rw [← shiftCount_eq_mod] at hv
  subst hv
  exact completesInRegisters ht (List.nodup_singleton _) (exec_of_ok hi (shiftSingle_eq_ok.2 ⟨u, t, h, rfl⟩))

/-- A shift of two registers whose address is resolved sets A(a) and A(a)+1 to the halves of its function of their 72
bits and the count (R280). -/
theorem shiftDouble_completes {f : BitVec 72 → Nat → BitVec 72} {e : BitVec 72}
    (hi : exec i s = conclude s (shiftDouble a o s f)) (h : resolveAddress o s = .ok (u, t))
    (he : f (t.reg (s.aIndex a) ++ t.reg (s.aIndex a + 1)) (u.toNat % 128) = e) :
    CompletesInRegisters i s t [(s.aIndex a, e.extractLsb' 36 36), (s.aIndex a + 1, e.extractLsb' 0 36)] := by
  have ht := resolveAddress_indexedFrom h
  rw [← ht.1.aIndex a] at he ⊢
  rw [← shiftCount_eq_mod] at he
  subst he
  exact completesInRegisters ht (by simp) (exec_of_ok hi (shiftDouble_eq_ok.2 ⟨u, t, h, rfl⟩))

end

/-- Settles O42: each by `shiftSingle_completes` or `shiftDouble_completes`, with the arithmetic of its shift. -/
theorem shiftsComplete : Obligations.ShiftsComplete := by
  intro a o s t u h c v d pair
  refine ⟨?ssc, ?dsc, ?ssl, ?dsl, ?ssa, ?dsa, ?lssc, ?ldsc, ?lssl, ?ldsl⟩
  case ssc => exact shiftSingle_completes rfl h (circularRight_eq_rotateRight v c)
  case dsc => exact shiftDouble_completes rfl h (circularRight_eq_rotateRight d c)
  case ssl => exact shiftSingle_completes rfl h (ushiftRight_eq_div v c)
  case dsl => exact shiftDouble_completes rfl h (ushiftRight_eq_div d c)
  case ssa => exact shiftSingle_completes rfl h (sshiftRight_eq_div v c)
  case dsa => exact shiftDouble_completes rfl h (sshiftRight_eq_div d c)
  case lssc => exact shiftSingle_completes rfl h (circularLeft_eq_rotateLeft v c)
  case ldsc => exact shiftDouble_completes rfl h (circularLeft_eq_rotateLeft d c)
  case lssl => exact shiftSingle_completes rfl h (shiftLeft_eq_mul v c)
  case ldsl => exact shiftDouble_completes rfl h (shiftLeft_eq_mul d c)

/-! ## Load shift and count -/

/-- +0 and -0 are not rotated, and count one less than their width (R291, R292). -/
theorem normalise_zeros {n : Nat} {v : BitVec (n + 2)} (h : v = 0 ∨ v = BitVec.allOnes (n + 2)) :
    normalise v = (v, n + 1) :=
  if_pos h

section
variable {a : BitVec 4} {o : Operand} {s t : State} {r : Ref} {k : Nat}

/-- LSC loads the normalised word of its reference and its count (R291). -/
theorem lsc_completes {w : Word} (h : resolve .read 1 o s = .ok (r, t)) (hr : t.HasStorage r 1)
    (hn : normalise (n := 34) (t.wordAt r 0) = (w, k)) :
    CompletesInRegisters (.lsc a o) s t [(s.aIndex a, w), (s.aIndex a + 1, BitVec.ofNat 36 k)] := by
  have ht := resolve_indexedFrom h
  obtain ⟨rfl, rfl⟩ := Prod.ext_iff.1 hn
  rw [← ht.1.aIndex a]
  exact completesInRegisters ht (by simp) (exec_of_ok rfl (Attempt.bind_of_ok (readFullWord_wordAt h hr) rfl))

/-- DLSC loads the halves of its normalised double word and its count (R292). -/
theorem dlsc_completes {e : BitVec 72} (h : resolve .read 2 o s = .ok (r, t)) (hr : t.HasStorage r 2)
    (hn : normalise (n := 70) (t.wordAt r 0 ++ t.wordAt r 1 : BitVec (36 + 36)) = (e, k)) :
    CompletesInRegisters (.dlsc a o) s t
      [(s.aIndex a, e.extractLsb' 36 36), (s.aIndex a + 1, e.extractLsb' 0 36),
        (s.aIndex a + 2, BitVec.ofNat 36 k)] := by
  have ht := resolve_indexedFrom h
  obtain ⟨rfl, rfl⟩ := Prod.ext_iff.1 hn
  rw [← ht.1.aIndex a]
  exact completesInRegisters ht (consecutiveRegisters_nodup _)
    (exec_of_ok rfl (Attempt.bind_of_ok (readDoubleWord_wordAt h hr) rfl))

end

/-- Settles O43: `normalise` keeps +0 and -0, and turns any other word by the count that `normalise_spec` gives. -/
theorem loadShiftAndCountCompletes : Obligations.LoadShiftAndCountCompletes := by
  intro a o s t r h hr w
  refine ⟨fun hzero => ?zeros, fun hplus hminus => ?others⟩
  case zeros => exact lsc_completes h hr (normalise_zeros hzero)
  case others =>
    obtain ⟨k, hk, hdiffer, hleast, hn⟩ := normalise_spec (n := 34) w hplus hminus
    exact ⟨k, hk, hdiffer, hleast, lsc_completes h hr hn⟩

/-- Settles O44: as for one word, on the 72 bits of two. -/
theorem doubleLoadShiftAndCountCompletes : Obligations.DoubleLoadShiftAndCountCompletes := by
  intro a o s t r h hr d result
  refine ⟨fun hzero => ?zeros, fun hplus hminus => ?others⟩
  case zeros => exact dlsc_completes h hr (normalise_zeros hzero)
  case others =>
    obtain ⟨k, hk, hdiffer, hleast, hn⟩ := normalise_spec (n := 70) d hplus hminus
    exact ⟨k, hk, hdiffer, hleast, dlsc_completes h hr hn⟩

end Sys2Proof.Machine
end

section
/-! PROOFS. The procedure-control group (R311 to R325). CALL and LOCL store one frame, `FramePushed`; RTN takes what lies
at `frameAddress`. A transfer or a jump then changes PAR and B0 alone, and the return undoes the call because the
address and the pointer of the one are those of the other. -/

namespace Sys2Proof.Machine

/-! ## Frames of the Return Control Stack -/

/-- The absolute address of the frame at the pointer, which RTN takes (R313). -/
def State.frameAddress (s : State) : Nat :=
  (s.base 25).base + ((s.reg 0o140).low.toNat - (s.base 25).lower.toNat)

/-- The absolute address of the frame below the pointer, which CALL and LOCL store (R312). -/
def State.nextFrameAddress (s : State) : Nat :=
  (s.base 25).base + ((s.reg 0o140).low.toNat - 2 - (s.base 25).lower.toNat)

/-- `s'` has the frame of `s` stored below the pointer of `s` and the pointer there, and is otherwise as `t` in the
registers and as `s` in storage (R311, R312). -/
def FramePushed (s t s' : State) : Prop :=
  PointerMoved t s' ((s.reg 0o140).low - 2) ∧
    s'.mem.read s.nextFrameAddress = Word.ofHalves s.par.bank (s.par.pc + 1) ∧
    s'.mem.read (s.nextFrameAddress + 1) = s.dr &&& 0o000077000000 ∧
    ∀ x : Nat, x ≠ s.nextFrameAddress → x ≠ s.nextFrameAddress + 1 → s'.mem.read x = s.mem.read x

/-- A pushed frame stays while registers and storage do. -/
theorem FramePushed.of_eq {s t s₁ s₂ : State} (h : FramePushed s t s₁) (hgrs : s₂.grs = s₁.grs)
    (hmem : s₂.mem = s₁.mem) : FramePushed s t s₂ := by
  simp only [FramePushed, PointerMoved, State.reg, hgrs, hmem] at h ⊢
  exact h

/-- A push overflows exactly without room for a frame (R312). -/
theorem State.canPush_eq_false {s : State} :
    s.canPush = false ↔ (s.base 25).isVoid = true ∨ (s.reg 0o140).low.toNat < (s.base 25).lower.toNat + 2 ∨
      (s.base 25).upper.toNat + 1 < (s.reg 0o140).low.toNat := by
  rw [← Bool.not_eq_true, State.canPush_iff, ← Bool.not_eq_true, not_and_or, not_and_or, not_not, not_le, not_le]

/-- A pop underflows exactly without a frame (R313). -/
theorem State.canPop_eq_false {s : State} :
    s.canPop = false ↔ (s.base 25).isVoid = true ∨ (s.reg 0o140).low.toNat < (s.base 25).lower.toNat ∨
      (s.base 25).upper.toNat < (s.reg 0o140).low.toNat + 1 := by
  rw [← Bool.not_eq_true, State.canPop_iff, ← Bool.not_eq_true, not_and_or, not_and_or, not_not, not_le, not_le]

theorem push_of_full {s : State} (w : Word × Word) (h : s.canPush = false) :
    s.push w = .error (.interrupt (rcsFault 0 s.rcsPointer)) := by
  rw [State.push, h]
  rfl

theorem pop_of_empty {s : State} (h : s.canPop = false) : s.pop = .error (.interrupt (rcsFault 1 s.rcsPointer)) := by
  rw [State.pop, h]
  rfl

section
variable {s t : State} (ht : IndexedFrom s t)
include ht

/-- Resolving an address leaves B25 and the pointer, so the room for a frame. -/
theorem IndexedFrom.canPush : t.canPush = s.canPush := by
  have hreg : t.reg 0o140 = s.reg 0o140 := ht.rcsPointer
  rw [Bool.eq_iff_iff, State.canPush_iff, State.canPush_iff, ht.1.base, hreg]

theorem IndexedFrom.frame : t.frame = s.frame := by
  obtain ⟨hc, hpar, -⟩ := ht
  rw [State.frame, State.frame, hpar, hc.dr]

/-- With room, and storage behind it, the call's push completes. -/
theorem push_answers (hp : s.canPush = true) (hm : s.nextFrameAddress + 1 < s.params.memSize) :
    ∃ t', t.push t.frame = .ok t' := by
  refine ⟨_, t.push_ok _ (ht.canPush.trans hp) ?_⟩
  have hreg : t.reg 0o140 = s.reg 0o140 := ht.rcsPointer
  rw [ht.1.base, hreg, ht.1.params]
  exact hm

/-- A push that completes stores the frame. -/
theorem framePushed_of_push {t' : State} (hm : s.mem.wf = true) (h : t.push t.frame = .ok t') :
    FramePushed s t t' := by
  obtain ⟨hp, -, -, ht'⟩ := push_eq_ok h
  have hroom := State.canPush_iff.1 (ht.canPush.symm.trans hp)
  have hreg : t.rcsPointer = (s.reg 0o140).low := congrArg Word.low ht.rcsPointer
  have hlast : (s.base 25).translate ((s.reg 0o140).low.toNat - 1) = s.nextFrameAddress + 1 := by
    simp only [Descriptor.translate, State.nextFrameAddress]
    omega
  have hbase : t.base Config.rcsBase = s.base 25 := ht.1.base _
  rw [hreg, hbase, hlast, ht.frame] at ht'
  have hmem : t.mem.wf = true := ht.mem.symm ▸ hm
  obtain ⟨-, -, hmoved, h₀, h₁, hrest⟩ := pushed_facts (top := s.nextFrameAddress) hmem t' ht'
  rw [ht.mem] at hrest
  exact ⟨hmoved, h₀, h₁, hrest⟩

/-- A call's push keeps PAR and the control state. -/
theorem push_keeps {t' : State} (h : t.push t.frame = .ok t') : SameControl s t' ∧ t'.par = s.par := by
  obtain ⟨-, hc, hpar, -⟩ := push_eq_ok h
  obtain ⟨hcs, hpars, -⟩ := ht
  exact ⟨hcs.trans hc, hpar.trans hpars⟩

end

/-! ## Transfers -/

/-- A transfer puts its bank into B0. -/
theorem State.transfer_base (s : State) (d : Descriptor) (n : BankName) (u : RelAddr) (k : BaseIndex) :
    (s.transfer d n u).base k = if k = 0 then d else s.base k :=
  s.base_setBase 0 k d

/-- A transfer changes PAR and B0 alone. -/
theorem SameControl.transfer {s t : State} (h : SameControl s t) (d : Descriptor) (n : BankName) (u : RelAddr) :
    (t.transfer d n u).base 0 = d ∧ SameOutsideTransfer s (t.transfer d n u) := by
  refine ⟨(t.transfer_base d n u 0).trans (if_pos rfl), fun k hk => ?_, rfl, ?_⟩
  · rw [State.transfer_base, if_neg hk, h.base]
  · obtain ⟨-, hrest⟩ := h
    exact hrest

/-! ## Calls and jumps that complete -/

/-- Settles O45: the operand is read, its bank found, and the frame pushed before the transfer. -/
theorem callCompletes : Obligations.CallCompletes := by
  intro o s t r d h hr hd hm stack p top hvoid hlow hhigh htop
  have ht := resolve_indexedFrom h
  obtain ⟨t', hp⟩ := push_answers ht (State.canPush_iff.2 ⟨hvoid, hlow, hhigh⟩) htop
  obtain ⟨hbase, hsame⟩ := (push_keeps ht hp).1.transfer d (t.wordAt r 0).high (t.wordAt r 0).low
  exact ⟨_, exec_of_ok rfl (Attempt.bind_of_ok (readFullWord_wordAt h hr)
    (Attempt.bind_of_ok (State.lookup_eq_ok.2 (ht.1.bdt.symm ▸ hd)) (Attempt.bind_of_ok hp rfl))),
    ht, rfl, hbase, hsame, (framePushed_of_push ht hm hp).of_eq rfl rfl⟩

/-- Settles O46: the address is resolved, and the frame pushed before the jump. -/
theorem localCallCompletes : Obligations.LocalCallCompletes := by
  intro o s t u h hm stack p top hvoid hlow hhigh htop
  have ht := resolveAddress_indexedFrom h
  obtain ⟨t', hp⟩ := push_answers ht (State.canPush_iff.2 ⟨hvoid, hlow, hhigh⟩) htop
  obtain ⟨hsame, hpar⟩ := push_keeps ht hp
  exact ⟨_, exec_of_ok rfl (Attempt.bind_of_ok h (Attempt.bind_of_ok hp rfl)), ht, by rw [State.jump_par, hpar],
    hsame.trans (.jump t' u), (framePushed_of_push ht hm hp).of_eq rfl rfl⟩

/-- Settles O47: the operand is read and its bank found; the transfer keeps storage and registers. -/
theorem gotoCompletes : Obligations.GotoCompletes := by
  intro o s t r d h hr hd
  have ht := resolve_indexedFrom h
  obtain ⟨hbase, hsame⟩ := ht.1.transfer d (t.wordAt r 0).high (t.wordAt r 0).low
  exact ⟨_, exec_of_ok rfl (Attempt.bind_of_ok (readFullWord_wordAt h hr)
    (Attempt.bind_of_ok (State.lookup_eq_ok.2 (ht.1.bdt.symm ▸ hd)) rfl)),
    ht, rfl, hbase, hsame, fun x => congrArg (Memory.read · x) ht.mem, fun _ => rfl⟩

/-- Settles O51: the privilege check passes, and DB13 and PAR are all that the resolved state then loses. -/
theorem interruptEnableJumpsComplete : Obligations.InterruptEnableJumpsComplete := by
  intro i o s t u enabled hpp h hi
  obtain ⟨hc, hpar, hmem, -⟩ := resolveAddress_indexedFrom h
  have hattempt (iw : Word) : setDeferrableAndJump iw o s enabled =
      .ok { t.jump u with dr := withDesignatorBit t.dr 13 enabled } :=
    setDeferrableAndJump_eq_ok.2 ⟨hpp, u, t, h, rfl⟩
  have hexec : exec i s = .next { t.jump u with dr := withDesignatorBit t.dr 13 enabled } := by
    rcases hi with ⟨rfl, rfl | ⟨a, rfl⟩⟩ | ⟨rfl, rfl⟩
    all_goals exact exec_of_ok rfl (hattempt _)
  refine ⟨_, hexec, resolveAddress_indexedFrom h, congrArg (ProgramAddress.mk ·.bank u) hpar, fun n hn => ?dr, ?control,
    fun x => congrArg (Memory.read · x) hmem, fun _ => rfl⟩
  case dr => exact hc.dr ▸ designatorBit_withDesignatorBit t.dr 13 n (by decide) hn enabled
  case control =>
    obtain ⟨hb, -, hrest⟩ := hc
    exact ⟨hb, rfl, hrest⟩

/-! ## Returns -/

/-- The second word of a frame follows the first. -/
theorem State.translate_pointer_succ {s : State} (h : s.canPop = true) :
    (s.base 25).translate ((s.reg 0o140).low.toNat + 1) = s.frameAddress + 1 := by
  obtain ⟨-, hlow, -⟩ := State.canPop_iff.1 h
  rw [Descriptor.translate, State.frameAddress, Nat.sub_add_comm hlow, Nat.add_assoc]

/-- A pop that completes answers the words at the frame's address. -/
theorem pop_frame {s t : State} {w : Word × Word} (h : s.pop = .ok (w, t)) :
    s.canPop = true ∧ w = (s.mem.read s.frameAddress, s.mem.read (s.frameAddress + 1)) ∧
      t = s.setRegLow 0o140 ((s.reg 0o140).low + 2) := by
  obtain ⟨hp, h₀, h₁, ht⟩ := pop_eq_ok h
  exact ⟨hp, Prod.ext h₀ (h₁.trans (congrArg s.mem.read (State.translate_pointer_succ hp))), ht⟩

/-- The state that RTN leaves, with the caller's bank `d` (R323). -/
def State.returned (s : State) (d : Descriptor) : State :=
  { (s.setRegLow 0o140 ((s.reg 0o140).low + 2)).transfer d (s.mem.read s.frameAddress).high
      (s.mem.read s.frameAddress).low with
    dr := restoredDesignators s.dr (s.mem.read (s.frameAddress + 1)) }

theorem State.returned_base_zero (s : State) (d : Descriptor) : (s.returned d).base 0 = d :=
  ((s.setRegLow 0o140 ((s.reg 0o140).low + 2)).base_setBase 0 0 d).trans (if_pos rfl)

theorem State.returned_pointerMoved (s : State) (d : Descriptor) :
    PointerMoved s (s.returned d) ((s.reg 0o140).low + 2) :=
  ⟨(s.reg_setRegLow _ _ _).trans (if_pos rfl), fun _ hk => (s.reg_setRegLow _ _ _).trans (if_neg hk)⟩

/-- A return with a frame in storage and a known bank completes. -/
theorem exec_rtn {s : State} {o : Operand} {d : Descriptor} (hp : s.canPop = true)
    (hm : s.frameAddress + 1 < s.params.memSize) (hd : findBank (s.mem.read s.frameAddress).high s.bdt = some d) :
    exec (.rtn o) s = .next (s.returned d) :=
  exec_of_ok rfl (Attempt.bind_of_ok (State.pop_ok hp hm) (Attempt.bind_of_ok (State.lookup_eq_ok.2 hd) rfl))

/-- An instruction that adds no request to PENDING has completed (R162). -/
theorem ok_of_conclude {s t : State} {x : Attempt State} (h : conclude s x = .next t)
    (hpending : t.pending = s.pending) : x = .ok t := by
  rcases conclude_eq_next.1 h with hx | ⟨c, -, rfl⟩
  · exact hx
  · have := congrArg PendingSet.nextSeq hpending
    exact absurd this (Nat.succ_ne_self _)

/-- A return that completes has found the caller's bank. -/
theorem returned_of_exec {s t : State} {o : Operand} (h : exec (.rtn o) s = .next t)
    (hpending : t.pending = s.pending) :
    s.canPop = true ∧ ∃ d, findBank (s.mem.read s.frameAddress).high s.bdt = some d ∧ t = s.returned d := by
  obtain ⟨⟨w, s₁⟩, hpop, h⟩ := Attempt.bind_eq_ok.1 (ok_of_conclude h hpending)
  obtain ⟨d, hd, h⟩ := Attempt.bind_eq_ok.1 h
  obtain ⟨hp, rfl, rfl⟩ := pop_frame hpop
  exact ⟨hp, d, State.lookup_eq_ok.1 hd, (Except.ok.inj h).symm⟩

/-- Settles O48: `State.returned` is a transfer of the state whose pointer has moved up and whose DR is the caller's. -/
theorem returnCompletes : Obligations.ReturnCompletes := by
  intro o s d stack p top hvoid hlow hhigh htop hd
  have hexec : exec (.rtn o) s = .next (s.returned d) := exec_rtn (State.canPop_iff.2 ⟨hvoid, hlow, hhigh⟩) htop hd
  have hpop : SameControl { s with dr := (s.returned d).dr }
      { s.setRegLow 0o140 (p + 2) with dr := (s.returned d).dr } := by
    simp [SameControl]
  obtain ⟨hbase, hsame⟩ := hpop.transfer d (s.mem.read top).high (s.mem.read top).low
  exact ⟨_, hexec, rfl, hbase, fun n hn => designatorBit_restoredDesignators _ _ n hn, hsame, fun _ => rfl,
    s.returned_pointerMoved d⟩

/-! ## Faults -/

/-- Settles O50: each attempt ends at the lookup, the push or the pop, whose failures the laws name. -/
theorem stackAndBankFaults : Obligations.StackAndBankFaults := by
  intro o s stack p top full empty
  have overflow {t : State} (ht : IndexedFrom s t) (hfull : full) :
      t.push t.frame = .error (.interrupt (rcsFault 0 p)) := by
    rw [push_of_full _ (ht.canPush.trans (State.canPush_eq_false.2 hfull)), State.rcsPointer, ht.rcsPointer]
    rfl
  refine ⟨fun t r h hr => ⟨fun hd => ?unknown, fun hd hfull => ?callFull⟩, fun t u h hfull => ?loclFull,
    fun hempty => ?rtnEmpty, fun hframe hm hd => ?rtnUnknown⟩
  case unknown =>
    have hlookup := State.lookup_eq_error.2 ⟨(resolve_indexedFrom h).1.bdt.symm ▸ hd, rfl⟩
    exact ⟨abandons_of_error rfl (Attempt.bind_of_ok (readFullWord_wordAt h hr) (Attempt.bind_of_error hlookup)),
      abandons_of_error rfl (Attempt.bind_of_ok (readFullWord_wordAt h hr) (Attempt.bind_of_error hlookup))⟩
  case callFull =>
    have ht := resolve_indexedFrom h
    obtain ⟨d, hd⟩ := Option.ne_none_iff_exists'.1 hd
    exact abandons_of_error rfl (Attempt.bind_of_ok (readFullWord_wordAt h hr)
      (Attempt.bind_of_ok (State.lookup_eq_ok.2 (ht.1.bdt.symm ▸ hd)) (Attempt.bind_of_error (overflow ht hfull))))
  case loclFull =>
    exact abandons_of_error rfl
      (Attempt.bind_of_ok h (Attempt.bind_of_error (overflow (resolveAddress_indexedFrom h) hfull)))
  case rtnEmpty =>
    exact abandons_of_error rfl (Attempt.bind_of_error (pop_of_empty (State.canPop_eq_false.2 hempty)))
  case rtnUnknown =>
    have hp : s.canPop = true := Bool.eq_true_of_not_eq_false (mt State.canPop_eq_false.1 hframe)
    exact abandons_of_error rfl (Attempt.bind_of_ok (State.pop_ok hp hm)
      (Attempt.bind_of_error (State.lookup_eq_error.2 ⟨hd, rfl⟩)))

/-! ## A call and its return -/

/-- A CALL or LOCL that completes had room and has pushed its frame. -/
theorem framePushed_of_exec {i : Instr} {s s' : State} (hi : ∃ p : Operand, i = .call p ∨ i = .locl p)
    (hm : s.mem.wf = true) (h : exec i s = .next s') (hpending : s'.pending = s.pending) :
    s.canPush = true ∧ ∃ t, IndexedFrom s t ∧ FramePushed s t s' := by
  obtain ⟨t, t', ht, hp, hgrs, hmem⟩ : ∃ t t', IndexedFrom s t ∧ t.push t.frame = .ok t' ∧
      s'.grs = t'.grs ∧ s'.mem = t'.mem := by
    obtain ⟨o, rfl | rfl⟩ := hi
    case inl =>
      obtain ⟨⟨w, t⟩, hread, h⟩ := Attempt.bind_eq_ok.1 (ok_of_conclude h hpending)
      obtain ⟨d, -, h⟩ := Attempt.bind_eq_ok.1 h
      obtain ⟨t', hp, h⟩ := Attempt.bind_eq_ok.1 h
      cases h
      exact ⟨t, t', readFullWord_indexedFrom hread, hp, rfl, rfl⟩
    case inr =>
      obtain ⟨⟨u, t⟩, haddress, h⟩ := Attempt.bind_eq_ok.1 (ok_of_conclude h hpending)
      obtain ⟨t', hp, h⟩ := Attempt.bind_eq_ok.1 h
      cases h
      exact ⟨t, t', resolveAddress_indexedFrom haddress, hp, rfl, rfl⟩
  obtain ⟨hroom, -⟩ := push_eq_ok hp
  exact ⟨ht.canPush.symm.trans hroom, t, ht, (framePushed_of_push ht hm hp).of_eq hgrs hmem⟩

/-- The frame that a state with the caller's B25 and the moved pointer returns through is the one that was pushed. -/
theorem frameAddress_after_push {s u : State} (hp : s.canPush = true) (hbase : u.base 25 = s.base 25)
    (hlow : (u.reg 0o140).low = (s.reg 0o140).low - 2) : u.frameAddress = s.nextFrameAddress := by
  obtain ⟨-, hroom, -⟩ := State.canPush_iff.1 hp
  have htwo : (2 : RelAddr) ≤ (s.reg 0o140).low := BitVec.le_def.2 ((Nat.le_add_left _ _).trans hroom)
  rw [State.frameAddress, State.nextFrameAddress, hbase, hlow, BitVec.toNat_sub_of_le htwo]
  rfl

/-- DB12 to DB17 survive the frame. -/
theorem designatorBit_saved (dr : Word) {n : Nat} (h₁ : 12 ≤ n) (h₂ : n ≤ 17) (old : Word) :
    designatorBit (restoredDesignators old (savedDesignators dr)) n = designatorBit dr n := by
  have hself : restoredDesignators old (savedDesignators dr) = restoredDesignators old dr := by
    rw [restoredDesignators, savedDesignators, BitVec.and_assoc, BitVec.and_self]
    rfl
  rw [hself, designatorBit_restoredDesignators _ _ _ (by omega), if_pos ⟨h₁, h₂⟩]

/-- Settles O49: the return takes its words from where the call put them, and moves the pointer back. -/
theorem returnRestoresTheCall : Obligations.ReturnRestoresTheCall := by
  intro i o s s' u v hi hm hcall hpending hbase hreg hbdt hframe hreturn hpending'
  obtain ⟨hp, t, ht, ⟨hmoved, -⟩, hword₀, hword₁, -⟩ := framePushed_of_exec hi hm hcall hpending
  have hlow : (u.reg 0o140).low = (s.reg 0o140).low - 2 := by
    rw [hreg]
    exact (congrArg Word.low hmoved).trans (Word.low_ofHalves _ _)
  have hbase' : u.base 25 = s.base 25 :=
    hbase.trans ((exec_base hcall 25).resolve_right fun h => absurd h.left (by decide))
  have haddress : u.frameAddress = s.nextFrameAddress := frameAddress_after_push hp hbase' hlow
  obtain ⟨hpop, d, hd, rfl⟩ := returned_of_exec hreturn hpending'
  have hread₀ : u.mem.read u.frameAddress = Word.ofHalves s.par.bank (s.par.pc + 1) :=
    (hframe 0 (by decide)).trans ((congrArg s'.mem.read haddress).trans hword₀)
  have hread₁ : u.mem.read (u.frameAddress + 1) = savedDesignators s.dr := by
    have hsame := hframe 1 (by decide)
    rw [← Descriptor.translate, State.translate_pointer_succ hpop] at hsame
    rw [hsame, haddress]
    exact hword₁
  refine ⟨?par, ?bank, fun n h₁ h₂ => ?dr, ?pointer⟩
  case par =>
    change ProgramAddress.mk (u.mem.read u.frameAddress).high (u.mem.read u.frameAddress).low = _
    rw [hread₀, Word.high_ofHalves, Word.low_ofHalves]
  case bank =>
    obtain ⟨⟨-, hbdt', -⟩, -⟩ := exec_keeps_system hcall
    rw [hread₀, Word.high_ofHalves, hbdt, hbdt'] at hd
    rw [hd, State.returned_base_zero]
  case dr =>
    change designatorBit (restoredDesignators u.dr (u.mem.read (u.frameAddress + 1))) n = _
    rw [hread₁, designatorBit_saved _ h₁ h₂]
  case pointer =>
    obtain ⟨hback, -⟩ := u.returned_pointerMoved d
    exact (congrArg Word.low hback).trans ((Word.low_ofHalves _ _).trans (by rw [hlow, BitVec.sub_add_cancel]))

end Sys2Proof.Machine
end

section
/-! PROOFS. The interrupt-related group (R340 to R342). ER and SGNL are one attempt, `signalling`, with different SSFs: it
resolves an address, advances, and only then queues its request, so the request lands behind those that were there. -/

namespace Sys2Proof.Machine

/-- Settles O52: `signalling` ends in the resolved state, advanced, with the signal queued, and PENDING is all of the
control state that queueing changes. -/
theorem signalsComplete : Obligations.SignalsComplete := by
  intro i o s t u ssf h hi
  obtain ⟨hcontrol, hpar, hmem, -⟩ := resolveAddress_indexedFrom h
  have hattempt : signalling ssf o s = .ok (t.advance.enqueue (signal ssf u)) :=
    signalling_eq_ok.2 ⟨u, t, h, rfl⟩
  have hexec : exec i s = .next (t.advance.enqueue (signal ssf u)) := by
    rcases hi with ⟨rfl, a, rfl⟩ | ⟨rfl, rfl⟩
    case inl => exact exec_of_ok rfl hattempt
    case inr => exact exec_of_ok rfl hattempt
  refine ⟨_, hexec, resolveAddress_indexedFrom h, ?advanced, ?queued, ?control,
    fun x => congrArg (Memory.read · x) hmem, fun _ => rfl⟩
  case advanced => rw [Advanced, State.enqueue_par, State.advance_par, hpar]
  case queued =>
    rw [State.enqueue_pending, State.advance_pending, hcontrol.pending]
    rfl
  case control =>
    obtain ⟨hb, hdr, hkey, -, hrest⟩ := hcontrol
    exact ⟨hb, hdr, hkey, rfl, hrest⟩

end Sys2Proof.Machine
end

section
/-! PROOFS. The special group (R350 to R356). NOP, and SEND to oneself or to no processor that is ignored, only advance
from the state that their resolution leaves: they complete with no register written. SEND to another processor and HALT
advance too, and then change one part of the control state: the target's PENDING, or the run state. -/

namespace Sys2Proof.Machine

/-! ## Instructions that only advance -/

/-- What ends with the advance of a resolved state has advanced from the first (R29): resolution keeps PAR (R93). -/
theorem IndexedFrom.advanced {s t s' : State} (h : IndexedFrom s t) (hpar : s'.par = t.advance.par) :
    Advanced s s' := by
  obtain ⟨-, hkept, -⟩ := h
  rw [Advanced, hpar, State.advance_par, hkept]

/-- An instruction whose resolution leaves `t` and which then only advances completes with no register written. -/
theorem completesInRegisters_nil {i : Instr} {s t : State} {x : Attempt State} (hi : exec i s = conclude s x)
    (ht : IndexedFrom s t) (hx : x = .ok t.advance) : CompletesInRegisters i s t [] :=
  completesInRegisters ht List.nodup_nil (exec_of_ok hi hx)

/-- Settles O53: both rows are the attempt `checkOperand`. -/
theorem noOperationCompletes : Obligations.NoOperationCompletes := by
  intro a o s t r h
  have hattempt : checkOperand o s = .ok t.advance := checkOperand_eq_ok.2 ⟨r, t, h, rfl⟩
  exact ⟨completesInRegisters_nil rfl (resolve_indexedFrom h) hattempt,
    completesInRegisters_nil rfl (resolve_indexedFrom h) hattempt⟩

/-! ## Signals to other processors -/

/-- An index other than this processor's own is in PROCESSORS exactly if a peer has it (R421). -/
theorem State.isProcessor_of_ne {s : State} {u : UpiIndex} (h : u ≠ s.params.upiIndex) :
    s.isProcessor u = true ↔ ∃ p ∈ s.peers, p.index = u := by
  simp [State.isProcessor, h]

theorem SameControl.peers {s t : State} (h : SameControl s t) : t.peers = s.peers := by
  obtain ⟨-, -, -, -, -, -, -, -, -, -, -, hpeers, -⟩ := h
  exact hpeers

theorem SameControl.isProcessor {s t : State} (h : SameControl s t) (u : UpiIndex) :
    t.isProcessor u = s.isProcessor u := by
  rw [State.isProcessor, State.isProcessor, h.params, h.peers]

@[simp] theorem State.length_deliver_peers (s : State) (u : UpiIndex) (c : Cause) :
    (s.deliver u c).peers.length = s.peers.length :=
  List.length_map _

/-- A delivery leaves every peer in its place, and gives the request to those that have the target's index (R420). -/
theorem State.getElem?_deliver_peers {s : State} {n : Nat} {p : Peer} (u : UpiIndex) (c : Cause)
    (h : s.peers[n]? = some p) : (s.deliver u c).peers[n]? =
      some (if p.index = u then { p with pending := p.pending.enqueue c } else p) := by
  rw [State.deliver, List.getElem?_map, h, Option.map_some]

section
variable {o : Operand} {s t : State} {u : RelAddr}

/-- A SEND to another processor delivers to it. -/
theorem exec_send_of_processor (h : resolveAddress o s = .ok (u, t)) (hown : u ≠ s.params.upiIndex)
    (hpeer : ∃ p ∈ s.peers, p.index = u) :
    exec (.send o) s = .next (t.advance.deliver u (upiSignal s.params.upiIndex)) := by
  have hc := (resolveAddress_indexedFrom h).1
  have hprocessor : t.isProcessor u = true := (hc.isProcessor u).trans ((State.isProcessor_of_ne hown).2 hpeer)
  rw [← hc.params] at hown ⊢
  exact exec_of_ok rfl (Attempt.bind_of_ok h ((if_neg hown).trans (if_pos hprocessor)))

/-- What a SEND to another processor changes is its target's PENDING (R420). -/
theorem SameControl.deliver_advance (h : SameControl s t) (v : UpiIndex) (c : Cause) :
    SameControl { s with peers := (t.advance.deliver v c).peers } (t.advance.deliver v c) := by
  obtain ⟨hb, hdr, hkey, hpending, hsave, hlast, hentry, hrun, hreason, hdetail, hbdt, -, hparams⟩ := h
  exact ⟨hb, hdr, hkey, hpending, hsave, hlast, hentry, hrun, hreason, hdetail, hbdt, rfl, hparams⟩

/-- A SEND to no processor ends as UPI_ABSENT_TARGET says. -/
theorem send_absent (h : resolveAddress o s = .ok (u, t)) (hown : u ≠ s.params.upiIndex)
    (hpeers : ∀ p ∈ s.peers, p.index ≠ u) :
    (s.params.upiAbsentTarget = .ignore → CompletesInRegisters (.send o) s t []) ∧
    (s.params.upiAbsentTarget = .fault → Abandons (.send o) s ⟨14, 2, encode (.send o), 0⟩) := by
  have ht := resolveAddress_indexedFrom h
  have hprocessor : ¬t.isProcessor u = true := by
    rw [ht.1.isProcessor, State.isProcessor_of_ne hown]
    exact fun ⟨p, hp, hpu⟩ => hpeers p hp hpu
  rw [← ht.1.params] at hown ⊢
  refine ⟨fun habsent => completesInRegisters_nil rfl ht (Attempt.bind_of_ok h ?_),
    fun habsent => abandons_of_error (c := invalidInstruction 2 (encode (.send o))) rfl (Attempt.bind_of_ok h ?_)⟩
  all_goals
    exact (if_neg hown).trans ((if_neg hprocessor).trans (by rw [habsent]))

end

/-- Settles O54: a case for each target of SEND; the delivery is seen peer by peer. -/
theorem sendCompletes : Obligations.SendCompletes := by
  intro o s t u h
  have ht := resolveAddress_indexedFrom h
  refine ⟨fun hown => ?own, fun hown hpeer => ?other, fun hown hpeers => send_absent h hown hpeers⟩
  case own =>
    rw [← ht.1.params] at hown
    exact completesInRegisters_nil rfl ht (Attempt.bind_of_ok h (if_pos hown))
  case other =>
    refine ⟨_, exec_send_of_processor h hown hpeer, ht, ht.advanced rfl, ?length, fun n p hp => ?peer,
      ht.1.deliver_advance _ _, fun x => congrArg (Memory.read · x) ht.mem, fun _ => rfl⟩
    case length => rw [State.length_deliver_peers, State.advance_peers, ht.1.peers]
    case peer =>
      rw [← ht.1.peers] at hp
      refine ⟨_, State.getElem?_deliver_peers (s := t.advance) u _ hp, ?_⟩
      split
      case isTrue hpu => exact ⟨rfl, fun hne => absurd hpu hne, fun _ => ⟨rfl, rfl⟩⟩
      case isFalse hpu => exact ⟨rfl, fun _ => rfl, fun heq => absurd heq hpu⟩

/-! ## Halting -/

/-- Settles O55: the privilege check passes, and the stop is all that the resolved state's control then loses. -/
theorem haltCompletes : Obligations.HaltCompletes := by
  intro o s t u hpp h
  have ht := resolveAddress_indexedFrom h
  obtain ⟨hb, hdr, hkey, hpending, hsave, hlast, hentry, -, -, -, hrest⟩ := ht.1
  have hexec : exec (.halt o) s = .next (t.advance.stop .debug u) :=
    exec_of_ok rfl (Attempt.bind_of_ok (requirePrivilege_eq_ok.2 hpp) (Attempt.bind_of_ok h rfl))
  exact ⟨_, hexec, ht, ht.advanced rfl, rfl, rfl, rfl,
    ⟨hb, hdr, hkey, hpending, hsave, hlast, hentry, rfl, rfl, rfl, hrest⟩,
    fun x => congrArg (Memory.read · x) ht.mem, fun _ => rfl⟩

end Sys2Proof.Machine
end

section
/-! PROOFS. Interrupts: which request a boundary dispatches and which stay (R406), what interrupt entry does to each
piece of state (R410), and the causes that an instruction can be abandoned with (R403). -/

namespace Sys2Proof.Machine

/-! ## The first request of a list -/

theorem InterruptRequest.before_iff {p q : InterruptRequest} :
    p.before q = true ↔
      p.cause.cls.toNat < q.cause.cls.toNat ∨ (p.cause.cls = q.cause.cls ∧ p.seq < q.seq) := by
  simp [InterruptRequest.before]

theorem InterruptRequest.before_asymm {p q : InterruptRequest} (h : p.before q = true) : q.before p = false := by
  rw [← Bool.not_eq_true]
  intro h'
  rw [before_iff] at h h'
  rcases h with hlt | ⟨heq, hseq⟩ <;> rcases h' with hlt' | ⟨heq', hseq'⟩
  · omega
  · exact absurd hlt (by rw [heq']; omega)
  · exact absurd hlt' (by rw [heq]; omega)
  · omega

theorem firstRequest_cons (r : InterruptRequest) (l : List InterruptRequest) :
    (firstRequest l = none ∧ firstRequest (r :: l) = some r) ∨
      ∃ p, firstRequest l = some p ∧ firstRequest (r :: l) = if p.before r then some p else some r := by
  rw [firstRequest]
  cases firstRequest l with
  | none => exact .inl ⟨rfl, rfl⟩
  | some p => exact .inr ⟨p, rfl, rfl⟩

theorem firstRequest_mem {l : List InterruptRequest} {q : InterruptRequest} (h : firstRequest l = some q) : q ∈ l := by
  induction l generalizing q with
  | nil => cases h
  | cons r l ih =>
    rcases firstRequest_cons r l with ⟨-, hr⟩ | ⟨p, hp, hr⟩
    · rw [hr] at h
      cases h
      exact List.mem_cons_self
    · rw [hr] at h
      split at h
      · cases h
        exact List.mem_cons_of_mem _ (ih hp)
      · cases h
        exact List.mem_cons_self

theorem firstRequest_eq_none {l : List InterruptRequest} : firstRequest l = none ↔ l = [] := by
  cases l with
  | nil => exact ⟨fun _ => rfl, fun _ => rfl⟩
  | cons r l =>
    rcases firstRequest_cons r l with ⟨-, hr⟩ | ⟨p, -, hr⟩
    · simp [hr]
    · rw [hr]
      split <;> simp

/-- The request that goes before every other one of the list is the one found. -/
theorem firstRequest_eq_some {l : List InterruptRequest} {q : InterruptRequest} (hq : q ∈ l)
    (hfirst : ∀ p ∈ l, p ≠ q → q.before p = true) : firstRequest l = some q := by
  induction l with
  | nil => cases hq
  | cons r l ih =>
    obtain ⟨hr, hl⟩ := List.forall_mem_cons.1 hfirst
    rcases firstRequest_cons r l with ⟨hnone, h⟩ | ⟨p, hp, h⟩
    · rw [firstRequest_eq_none.1 hnone, List.mem_singleton] at hq
      rw [h, hq]
    · rw [h]
      by_cases hrq : r = q
      · subst hrq
        by_cases hpr : p = r
        · rw [hpr, ite_self]
        · have hafter := InterruptRequest.before_asymm (hl p (firstRequest_mem hp) hpr)
          rw [hafter, if_neg Bool.false_ne_true]
      · have hql : q ∈ l := (List.mem_cons.1 hq).resolve_left (Ne.symm hrq)
        rw [ih hql hl] at hp
        cases hp
        exact if_pos (hr hrq)

/-! ## Dispatch -/

theorem State.eligible_iff {s : State} {q : InterruptRequest} :
    s.eligible q = true ↔ q.deferrable = false ∨ designatorBit s.dr 13 = true := by
  simp [State.eligible, State.deferrableEnabled]

theorem State.selected_eligible {s : State} {q : InterruptRequest} (h : s.selected = some q) :
    q ∈ s.pending.requests ∧ s.eligible q = true :=
  List.mem_filter.1 (firstRequest_mem h)

theorem State.selected_eq_none {s : State} :
    s.selected = none ↔ ∀ q ∈ s.pending.requests, s.eligible q = false := by
  rw [State.selected, firstRequest_eq_none, List.filter_eq_nil_iff]
  simp only [Bool.not_eq_true]

theorem step_of_selected {s : State} {q : InterruptRequest} (hr : s.run = .running) (hq : s.selected = some q) :
    step s = .next (s.dispatch q) := by
  simp only [step, hr, cycle, hq]

/-- An instruction removes nothing from its own PENDING. -/
theorem exec_keeps_requests {i : Instr} {s t : State} (h : exec i s = .next t) :
    s.pending.requests.Sublist t.pending.requests := by
  rcases exec_pending h with hp | ⟨c, -, rfl⟩ | ⟨c, -, hp, -⟩
  · rw [hp]
  · exact List.sublist_append_left _ _
  · rw [hp]
    exact List.sublist_append_left _ _

/-- While DB13 holds them no step removes a deferrable request (R406). -/
theorem step_keeps_held {s t : State} (h : step s = .next t) (hheld : designatorBit s.dr 13 = false) :
    (s.pending.requests.filter (·.deferrable)).Sublist t.pending.requests := by
  have hfilter := List.filter_sublist (p := (·.deferrable)) (l := s.pending.requests)
  cases step_stepCase h with
  | rests hr => exact hfilter
  | dispatches q _ hq =>
    obtain ⟨-, heligible⟩ := State.selected_eligible hq
    have hurgent : q.deferrable = false :=
      (State.eligible_iff.1 heligible).resolve_right (Bool.eq_false_iff.1 hheld)
    have hout : q ∉ s.pending.requests.filter (·.deferrable) := fun hmem => by
      simp [hurgent] at hmem
    exact List.erase_of_not_mem hout ▸ hfilter.erase q
  | executes i _ _ he => exact hfilter.trans (exec_keeps_requests (s := s.fetched) he)
  | undefinedWord | fetchFaults | entryFaults => exact hfilter.trans (List.sublist_append_left _ _)

/-- Settles O9: `firstRequest_eq_some` for the request that is dispatched, `step_keeps_held` for those that are not. -/
theorem dispatchTakesTheFirstEligible : Obligations.DispatchTakesTheFirstEligible := by
  intro s hr
  refine ⟨fun q hq heligible hfirst => ?_, fun hheld => ?_, fun t h hheld => step_keeps_held h hheld⟩
  · refine step_of_selected hr (firstRequest_eq_some ?_ fun p hp hne => ?_)
    · exact List.mem_filter.2 ⟨hq, State.eligible_iff.2 heligible⟩
    · obtain ⟨hp, hpe⟩ := List.mem_filter.1 hp
      exact InterruptRequest.before_iff.2 (hfirst p hp (State.eligible_iff.1 hpe) hne)
  · refine State.selected_eq_none.2 fun q hq => ?_
    obtain ⟨hdeferrable, h13⟩ := hheld q hq
    simp [State.eligible, State.deferrableEnabled, hdeferrable, h13]

/-! ## Interrupt entry -/

/-- Settles O10: the step is `State.dispatch`; DR and the base registers by their own lemmas. -/
theorem interruptEntryEffects : Obligations.InterruptEntryEffects := by
  intro s q hr hq
  refine ⟨s.dispatch q, step_of_selected hr hq, rfl, rfl, fun n hn => ?_, ?_, fun k hk => ?_, rfl, rfl, rfl, rfl, rfl,
    rfl, rfl, rfl, rfl, rfl, rfl, rfl⟩
  · rw [State.dispatch_dr, designatorBit_entryDesignators _ _ hn]
  · rw [State.dispatch_base, if_pos rfl]
  · rw [State.dispatch_base, if_neg hk]

/-! ## The causes of an abandonment -/

theorem PendingSet.enqueue_injective (p : PendingSet) : Function.Injective p.enqueue := by
  intro c d h
  have hrequest : p.request c = p.request d :=
    List.singleton_inj.1 (List.append_cancel_left (congrArg PendingSet.requests h))
  exact congrArg InterruptRequest.cause hrequest

theorem PendingSet.enqueue_ne (p : PendingSet) (c : Cause) : p.enqueue c ≠ p := by
  intro h
  have := congrArg PendingSet.nextSeq h
  simp [PendingSet.enqueue] at this

/-- An instruction that completes adds no request, or has advanced (ER and SGNL, R340). -/
theorem Completed.pending_or_pc {i : Instr} {s t u : State} (ht : IndexedFrom s t) (h : Completed i s t u) :
    u.pending = s.pending ∨ u.par.pc = s.par.pc + 1 := by
  obtain ⟨hcontrol, hpar, -⟩ := ht
  have hpending : t.pending = s.pending := hcontrol.pending
  rcases h with ⟨ws, rfl, -⟩ | ⟨n, o, r, ws, -, -, -, rfl⟩ | ⟨o, w, d, t', -, -, hp, rfl⟩ | ⟨o, v, t', -, hp, rfl⟩ |
    ⟨o, w, d, -, -, rfl⟩ | ⟨o, w₀, w₁, d, t', -, hp, -, rfl⟩ | ⟨o, v, e, -, -, rfl⟩ | ⟨o, v, ssf, -, rfl⟩ |
    ⟨o, v, -, rfl⟩ | ⟨o, v, -, -, rfl⟩
  · exact .inl ((SameControl.setAll t ws).pending.trans hpending)
  · exact .inl ((store_same t r 0 ws).1.pending.trans hpending)
  · exact .inl ((push_eq_ok hp).2.1.pending.trans hpending)
  · exact .inl ((push_eq_ok hp).2.1.pending.trans hpending)
  · exact .inl hpending
  · exact .inl ((pop_sameControl hp).pending.trans hpending)
  · exact .inl hpending
  · exact .inr (by rw [State.enqueue_par, State.advance_par, hpar])
  · exact .inl hpending
  · exact .inl hpending

/-- A completion is no abandonment. -/
theorem Completed.ne_enqueue {i : Instr} {s t u : State} (ht : IndexedFrom s t) (h : Completed i s t u) (c : Cause) :
    u ≠ s.enqueue c := by
  rintro rfl
  rcases h.pending_or_pc ht with hp | hpc
  · exact s.pending.enqueue_ne c hp
  · have hne : s.par.pc + 1 ≠ s.par.pc := by bv_omega
    exact hne hpc.symm

theorem Abandons.raised {i : Instr} {s : State} {c : Cause} (h : Abandons i s c) : Raised i s c := by
  rcases exec_cases h with ⟨c', he, hr⟩ | ⟨t, ht, hc⟩
  · rwa [s.pending.enqueue_injective (congrArg State.pending he)]
  · exact absurd rfl (hc.ne_enqueue ht c)

theorem Instr.privileged_cases {i : Instr} (h : i.privileged = true) :
    (∃ a o, i = .aaijB a o) ∨ ∃ o, i = .aaijE o ∨ i = .paij o ∨ i = .halt o := by
  cases i with
  | aaijB a o => exact .inl ⟨a, o, rfl⟩
  | aaijE o => exact .inr ⟨o, .inl rfl⟩
  | paij o => exact .inr ⟨o, .inr (.inl rfl)⟩
  | halt o => exact .inr ⟨o, .inr (.inr rfl)⟩
  | _ => cases h

/-- Settles O12: an abandonment's cause is one of `Raised`, whose cases are those of the statement. -/
theorem onlyTabledFaultsAreRaised : Obligations.OnlyTabledFaultsAreRaised := by
  intro i s c h
  rcases h.raised with hv | hbank | ⟨rfl, hi⟩ | ⟨rfl, hi⟩ | ⟨rfl, hi, hpp⟩ | ⟨rfl, hi⟩
  · exact .inl hv
  · exact .inr (.inl hbank)
  · exact .inr (.inr (.inl ⟨rfl, rfl, rfl, rfl, hi⟩))
  · exact .inr (.inr (.inr (.inl ⟨rfl, rfl, rfl, rfl, hi⟩)))
  · exact .inr (.inr (.inr (.inr (.inl ⟨rfl, rfl, rfl, rfl, hpp, Instr.privileged_cases hi⟩))))
  · exact .inr (.inr (.inr (.inr (.inr ⟨rfl, rfl, rfl, rfl, hi⟩))))

end Sys2Proof.Machine
end

section
/-! PROOFS. The machine invariant `State.Wf` (R421): it holds at creation, and every step and every host call keeps it.
Each update of the state that a step or a call is made of keeps it, proved once; `exec_wf` puts them together for an
instruction through `Completed.control`. -/

namespace Sys2Proof.Machine

/-! ## Storage in canonical form and within a size -/

/-- The invariant's two conditions on storage. -/
def Memory.Fits (m : Memory) (size : Nat) : Prop := m.wf = true ∧ ∀ c ∈ m, c.1 < size

theorem Memory.Fits.write {m : Memory} {size a : Nat} (h : m.Fits size) (ha : a < size) (v : Word) :
    (m.write a v).Fits size := by
  obtain ⟨hwf, hlt⟩ := h
  refine ⟨Memory.write_wf a v hwf, fun c hc => ?_⟩
  rcases Memory.mem_write hc with hca | hc
  · omega
  · exact hlt c hc

theorem Memory.Fits.writeAll {m : Memory} {size a : Nat} {ws : List Word} (h : m.Fits size)
    (ha : ∀ k, k < ws.length → a + k < size) : (m.writeAll a ws).Fits size := by
  induction ws generalizing m a with
  | nil => exact h
  | cons w ws ih =>
    refine ih (h.write (ha 0 (by simp)) w) fun k hk => ?_
    have := ha (k + 1) (by simpa using hk)
    omega

theorem State.memWrite_fits {s t : State} {a : Nat} {v : Word} (hs : s.mem.Fits s.params.memSize)
    (h : s.memWrite a v = .ok t) : t.mem.Fits t.params.memSize := by
  obtain ⟨ha, rfl⟩ := State.memWrite_eq_ok.1 h
  exact hs.write ha v

theorem store_fits {t : State} {r : Ref} {n : Nat} (hm : t.mem.Fits t.params.memSize) (hr : t.HasStorage r n) (k : Nat)
    (ws : List Word) (hk : k + ws.length ≤ n) : (t.store r k ws).mem.Fits t.params.memSize := by
  induction ws generalizing t k with
  | nil => exact hm
  | cons w ws ih =>
    rw [List.length_cons] at hk
    cases r with
    | grs g => exact ih (t := t.storeWord (.grs g) k w) hm trivial (k + 1) (by omega)
    | mem br u =>
      exact ih (t := t.storeWord (.mem br u) k w) (hm.write (hr k (by omega)) w) hr (k + 1) (by omega)

theorem push_fits {t t' : State} {w : Word × Word} (hm : t.mem.Fits t.params.memSize) (h : t.push w = .ok t') :
    t'.mem.Fits t'.params.memSize := by
  rw [State.push, if_pos (push_eq_ok h).1] at h
  obtain ⟨t₁, h₁, h⟩ := Attempt.bind_eq_ok.1 h
  obtain ⟨t₂, h₂, h⟩ := Attempt.bind_eq_ok.1 h
  cases h
  exact (State.memWrite_fits (State.memWrite_fits hm h₁) h₂ :)

/-- A completion writes existing words alone: a store's (R106, R109) or a frame's (R312). -/
theorem Completed.mem_fits {i : Instr} {s t u : State} (hs : s.mem.Fits s.params.memSize) (ht : IndexedFrom s t)
    (h : Completed i s t u) : u.mem.Fits u.params.memSize := by
  have hm : t.mem.Fits t.params.memSize := by rwa [ht.mem, ht.1.params]
  rcases h with ⟨ws, rfl, -⟩ | ⟨n, o, r, ws, -, hr, hlen, rfl⟩ | ⟨o, w, d, t', -, -, hp, rfl⟩ | ⟨o, v, t', -, hp, rfl⟩ |
    ⟨o, w, d, -, -, rfl⟩ | ⟨o, w₀, w₁, d, t', -, hp, -, rfl⟩ | ⟨o, v, e, -, -, rfl⟩ | ⟨o, v, ssf, -, rfl⟩ |
    ⟨o, v, -, rfl⟩ | ⟨o, v, -, -, rfl⟩
  · rw [State.advance_mem, State.setAll_mem, State.advance_params, (SameControl.setAll t ws).params]
    exact hm
  · rw [State.advance_mem, State.advance_params, (store_same t r 0 ws).1.params]
    exact store_fits hm hr 0 ws (by omega)
  · exact (push_fits hm hp :)
  · exact (push_fits hm hp :)
  · exact hm
  · obtain ⟨-, -, -, rfl⟩ := pop_eq_ok hp
    exact hm
  all_goals exact hm

/-! ## PENDING sets -/

theorem PendingSet.Wf.enqueue {p : PendingSet} (h : p.Wf) {c : Cause} (hc : knownClass c.cls = true) :
    (p.enqueue c).Wf := by
  obtain ⟨hrise, hall⟩ := h
  constructor
  · refine List.pairwise_append.2 ⟨hrise, List.pairwise_singleton _ _, fun q hq r hr => ?_⟩
    rw [List.mem_singleton.1 hr]
    exact (hall q hq).1
  · intro q hq
    rcases List.mem_append.1 hq with hq | hq
    · obtain ⟨hseq, hflag⟩ := hall q hq
      exact ⟨Nat.lt_succ_of_lt hseq, hflag⟩
    · rw [List.mem_singleton.1 hq]
      exact ⟨Nat.lt_succ_self _, rfl, hc⟩

/-- Requests may leave. -/
theorem PendingSet.Wf.sublist {p : PendingSet} (h : p.Wf) {l : List InterruptRequest} (hl : l.Sublist p.requests) :
    ({ p with requests := l } : PendingSet).Wf := by
  obtain ⟨hrise, hall⟩ := h
  exact ⟨hrise.sublist hl, fun q hq => hall q (hl.subset hq)⟩

theorem PendingSet.urgent_enqueue (p : PendingSet) (c : Cause) :
    (p.enqueue c).urgent = p.urgent + if deferrableClass c.cls then 0 else 1 := by
  rw [PendingSet.urgent, PendingSet.enqueue, List.countP_append, List.countP_singleton]
  cases h : deferrableClass c.cls <;> simp [PendingSet.request, PendingSet.urgent, h]

/-- Where no request is eligible, DB13 holds them all (R406). -/
theorem State.urgent_of_selected_none {s : State} (h : s.selected = none) : s.pending.urgent = 0 := by
  refine List.countP_eq_zero.2 fun q hq => ?_
  have := State.selected_eq_none.1 h q hq
  simp_all [State.eligible]

/-! ## The updates that keep the invariant -/

section
variable {s : State} (hs : s.Wf)
include hs

theorem State.Wf.fits : s.mem.Fits s.params.memSize := ⟨hs.canonical, hs.within⟩

/-- Registers, PAR and storage that fits are free to change. -/
theorem State.Wf.sameControl {t : State} (h : SameControl s t) (hm : t.mem.Fits t.params.memSize) : t.Wf := by
  have hd := h.descriptorsValid hs.descriptors
  obtain ⟨hwf, hlt⟩ := hm
  obtain ⟨-, -, -, hpending, hsave, -, hentry, hrun, hreason, -, -, hpeers, hparams⟩ := h
  constructor
  case canonical => exact hwf
  case within => exact hlt
  case descriptors => exact hd
  case pending => exact hpending ▸ hs.pending
  case oneUrgent => exact hpending ▸ hs.oneUrgent
  case peers => exact hpeers ▸ hs.peers
  case saved => exact hentry ▸ hsave ▸ hs.saved
  case stopped => exact hrun ▸ hreason ▸ hs.stopped
  case distinct => exact hpeers ▸ hparams ▸ hs.distinct

theorem State.Wf.setBase (k : BaseIndex) {d : Descriptor} (hd : d.valid s.params.memSize = true) :
    (s.setBase k d).Wf :=
  { hs with descriptors := hs.descriptors.setBase k hd }

theorem State.Wf.setDr (dr : Word) : ({ s with dr := dr } : State).Wf := { hs with }

theorem State.Wf.fetched : s.fetched.Wf := { hs with saved := nofun }

theorem State.Wf.stop {reason : StopReason} (hr : reason ≠ .none) (detail : BitVec 18) : (s.stop reason detail).Wf :=
  { hs with stopped := ⟨fun _ => hr, fun _ => rfl⟩ }

/-- A request that cannot be held needs a PENDING without one. -/
theorem State.Wf.enqueue {c : Cause} (hc : knownClass c.cls = true)
    (hu : deferrableClass c.cls = true ∨ s.pending.urgent = 0) : (s.enqueue c).Wf := by
  have hone : (s.pending.enqueue c).urgent ≤ 1 := by
    have := hs.oneUrgent
    rw [PendingSet.urgent_enqueue]
    rcases hu with hu | hu
    · rwa [if_pos hu]
    · split <;> omega
  exact { hs with pending := hs.pending.enqueue hc, oneUrgent := hone }

theorem State.Wf.deliver (v : UpiIndex) {c : Cause} (hc : knownClass c.cls = true) : (s.deliver v c).Wf := by
  have hpeers : ∀ p ∈ (s.deliver v c).peers, p.pending.Wf := by
    intro p hp
    obtain ⟨p', hp', rfl⟩ := List.mem_map.1 hp
    split
    · exact (hs.peers p' hp').enqueue hc
    · exact hs.peers p' hp'
  have hdistinct : (s.params.upiIndex :: (s.deliver v c).peers.map Peer.index).Nodup := by
    rw [State.deliver_indices]
    exact hs.distinct
  exact { hs with peers := hpeers, distinct := hdistinct }

theorem State.Wf.withoutRequest (q : InterruptRequest) : (s.withoutRequest q).Wf := by
  have hsub : (s.pending.requests.erase q).Sublist s.pending.requests := List.erase_sublist
  exact { hs with
    pending := hs.pending.sublist hsub
    oneUrgent := hsub.countP_le.trans hs.oneUrgent }

theorem State.Wf.enter (q : InterruptRequest) : (s.enter q).Wf :=
  { hs with
    descriptors := hs.descriptors.setBase 0 (hs.descriptors.base Config.interruptBase)
    saved := fun _ => rfl }

end

theorem State.Wf.dispatch {s : State} (hs : s.Wf) (q : InterruptRequest) : (s.dispatch q).Wf :=
  (hs.withoutRequest q).enter q

/-! ## Creation -/

/-- Of the parameters only MEM_SIZE matters, for the void descriptors (R35, R38). -/
theorem created_wf (g : Vector Word 128) (params : Params) (processors : List UpiIndex) (hm : 0 < params.memSize) :
    (State.created g params processors).Wf where
  canonical := rfl
  within := nofun
  descriptors := created_descriptorsValid g processors hm
  pending := ⟨.nil, nofun⟩
  oneUrgent := Nat.zero_le 1
  peers := by
    intro p hp
    obtain ⟨i, -, rfl⟩ := List.mem_map.1 hp
    exact ⟨.nil, nofun⟩
  saved := nofun
  stopped := ⟨nofun, fun h => absurd rfl h⟩
  distinct := by
    rw [State.created_indices]
    exact otherProcessors_nodup _ _

/-- Settles O14: the reset state is a created one. -/
theorem createdStateIsWellFormed : Obligations.CreatedStateIsWellFormed :=
  ⟨created_wf _ {} [] (by decide), created_wf⟩

/-! ## A step -/

theorem Raised.knownClass {i : Instr} {s : State} {c : Cause} (h : Raised i s c) : knownClass c.cls = true := by
  rcases h with ⟨hc, -⟩ | ⟨hc, -⟩ | ⟨rfl, -⟩ | ⟨rfl, -⟩ | ⟨rfl, -⟩ | ⟨rfl, -⟩
  · rw [hc]; rfl
  · rw [hc]; rfl
  all_goals rfl

/-- A failed fetch raises class 8 (R112). -/
theorem State.fetchWord_knownClass {s : State} {c : Cause} (h : s.fetchWord = .error (.interrupt c)) :
    knownClass c.cls = true := by
  cases hb : s.fetchBase with
  | none =>
    rw [State.fetchWord_of_noBase hb] at h
    cases h
    rfl
  | some k =>
    rw [State.fetchWord_of_base hb] at h
    split at h
    · cases (State.memRead_eq_error.1 h).2
    · cases h
      rfl

/-- An instruction that runs with no urgent request pending keeps the invariant: the one that it may add is the only
one (R404). -/
theorem exec_wf {i : Instr} {s t : State} (hs : s.Wf) (hu : s.pending.urgent = 0) (h : exec i s = .next t) : t.Wf := by
  rcases exec_cases h with ⟨c, rfl, hr⟩ | ⟨u, hi, hc⟩
  · exact hs.enqueue hr.knownClass (.inr hu)
  · have hm := hc.mem_fits hs.fits hi
    rcases hc.control hi with ht | ⟨_, _, d, _, hd, ht⟩ | ⟨_, _, d, w, _, hd, ht⟩ | ⟨_, e, _, _, ht⟩ |
      ⟨_, v, ssf, _, ht⟩ | ⟨_, v, _, ht⟩ | ⟨_, v, _, _, ht⟩
    · exact hs.sameControl ht hm
    · exact (hs.setBase 0 (hs.descriptors.of_findBank hd)).sameControl ht hm
    · exact ((hs.setBase 0 (hs.descriptors.of_findBank hd)).setDr _).sameControl ht hm
    · exact (hs.setDr _).sameControl ht hm
    · exact (hs.enqueue (c := signal ssf v) rfl (.inr hu)).sameControl ht hm
    · exact (hs.deliver v (c := upiSignal s.params.upiIndex) rfl).sameControl ht hm
    · exact (hs.stop (reason := .debug) nofun v).sameControl ht hm

/-- Settles O15: a step either dispatches, or runs with no eligible and so no urgent request, and may add one. -/
theorem stepKeepsWellFormed : Obligations.StepKeepsWellFormed := by
  intro s t hs h
  cases step_stepCase h with
  | rests hr => exact hs
  | dispatches q _ _ => exact hs.dispatch q
  | executes i _ hi he =>
    obtain ⟨w, ⟨-, hsel, -⟩, -⟩ := hi
    exact exec_wf hs.fetched (State.urgent_of_selected_none hsel) he
  | undefinedWord w hw =>
    obtain ⟨-, hsel, -⟩ := hw
    exact hs.fetched.enqueue rfl (.inr (State.urgent_of_selected_none hsel))
  | fetchFaults c hsel hc _ =>
    exact hs.enqueue (State.fetchWord_knownClass hc) (.inr (State.urgent_of_selected_none hsel))
  | entryFaults c hsel hc _ =>
    exact (hs.enqueue (State.fetchWord_knownClass hc) (.inr (State.urgent_of_selected_none hsel))).stop
      (reason := .interruptEntryFault) nofun _

/-! ## The host's calls -/

/-- An accepted bank's words lie below MEM_SIZE (R36, R471). -/
theorem LoadBank.acceptable_words {b : LoadBank} {m : Nat} (h : b.acceptable m = true) (k : Nat)
    (hk : k < b.words.length) : b.descriptor.base + k < m := by
  obtain ⟨-, hvoid, hbank⟩ := LoadBank.acceptable_iff.1 h
  cases hv : b.descriptor.isVoid with
  | true =>
    rw [hvoid hv] at hk
    cases hk
  | false =>
    obtain ⟨hlen, hlt⟩ := hbank hv
    have := hlt (by omega)
    omega

theorem loadBanks_fits {m : Memory} {size : Nat} {bs : List LoadBank} (hm : m.Fits size)
    (h : ∀ b ∈ bs, b.acceptable size = true) : (loadBanks m bs).Fits size := by
  induction bs generalizing m with
  | nil => exact hm
  | cons b bs ih =>
    obtain ⟨hb, hbs⟩ := List.forall_mem_cons.1 h
    exact ih (hm.writeAll (LoadBank.acceptable_words hb)) hbs

theorem LoadImage.acceptable_banks {l : LoadImage} {memSize : Nat} (h : l.acceptable memSize = true) :
    ∀ b ∈ l.banks, b.acceptable memSize = true := by
  simp only [LoadImage.acceptable, Bool.and_eq_true, List.all_eq_true] at h
  obtain ⟨⟨-, hbanks⟩, -⟩ := h
  exact hbanks

/-- A load empties PENDING and SAVE and leaves the other processors alone (R471). -/
theorem State.Wf.load {s t : State} (hs : s.Wf) {l : LoadImage} (h : s.load l = some t) : t.Wf := by
  have hd := load_descriptorsValid hs.descriptors.memSize_pos h
  obtain ⟨-, hacc, -, rfl⟩ := State.load_eq_some.1 h
  obtain ⟨hregs, -⟩ := setRegs_sameControl s l.initialGrs
  have hm := loadBanks_fits hs.fits (LoadImage.acceptable_banks hacc)
  rw [← hregs.params] at hm
  obtain ⟨hwf, hlt⟩ := hm
  constructor
  case canonical => exact hwf
  case within => exact hlt
  case descriptors => exact hd
  case pending => exact ⟨.nil, nofun⟩
  case oneUrgent => exact Nat.zero_le 1
  case peers =>
    intro p hp
    exact hs.peers p (hregs.peers ▸ hp)
  case saved => exact nofun
  case stopped => exact ⟨nofun, fun h => absurd rfl h⟩
  case distinct =>
    simp only [State.setRegLow_params, State.setRegLow_peers, hregs.params, hregs.peers]
    exact hs.distinct

theorem State.Wf.start {s : State} (hs : s.Wf) : s.start.Wf := by
  unfold State.start
  split
  · exact hs
  · exact { hs with stopped := ⟨nofun, fun h => absurd rfl h⟩ }

theorem State.Wf.hostHalt {s : State} (hs : s.Wf) : s.hostHalt.Wf := by
  unfold State.hostHalt
  split
  · exact hs.stop (reason := .halt) nofun 0
  · exact hs

/-- A signal is of class 31, which can be held (R403). -/
theorem State.Wf.hostSend {s t : State} (hs : s.Wf) {sender target : UpiIndex} (h : s.hostSend sender target = some t) :
    t.Wf := by
  unfold State.hostSend at h
  split at h
  · cases h
    exact hs
  · split at h
    · cases h
      exact hs.enqueue rfl (.inl rfl)
    · split at h
      · cases h
        exact hs.deliver target rfl
      · cases h

/-- Settles O16, call by call. -/
theorem hostCallsKeepWellFormed : Obligations.HostCallsKeepWellFormed := by
  intro s t c hs h
  cases c with
  | load l => exact hs.load h
  | start =>
    cases h
    exact hs.start
  | halt =>
    cases h
    exact hs.hostHalt
  | send sender target => exact hs.hostSend h

end Sys2Proof.Machine
end

section
/-! PROOFS. The host's calls (R471 to R477): which loads are accepted and what each leaves in every piece of state, and
the effect of start, halt and send. `State.load_eq_some` gives the state after a load; the lemmas before the obligations
say how its base registers, its registers and its storage follow from the image. -/

namespace Sys2Proof.Machine

/-! ## The assignments of a load -/

section
variable {l : LoadImage} {k : BaseIndex} {n : BankName}

/-- An image that does not name B0 assigns it the entry bank (R471). -/
theorem LoadImage.assignments_of_default (h : ∀ p ∈ l.assign, p.1 ≠ 0) :
    l.assignments = (0, l.entry.bank) :: l.assign := by
  have hany : ¬(l.assign.any fun p => p.1 == 0) = true := by
    rw [List.any_eq_true]
    exact fun ⟨p, hp, hp0⟩ => h p hp (eq_of_beq hp0)
  exact if_neg hany

/-- An image that names B0 is taken as it is. -/
theorem LoadImage.assignments_of_named {p : BaseIndex × BankName} (hp : p ∈ l.assign) (h : p.1 = 0) :
    l.assignments = l.assign :=
  if_pos (List.any_eq_true.2 ⟨p, hp, (beq_iff_eq (a := p.1)).2 h⟩)

/-- B0's default is the only assignment that the image does not list. -/
theorem LoadImage.forall_assignments {P : BaseIndex × BankName → Prop} (hentry : P (0, l.entry.bank)) :
    (∀ p ∈ l.assignments, P p) ↔ ∀ p ∈ l.assign, P p := by
  by_cases h : ∀ p ∈ l.assign, p.1 ≠ 0
  · rw [LoadImage.assignments_of_default h, List.forall_mem_cons]
    exact and_iff_right hentry
  · push Not at h
    obtain ⟨p, hp, hp0⟩ := h
    rw [LoadImage.assignments_of_named hp hp0]

theorem LoadImage.assignedBank_default (h : ∀ p ∈ l.assign, p.1 ≠ 0) :
    assignedBank 0 l.assignments = some l.entry.bank := by
  rw [LoadImage.assignments_of_default h, assignedBank, if_pos rfl]

/-- The default for B0 does not reach the other base registers. -/
theorem LoadImage.assignedBank_of_ne_zero (hk : k ≠ 0) : assignedBank k l.assignments = assignedBank k l.assign := by
  rw [LoadImage.assignments]
  split
  · rfl
  · rw [assignedBank, if_neg hk.symm]

/-- A base register that the image assigns once is assigned that bank. -/
theorem LoadImage.assignedBank_of_mem {p : BaseIndex × BankName} (hp : p ∈ l.assign)
    (h : ∀ p' ∈ l.assign, p'.1 = p.1 → p' = p) : assignedBank p.1 l.assignments = some p.2 := by
  by_cases hp0 : p.1 = 0
  · rw [LoadImage.assignments_of_named hp hp0, Machine.assignedBank_of_mem hp h]
  · rw [LoadImage.assignedBank_of_ne_zero hp0, Machine.assignedBank_of_mem hp h]

theorem assignedBank_isSome {as : List (BaseIndex × BankName)} :
    (assignedBank k as).isSome = as.any (fun p => p.1 == k) := by
  rw [Bool.eq_iff_iff, Option.isSome_iff_ne_none, Ne, assignedBank_eq_none]
  simp

/-- A base register that is assigned a bank of the table holds its descriptor (R471). -/
theorem LoadImage.findBank_descriptorFor (hk : assignedBank k l.assignments = some n)
    (hn : (findBank n l.table).isSome = true) : findBank n l.table = some (l.descriptorFor k) := by
  obtain ⟨d, hd⟩ := Option.isSome_iff_exists.1 hn
  simp only [LoadImage.descriptorFor, hk, hd, Option.getD_some]

/-- A base register that is assigned no bank is void (R471). -/
theorem LoadImage.descriptorFor_of_none (hk : assignedBank k l.assignments = none) :
    l.descriptorFor k = Descriptor.void := by
  simp only [LoadImage.descriptorFor, hk]

theorem LoadImage.rcsPointer_of_some {p : RelAddr} (h : l.initialRcsPtr = some p) : l.rcsPointer = p := by
  simp only [LoadImage.rcsPointer, h]

/-- INITIAL_RCS_PTR's default: one above B25's bank if the image assigns B25, else 0 (R8, R471). -/
theorem LoadImage.rcsPointer_of_none (h : l.initialRcsPtr = none) :
    l.rcsPointer = if l.assign.any (fun p => p.1 == 25) then (l.descriptorFor 25).upper + 1 else 0 := by
  have hassigned : (assignedBank Config.rcsBase l.assignments).isSome = l.assign.any (fun p => p.1 == 25) := by
    rw [LoadImage.assignedBank_of_ne_zero (by decide), assignedBank_isSome]
    rfl
  simp only [LoadImage.rcsPointer, h, hassigned]
  rfl

end

/-! ## Which loads are accepted -/

/-- What makes an image acceptable, its entry included, bank by bank and assignment by assignment (R471). -/
theorem LoadImage.acceptable_iff {l : LoadImage} {memSize : Nat} :
    l.acceptable memSize = true ∧ (findBank l.entry.bank l.table).isSome = true ↔
      (l.banks.map LoadBank.name).Nodup ∧ (∀ b ∈ l.banks, b.acceptable memSize = true) ∧
        (∃ b ∈ l.banks, b.name = l.entry.bank) ∧ ∀ p ∈ l.assign, ∃ b ∈ l.banks, b.name = p.2 := by
  rw [LoadImage.findBank_isSome, and_comm]
  simp only [LoadImage.acceptable, Bool.and_eq_true, List.all_eq_true, distinctNames_iff, LoadImage.findBank_isSome]
  constructor
  · rintro ⟨hentry, ⟨hnames, hbanks⟩, hassign⟩
    exact ⟨hnames, hbanks, hentry, (LoadImage.forall_assignments hentry).1 hassign⟩
  · rintro ⟨hnames, hbanks, hentry, hassign⟩
    exact ⟨hentry, ⟨hnames, hbanks⟩, (LoadImage.forall_assignments hentry).2 hassign⟩

/-- A load is accepted on a processor that does not run, if the image is acceptable (R471). -/
theorem State.load_ne_none_iff {s : State} {l : LoadImage} :
    s.load l ≠ none ↔
      s.run ≠ .running ∧ l.acceptable s.params.memSize = true ∧ (findBank l.entry.bank l.table).isSome = true := by
  constructor
  · intro h
    obtain ⟨t, ht⟩ := Option.ne_none_iff_exists'.1 h
    obtain ⟨hrun, hacc, hentry, -⟩ := State.load_eq_some.1 ht
    exact ⟨hrun, hacc, hentry⟩
  · rintro ⟨hrun, hacc, hentry⟩ h
    exact nomatch h.symm.trans (State.load_eq_some.2 ⟨hrun, hacc, hentry, rfl⟩)

/-! ## What an accepted load leaves -/

section
variable {s t : State} {l : LoadImage}

theorem State.load_base (h : s.load l = some t) (k : BaseIndex) : t.base k = l.descriptorFor k := by
  obtain ⟨-, -, -, rfl⟩ := State.load_eq_some.1 h
  simp [State.base]

/-- The registers after a load are those of INITIAL_GRS with INITIAL_RCS_PTR in EX0's modifier. -/
theorem State.load_grs (h : s.load l = some t) :
    t.grs = ((s.setRegs l.initialGrs).setRegLow 0o140 l.rcsPointer).grs := by
  obtain ⟨-, -, -, rfl⟩ := State.load_eq_some.1 h
  rfl

/-- Every register but EX0 is as INITIAL_GRS leaves it. -/
theorem State.load_reg (h : s.load l = some t) {k : GrsIndex} (hk : k ≠ 0o140) :
    t.reg k = (s.setRegs l.initialGrs).reg k := by
  rw [State.reg, State.load_grs h, ← State.reg, State.reg_setRegLow, if_neg hk]

/-- EX0's other half is as INITIAL_GRS leaves it, and its modifier is INITIAL_RCS_PTR (R471). -/
theorem State.load_reg_rcsPointer (h : s.load l = some t) :
    t.reg 0o140 = Word.ofHalves ((s.setRegs l.initialGrs).reg 0o140).high l.rcsPointer := by
  rw [State.reg, State.load_grs h, ← State.reg, State.reg_setRegLow, if_pos rfl]

theorem State.load_reg_high (h : s.load l = some t) :
    (t.reg 0o140).high = ((s.setRegs l.initialGrs).reg 0o140).high := by
  rw [State.load_reg_rcsPointer h, Word.high_ofHalves]

theorem State.load_reg_low (h : s.load l = some t) : (t.reg 0o140).low = l.rcsPointer := by
  rw [State.load_reg_rcsPointer h, Word.low_ofHalves]

end

/-- A word of a bank stays in storage when no later bank has a word at its address (log 27). -/
theorem loadBanks_read_of_last {m : Memory} (hm : m.wf = true) {before after : List LoadBank} {b : LoadBank} {n : Nat}
    (hn : n < b.words.length)
    (hafter : ∀ b' ∈ after, ∀ i : Nat, i < b'.words.length → b'.descriptor.base + i ≠ b.descriptor.base + n) :
    (loadBanks m (before ++ b :: after)).read (b.descriptor.base + n) = b.words.getD n 0 := by
  have hbefore : (loadBanks m before).wf = true := loadBanks_wf hm before
  have hsplit : loadBanks m (before ++ b :: after) =
      loadBanks ((loadBanks m before).writeAll b.descriptor.base b.words) after := List.foldl_append
  rw [hsplit, loadBanks_read_outside (Memory.writeAll_wf _ _ hbefore) hafter, Memory.read_writeAll hbefore,
    if_pos (by omega), Nat.add_sub_cancel_left]

/-- Settles O60: the acceptance is `State.load_ne_none_iff` with the image's conditions written out; the registers,
base registers and storage after a load are as the image lists them. -/
theorem loadSetsTheState : Obligations.LoadSetsTheState := by
  intro s l
  refine ⟨?accepted, fun t hwf h => ?_⟩
  case accepted =>
    have hacc := LoadImage.acceptable_iff (l := l) (memSize := s.params.memSize)
    simp only [LoadBank.acceptable_iff] at hacc
    exact State.load_ne_none_iff.trans (and_congr_right fun _ => hacc)
  have hbase := State.load_base h
  have hreg := fun k => State.load_reg h (k := k)
  have hhigh := State.load_reg_high h
  have hlow := State.load_reg_low h
  obtain ⟨hsame, -⟩ := setRegs_sameControl s l.initialGrs
  obtain ⟨-, hacc, hentry, rfl⟩ := State.load_eq_some.1 h
  obtain ⟨-, -, -, hassign⟩ := LoadImage.acceptable_iff.1 ⟨hacc, hentry⟩
  refine ⟨rfl, rfl, rfl, rfl, rfl, rfl, rfl, rfl, rfl, rfl, rfl, hsame.params, hsame.peers, fun k hk hk0 => ?void,
    fun hdefault => ?entryBank, fun p hp hone => ?assigned, fun p hp hone => ?listed, fun k hk => ?unlisted, ?pointer,
    fun before after b n hbanks hn hafter => ?words, fun x hx => loadBanks_read_outside hwf hx⟩
  case void =>
    rw [hbase, LoadImage.descriptorFor_of_none]
    · rfl
    · rw [LoadImage.assignedBank_of_ne_zero hk0, assignedBank_eq_none]
      exact hk
  case entryBank =>
    rw [hbase]
    exact LoadImage.findBank_descriptorFor (LoadImage.assignedBank_default hdefault) hentry
  case assigned =>
    rw [hbase]
    exact LoadImage.findBank_descriptorFor (LoadImage.assignedBank_of_mem hp hone)
      (LoadImage.findBank_isSome.2 (hassign p hp))
  case listed =>
    have hvalue : (s.setRegs l.initialGrs).reg p.1 = p.2 := setRegs_reg_of_mem hp hone
    exact ⟨fun hne => (hreg _ hne).trans hvalue, fun heq => by rw [hhigh, ← heq, hvalue]⟩
  case unlisted =>
    have hkept : (s.setRegs l.initialGrs).reg k = s.reg k := setRegs_reg_of_not_mem hk
    exact ⟨fun hne => (hreg _ hne).trans hkept, fun heq => by rw [hhigh, ← heq, hkept]⟩
  case pointer =>
    rw [hlow, hbase]
    cases hp : l.initialRcsPtr with
    | some p => exact LoadImage.rcsPointer_of_some hp
    | none => exact LoadImage.rcsPointer_of_none hp
  case words =>
    simp only [hbanks]
    exact loadBanks_read_of_last hwf hn hafter

/-! ## Start, halt and send -/

/-- A signal joins a PENDING set as a deferrable request of class 31 with the sender's index (R403, R420). -/
theorem PendingSet.enqueue_upiSignal (p : PendingSet) (sender : UpiIndex) :
    p.enqueue (upiSignal sender) =
      ⟨p.requests ++ [⟨⟨31, 0, zext36 sender, 0⟩, true, p.nextSeq⟩], p.nextSeq + 1⟩ := rfl

section
variable {s : State} {sender target : UpiIndex}

theorem State.hostSend_own (hne : sender ≠ target) (htarget : target = s.params.upiIndex) :
    s.hostSend sender target = some (s.enqueue (upiSignal sender)) := by
  rw [State.hostSend, if_neg hne, if_pos htarget]

theorem State.hostSend_peer (hne : sender ≠ target) (htarget : target ≠ s.params.upiIndex)
    (hpeer : ∃ p ∈ s.peers, p.index = target) :
    s.hostSend sender target = some (s.deliver target (upiSignal sender)) := by
  rw [State.hostSend, if_neg hne, if_neg htarget, if_pos ((State.isProcessor_of_ne htarget).2 hpeer)]

theorem State.hostSend_absent (hne : sender ≠ target) (htarget : target ≠ s.params.upiIndex)
    (hpeers : ∀ p ∈ s.peers, p.index ≠ target) : s.hostSend sender target = none := by
  rw [State.hostSend, if_neg hne, if_neg htarget, if_neg]
  rw [State.isProcessor_of_ne htarget]
  exact fun ⟨p, hp, hindex⟩ => hpeers p hp hindex

end

/-- Settles O59: a lemma for each kind of target of send; start and halt are their definitions. -/
theorem hostStartHaltAndSend : Obligations.HostStartHaltAndSend := by
  intro s sender target
  refine ⟨rfl, rfl, fun heq => if_pos heq, fun hne htarget => ?own, fun hne htarget hpeer => ?peer,
    fun hne htarget hpeers => State.hostSend_absent hne htarget hpeers⟩
  case own =>
    rw [hostCall, State.hostSend_own hne htarget, State.enqueue, PendingSet.enqueue_upiSignal]
  case peer =>
    rw [hostCall, State.hostSend_peer hne htarget hpeer, State.deliver]
    simp only [PendingSet.enqueue_upiSignal]

end Sys2Proof.Machine
end
